-- ==== Sys2Proof/Word.lean ====
section
/-! DEFINITION. The words of the machine: bytes, 16-bit halves, 20-bit slot values, 4-bit banks, and the pair (bank, offset) that is an address (00_scope.md R4, R7). -/

namespace Sys2Proof

/-- A memory cell, an opcode, a register byte: 8 bits (R4). -/
abbrev Byte := BitVec 8

/-- An offset, a 16-bit immediate, an ALU operand (R4, R7). -/
abbrev Half := BitVec 16

/-- What one slot of the register file stores: 20 bits (R4, R13). -/
abbrev SlotVal := BitVec 20

/-- A bank number, 0..15 (R4, R8). -/
abbrev Bank := BitVec 4

/-- A number that selects an interrupt-table entry, 0..255 (R204). -/
abbrev Kind := BitVec 8

/-- An address is the pair (bank, offset) (R7, R33). -/
structure Addr where
  bank : Bank
  offset : Half
deriving DecidableEq, Repr

end Sys2Proof
end

