-- ==== Sys2Proof/Config.lean ====
section
/-! DEFINITION. The sizes and constants the source fixes (00_scope.md R4), and the types the parameters of R6 are written with.
The parameters R6 leaves open (SLOT, HDR, MODE, IENT, KIND_EXCEPT, FL_Z, Mem) are named definitions of the same namespace Sys2Proof.Config,
each at the spec's default, in Machine/Params.lean; OPC is the opcode table of Decode.lean; PowerOn is the argument of Machine.powerOn. -/

namespace Sys2Proof

/-- What stands behind an address of the memory port (20_memory.md R58). -/
inductive Region where
  /-- general RAM, directly backed -/
  | ram
  /-- forwarded to the audio peripheral; reads return 0 -/
  | audio
  /-- forwarded to the timer peripheral; reads return 0 -/
  | timer
  /-- nothing: reads 0, writes ignored (R57) -/
  | unmapped
deriving DecidableEq, Repr

/-- The three permissions of a page-table entry (20_memory.md R46). -/
inductive Access where
  | exec
  | write
  | read
deriving DecidableEq, Repr

namespace Config

/-- Register slots, identifiers 0..23 (R4, R10). -/
abbrev slotCount : Nat := 24

/-- General registers R0..R7 (R4). -/
abbrev generalCount : Nat := 8

/-- Bytes in a bank (R4). -/
abbrev bankBytes : Nat := 65536

/-- Bytes in a page (R4). -/
abbrev pageBytes : Nat := 4096

end Config

end Sys2Proof
end

