-- ==== Sys2Proof/Syntax.lean ====
section
/-! DEFINITION. The instructions of mcpu (30_encoding.md R70 to R91): one constructor for each row of spec/opcode_table.json, with the operand types they take. -/

namespace Sys2Proof

/-- A slot of the register file, named by its identifier 0..23 (10_state.md R10, R12). -/
abbrev Slot := Fin Config.slotCount

/-- The inline source of a memory operand (30_encoding.md R75, R78). -/
inductive Source where
  /-- `st` = 0: a one-byte register identifier -/
  | reg (r : Slot)
  /-- `st` = 1: a two-byte little-endian immediate -/
  | imm (v : Half)
deriving DecidableEq, Repr

/-- The six addressing modes (30_encoding.md R77). -/
inductive Mode where
  | absolute
  | pcRel
  | spRel
  | ptRel
  | itRel
  | indexed
deriving DecidableEq, Repr

/-- A memory operand: mode, the 4-bit bank-or-index field `f` as it stands in the header, and the source (30_encoding.md R75 to R79).
The bits of `f` a mode ignores are kept, so that no bit of an encoding is lost. -/
structure MemOperand where
  mode : Mode
  f : BitVec 4
  src : Source
deriving DecidableEq, Repr

/-- The instructions (30_encoding.md R90, R91). -/
inductive Instr where
  -- data movement
  | mov (rd rs : Slot)
  | immB (rd : Slot) (k : Byte)
  | immW (rd : Slot) (k : Half)
  -- memory
  | lodB (rd : Slot) (m : MemOperand)
  | lodW (rd : Slot) (m : MemOperand)
  | stoB (m : MemOperand) (rs : Slot)
  | stoW (m : MemOperand) (rs : Slot)
  -- arithmetic
  | addiB (rd : Slot) (k : Byte)
  | addiW (rd : Slot) (k : Half)
  | add (rd rs : Slot)
  | subiB (rd : Slot) (k : Byte)
  | subiW (rd : Slot) (k : Half)
  | sub (rd rs : Slot)
  -- bitwise and shifts
  | not (rd : Slot)
  | and (rd rs : Slot)
  | andiB (rd : Slot) (k : Byte)
  | andiW (rd : Slot) (k : Half)
  | orr (rd rs : Slot)
  | xor (rd rs : Slot)
  | shl (rd rs : Slot)
  | shliB (rd : Slot) (k : Byte)
  | shr (rd rs : Slot)
  | shriB (rd : Slot) (k : Byte)
  -- register utility
  | clr (rd : Slot)
  | sl4 (rd : Slot)
  | sr4 (rd : Slot)
  -- flags
  | sez
  | clz
  | inz
  -- reserved opcodes (R91)
  | rsvSext
  | rsvBtst
  | rsvBset
  | rsvCmpeq
  | rsvCmplt
  | rsvCmpgt
  | rsvPush
  | rsvPull
  | rsvJmp
  | rsvJz
  | rsvJnz
  | rsvCall
  | rsvRet
  | rsvSwi
  | rsvRti
  | rsvJmpf
deriving DecidableEq, Repr

end Sys2Proof
end

