-- ==== Sys2Proof/Machine/Params.lean ====
section
/-! DEFINITION. The parameters the source leaves open, as named definitions with the default the spec decides (00_scope.md R6; log entry 11):
SLOT, HDR, MODE, IENT, KIND_EXCEPT, FL_Z and Mem. OPC is the table of Decode.lean. -/

namespace Sys2Proof

/-! SLOT: the slot number of each control register (10_state.md R11). -/

abbrev Slot.pc : Slot := 0
abbrev Slot.pcb : Slot := 1
abbrev Slot.sp : Slot := 2
abbrev Slot.bp : Slot := 3
abbrev Slot.exc : Slot := 4
abbrev Slot.fl : Slot := 5
abbrev Slot.mmup : Slot := 6
abbrev Slot.mmub : Slot := 7
abbrev Slot.mmue : Slot := 8
abbrev Slot.intp : Slot := 9
abbrev Slot.intb : Slot := 10
abbrev Slot.intl : Slot := 11
abbrev Slot.rtip : Slot := 12
abbrev Slot.rtib : Slot := 13
abbrev Slot.r0 : Slot := 16
abbrev Slot.r1 : Slot := 17
abbrev Slot.r2 : Slot := 18
abbrev Slot.r3 : Slot := 19
abbrev Slot.r4 : Slot := 20
abbrev Slot.r5 : Slot := 21
abbrev Slot.r6 : Slot := 22
abbrev Slot.r7 : Slot := 23

namespace Config

/-- The general register the index field selects, slot 16 + f; none when that is outside the file (10_state.md R11, 40_step_and_resolver.md R123). -/
def generalSlot (f : BitVec 4) : Option Slot :=
  if h : 16 + f.toNat < slotCount then some ⟨16 + f.toNat, h⟩ else none

/-! HDR: the header byte of a memory operand (30_encoding.md R76, R78, R79). -/

/-- Bits 3:0, the bank-or-index field. -/
def hdrField (h : Byte) : BitVec 4 := h.extractLsb' 0 4

/-- Bits 6:4, the addressing mode. -/
def hdrMode (h : Byte) : BitVec 3 := h.extractLsb' 4 3

/-- Bit 7, the source type: true is an immediate (R78). -/
def hdrImmediate (h : Byte) : Bool := h.getLsbD 7

/-- `header = st << 7 | mode << 4 | f` (R76). -/
def hdrByte (immediate : Bool) (mode : BitVec 3) (f : BitVec 4) : Byte :=
  BitVec.ofBool immediate ++ mode ++ f

/-- The sign of the pc- and sp-relative modes is bit 0 of `f`: 1 is minus (R79). -/
def minusSign (f : BitVec 4) : Bool := f.getLsbD 0

/-! MODE: the number of each addressing mode (30_encoding.md R77). -/

def modeNumber : Mode → BitVec 3
  | .absolute => 0
  | .pcRel => 1
  | .spRel => 2
  | .ptRel => 3
  | .itRel => 4
  | .indexed => 5

/-- Modes 6 and 7 are reserved (R77, R93). -/
def modeOfNumber (n : BitVec 3) : Option Mode :=
  match n.toNat with
  | 0 => some .absolute
  | 1 => some .pcRel
  | 2 => some .spRel
  | 3 => some .ptRel
  | 4 => some .itRel
  | 5 => some .indexed
  | _ => none

/-! IENT: the 24-bit interrupt-table entry (60_exceptions.md R206). -/

def entryOffset (e : BitVec 24) : Half := e.extractLsb' 0 16
def entryBank (e : BitVec 24) : Bank := e.extractLsb' 16 4
def entryClrMmu (e : BitVec 24) : Bool := e.getLsbD 20
def entryClrInt (e : BitVec 24) : Bool := e.getLsbD 21

/-- Bytes of an interrupt-table entry (R4, R205). -/
def entryBytes : Nat := 3

/-- KIND_EXCEPT: the kind used for faults (60_exceptions.md R204). -/
def kindExcept : Kind := 0

/-- FL_Z: the bit of FL that is the zero flag (10_state.md R16). -/
def flZ : Nat := 0

/-- The bit of a page-table entry for each permission: X 0, W 1, R 2 (20_memory.md R46). -/
def permBit : Access → Nat
  | .exec => 0
  | .write => 1
  | .read => 2

/-- EXC code of "no interrupt handler" (60_exceptions.md R201). -/
def excNoInth : SlotVal := 1

/-- EXC code of the page-access violation (60_exceptions.md R201). -/
def excPageAv : SlotVal := 2

/-- Reset entry point: offset 4096 of bank 0, "page 1 base" (R4, 20_memory.md R59). -/
def resetOffset : Half := 4096

/-! Mem: the platform map behind the port (20_memory.md R58), over the key bank * 65536 + offset. All three windows lie in bank 0,
where the key is the offset. -/

def ramEnd : Nat := 0x2000
def audioEnd : Nat := 0x3000
def timerEnd : Nat := 0x4000

/-- First offset of the audio window, which the forwarded offset is counted from. -/
def audioBase : Half := 0x2000

/-- First offset of the timer window. -/
def timerBase : Half := 0x3000

def region (key : Nat) : Region :=
  if key < ramEnd then .ram
  else if key < audioEnd then .audio
  else if key < timerEnd then .timer
  else .unmapped

/-- DESIGN CHOICE (log entry 2), unsafe: what a byte of RAM that nothing has written reads as. -/
def unlistedByte : Byte := 0

end Config

end Sys2Proof
end

