-- ==== Sys2Proof/Machine/State.lean ====
section
/-! DEFINITION. The state of the machine: the register file of 24 slots (10_state.md R10), the RAM behind the memory port (20_memory.md R58) and
the writes forwarded to the two device chips. There is no other state (10_state.md R35). -/

namespace Sys2Proof.Machine

/-- The two peripheral chips behind the memory port (20_memory.md R58). -/
inductive Chip where
  | audio
  | timer
deriving DecidableEq, Repr

/-- One write forwarded to a peripheral as `write(offset - page base, value)` (20_memory.md R58). -/
structure DeviceWrite where
  chip : Chip
  offset : Half
  value : Byte
deriving DecidableEq, Repr

/-- RAM: pairs of key (bank * 65536 + offset) and byte in one canonical form (`Memory.wf`). -/
abbrev Memory := List Host.Cell

/-- The state. `regs` is the register file, slot i at index i. `mem` is the RAM. `devices` is the MODEL's own record of the writes forwarded
to the peripherals, oldest first (DESIGN CHOICE, log entry 7): nothing in the core reads it. -/
structure State where
  regs : Vector SlotVal 24
  mem : Memory
  devices : List DeviceWrite
deriving DecidableEq, Repr

/-- No fault stops this machine (60_exceptions.md R200, R201; 20_memory.md R57): both exceptions are taken, and every address can be read and
written. So the type has no constructor (log entry 19): nobody raises one. -/
inductive Fault where
deriving DecidableEq, Repr

/-- The reasons a step has no meaning. -/
inductive Refusal where
  /-- Raised by an arm of exec whose instruction has no meaning yet; safe. No arm raises it. -/
  | notModelled (mnemonic : String)
  /-- Raised by the step on a register byte of 24..255 (10_state.md R12, U1); safe: the model stops where the spec says nothing. -/
  | slotOutOfFile
  /-- Raised by the step on a header with mode 6 or 7 (40_step_and_resolver.md R125, U2); safe. -/
  | reservedMode
  /-- Raised by the step, and by a load or store given an ill-formed operand, on the indexed mode with `f` >= 8 (R123, U4); safe. -/
  | indexOutOfFile
deriving DecidableEq, Repr

/-- The machine right after reset (10_state.md R36, 70_reset_and_hazards.md R240): PC 4096, and PCb, EXC, FL, MMUe, INTl 0 by rule. The other
slots, for which the spec gives no value (R242), are 0: DESIGN CHOICE (log entry 1), unsafe. No byte of RAM is listed. -/
def State.reset : State where
  regs := (Vector.replicate 24 0).set 0 4096
  mem := []
  devices := []

end Sys2Proof.Machine
end

