-- ==== Sys2Proof/Machine/Memory.lean ====
section
/-! DEFINITION. The RAM as a list of (key, byte) pairs in one canonical form: keys strictly rising, every key in RAM, and no entry equal to what
an unlisted byte reads as. -/

namespace Sys2Proof.Machine

/-- The byte listed at `key`, or what an unlisted byte reads as. -/
def Memory.read : Memory → Nat → Byte
  | [], _ => Config.unlistedByte
  | (k, v) :: rest, key => if key = k then v else Memory.read rest key

/-- Put `v` in front of the canonical list `rest`, unless it is what an unlisted byte reads as. -/
def Memory.cons (key : Nat) (v : Byte) (rest : Memory) : Memory :=
  if v = Config.unlistedByte then rest else (key, v) :: rest

/-- Write one byte, keeping the canonical form. -/
def Memory.write : Memory → Nat → Byte → Memory
  | [], key, v => Memory.cons key v []
  | (k, w) :: rest, key, v =>
    if key < k then Memory.cons key v ((k, w) :: rest)
    else if key = k then Memory.cons key v rest
    else (k, w) :: Memory.write rest key v

/-- Keys strictly rising from `low` on, each in RAM, no entry equal to what an unlisted byte reads as. -/
def Memory.wfFrom : Nat → Memory → Bool
  | _, [] => true
  | low, (k, v) :: rest =>
    decide (low ≤ k) && decide (Config.region k = .ram) && decide (v ≠ Config.unlistedByte) && Memory.wfFrom (k + 1) rest

/-- The canonical form. -/
def Memory.wf (m : Memory) : Bool := Memory.wfFrom 0 m

end Sys2Proof.Machine
end

