-- ==== Sys2Proof/Machine/Ops.lean ====
section
/-! DEFINITION. The named operations every instruction is written with: register access and its views, the register lock, the memory port,
the MMU's permission check and the protected paths, Reset, Trigger and the page-access violation. -/

namespace Sys2Proof.Machine

/-- What a meaning answers. -/
abbrev Outcome := Host.Outcome State Fault Refusal

/-! ### Views (10_state.md R13) -/

/-- The offset view, bits 15:0. -/
def off (v : SlotVal) : Half := v.extractLsb' 0 16

/-- The bank view, bits 3:0. -/
def bnk (v : SlotVal) : Bank := v.extractLsb' 0 4

/-- The flag view: any nonzero value counts as set (R24). -/
def flag (v : SlotVal) : Bool := v != 0

/-- A 16-bit result written zero-extended to the slot (43_arithmetic.md R140). -/
def ofHalf (v : Half) : SlotVal := v.setWidth 20

/-- A byte written zero-extended to the slot. -/
def ofByte (v : Byte) : SlotVal := v.setWidth 20

/-- A bank written zero-extended to the slot. -/
def ofBank (v : Bank) : SlotVal := v.setWidth 20

/-- A byte as a 16-bit operand, `zext_16` (30_encoding.md R73). -/
def zext16 (v : Byte) : Half := v.setWidth 16

/-! ### The register file (10_state.md R10) -/

/-- `x[i]` -/
def State.get (s : State) (i : Slot) : SlotVal := s.regs[i.val]

/-- `x[i] <- v`: the unconditional slot write (00_scope.md R7). -/
def State.set (s : State) (i : Slot) (v : SlotVal) : State := { s with regs := s.regs.set i.val v }

/-- The offset view of a slot. -/
def State.offOf (s : State) (i : Slot) : Half := off (s.get i)

/-- The bank view of a slot. -/
def State.bankOf (s : State) (i : Slot) : Bank := bnk (s.get i)

/-- The flag view of a slot. -/
def State.flagOf (s : State) (i : Slot) : Bool := flag (s.get i)

/-- The register lock (10_state.md R30), evaluated on the state at the moment of the destination write. -/
def State.locked (s : State) (i : Slot) : Bool :=
  i == .intl
    || (s.flagOf .mmue && (i == .mmub || i == .mmup || i == .mmue))
    || (s.flagOf .intl && (i == .intb || i == .intp || i == .intl))

/-- `WriteDest(i, v)`: the destination write of an instruction; a locked write is silently dropped (10_state.md R31). -/
def State.writeDest (s : State) (i : Slot) (v : SlotVal) : State :=
  if s.locked i then s else s.set i v

/-! ### Addresses and the memory port (20_memory.md R40, R57, R58) -/

/-- The key of an address in the RAM's list: bank * 65536 + offset. -/
def key (a : Addr) : Nat := a.bank.toNat * Config.bankBytes + a.offset.toNat

/-- `addr + n`: wraps within the bank (00_scope.md R7). -/
def addrPlus (a : Addr) (n : Half) : Addr := { a with offset := a.offset + n }

/-- `MemRead`: one raw byte. Device windows and unmapped places read 0 (R57, R58). -/
def State.memRead (s : State) (a : Addr) : Byte :=
  match Config.region (key a) with
  | .ram => Memory.read s.mem (key a)
  | .audio => 0
  | .timer => 0
  | .unmapped => 0

/-- The record of a write forwarded to a peripheral. -/
def State.forward (s : State) (w : DeviceWrite) : State := { s with devices := s.devices ++ [w] }

/-- `MemWrite`: one raw byte. A write to a device window is forwarded with the offset inside the window; one to an unmapped place changes
nothing (R57, R58). -/
def State.memWrite (s : State) (a : Addr) (v : Byte) : State :=
  match Config.region (key a) with
  | .ram => { s with mem := Memory.write s.mem (key a) v }
  | .audio => s.forward { chip := .audio, offset := a.offset - Config.audioBase, value := v }
  | .timer => s.forward { chip := .timer, offset := a.offset - Config.timerBase, value := v }
  | .unmapped => s

/-! ### The MMU (20_memory.md R46 to R53) -/

/-- Page index: bank * 16 + offset[15:12], 0..255 (R47). -/
def pageIndex (a : Addr) : Byte := a.bank ++ a.offset.extractLsb' 12 4

/-- Address of the page-table entry of the page `a` lies in (R47). -/
def State.pteAddr (s : State) (a : Addr) : Addr :=
  { bank := s.bankOf .mmub, offset := s.offOf .mmup + zext16 (pageIndex a) }

/-- The page-table entry of the page `a` lies in: a raw read (R48). -/
def State.pte (s : State) (a : Addr) : Byte := s.memRead (s.pteAddr a)

/-- `Perm` (R53): with MMUe clear everything is permitted and no entry is read. -/
def State.perm (s : State) (a : Addr) (need : Access) : Bool :=
  if s.flagOf .mmue then (s.pte a).getLsbD (Config.permBit need) else true

/-- `ReadProt` (R50): the byte, or the address whose check failed. -/
def State.readProt (s : State) (a : Addr) : Except Addr Byte :=
  if s.perm a .read then .ok (s.memRead a) else .error a

/-- `WriteProt` (R51): the state after the write, or the address whose check failed. -/
def State.writeProt (s : State) (a : Addr) (v : Byte) : Except Addr State :=
  if s.perm a .write then .ok (s.memWrite a v) else .error a

/-! ### Reset (70_reset_and_hazards.md R240) -/

/-- `Reset`: six slots are written; every other slot and memory keep what they hold. -/
def State.hardReset (s : State) : State :=
  ((((((s.set .pcb 0).set .pc (ofHalf Config.resetOffset)).set .exc 0).set .mmue 0).set .intl 0).set .fl 0)

/-- Power-on (R242): arbitrary slot values (the parameter PowerOn) and whatever was loaded in RAM, then one `Reset`. -/
def powerOn (regs : Vector SlotVal 24) (mem : Memory) : State :=
  State.hardReset { regs := regs, mem := mem, devices := [] }

/-! ### Trap entry (60_exceptions.md R202, R205 to R211) -/

/-- Address of byte `j` of the entry of `kind` (R205). -/
def State.entryAddr (s : State) (kind : Kind) (j : Half) : Addr :=
  { bank := s.bankOf .intb, offset := s.offOf .intp + BitVec.ofNat 16 Config.entryBytes * zext16 kind + j }

/-- `ReadEntry`: three raw reads, low, mid, high (R205). -/
def State.readEntry (s : State) (kind : Kind) : BitVec 24 :=
  s.memRead (s.entryAddr kind 2) ++ s.memRead (s.entryAddr kind 1) ++ s.memRead (s.entryAddr kind 0)

/-- The sentinel: target offset and bank both zero (R207). -/
def sentinel (e : BitVec 24) : Bool := Config.entryOffset e == 0 && Config.entryBank e == 0

/-- The fatal form: the machine is reset and EXC is NOINTH (R203, R210). -/
def State.fatal (s : State) : State := s.hardReset.set .exc Config.excNoInth

/-- Saving PC and PCb in the one-level shadow, whole slot values (R210, 10_state.md R27). -/
def State.saveReturn (s : State) : State := (s.set .rtib (s.get .pcb)).set .rtip (s.get .pc)

/-- The flag clears an entry asks for (R206, R210). -/
def State.entryClears (s : State) (e : BitVec 24) : State :=
  let s1 := if Config.entryClrMmu e then s.set .mmue 0 else s
  if Config.entryClrInt e then s1.set .intl 0 else s1

/-- The jump to an entry's target (R210). -/
def State.entryJump (s : State) (e : BitVec 24) : State :=
  (s.set .pcb (ofBank (Config.entryBank e))).set .pc (ofHalf (Config.entryOffset e))

/-- One round of `Trigger` in the order of R210: gate test, save, entry read, flag clears, sentinel test, jump. `fallback` is what happens
after EXC has been set to NOINTH because the entry is the sentinel. -/
def State.triggerRound (fallback : State → State) (kind : Kind) (s : State) : State :=
  if s.flagOf .intl then
    let s1 := s.saveReturn
    let e := s1.readEntry kind
    let s2 := s1.entryClears e
    if sentinel e then fallback (s2.set .exc Config.excNoInth) else s2.entryJump e
  else s.fatal

/-- `Trigger(kind)` with the recursion guard (R210, R211): a sentinel entry falls back to the EXCEPT kind, and a sentinel EXCEPT entry to
`Reset` with EXC = NOINTH. -/
def State.trigger (kind : Kind) (s : State) : State :=
  State.triggerRound
    (if kind = Config.kindExcept then State.fatal else State.triggerRound State.fatal Config.kindExcept)
    kind s

/-- What a page-access violation at `a` records: EXC, R0 = offset, R1 = bank, all hardware writes (R202). -/
def State.faultInfo (s : State) (a : Addr) : State :=
  ((s.set .exc Config.excPageAv).set .r0 (ofHalf a.offset)).set .r1 (ofBank a.bank)

/-- TAKING AN EXCEPTION: the page-access violation at address `a` (R202). The fault is recorded, then the EXCEPT kind is triggered. The caller
abandons the instruction. There is no return instruction with behaviour (R220): software copies RTIp/RTIb back. -/
def State.pageAV (s : State) (a : Addr) : State := State.trigger Config.kindExcept (s.faultInfo a)

/-! ### The program counter (10_state.md R14, R15) -/

/-- The address of the byte `n` places after the one PC points at. -/
def State.codeAddr (s : State) (n : Half) : Addr := { bank := s.bankOf .pcb, offset := s.offOf .pc + n }

/-- PC moved on by `n` bytes, modulo 65536; PCb is not changed (R15). -/
def State.advance (s : State) (n : Half) : State := s.set .pc (ofHalf (s.offOf .pc + n))

/-- `Fetch` (20_memory.md R52): the byte at PC and the state with PC moved on, or the address whose check failed (PC not moved). -/
def State.fetch (s : State) : Except Addr (Byte × State) :=
  let a := s.codeAddr 0
  if s.perm a .exec then .ok (s.memRead a, s.advance 1) else .error a

end Sys2Proof.Machine
end

