-- ==== Sys2Proof/Machine/Operands.lean ====
section
/-! DEFINITION. The operand forms: the addressing-mode resolver (40_step_and_resolver.md R116 to R126) and the shared shapes of the 16-bit
arithmetic and logic instructions (R115, 43_arithmetic.md R140, 44_bitwise_shift.md R149, R160). -/

namespace Sys2Proof.Machine

/-! ### The resolver -/

/-- The 16-bit source value of a memory operand: the immediate, or the low 16 bits of the named slot (R117). -/
def State.sourceValue (s : State) : Source → Half
  | .reg r => s.offOf r
  | .imm v => v

/-- `base ± src`, modulo 65536, with the sign taken from `f` (R116, 30_encoding.md R79). -/
def plusMinus (f : BitVec 4) (base src : Half) : Half := if Config.minusSign f then base - src else base + src

/-- `FetchMem`'s address (R116), in the state as it stands when the last byte of the memory operand has been fetched. A field that selects no
general register has no meaning (R123). -/
def State.resolve (s : State) (m : MemOperand) : Except Refusal Addr :=
  let src := s.sourceValue m.src
  match m.mode with
  | .absolute => .ok { bank := m.f, offset := src }
  | .pcRel => .ok { bank := s.bankOf .pcb, offset := plusMinus m.f (s.offOf .pc) src }
  | .spRel => .ok { bank := 0, offset := plusMinus m.f (s.offOf .sp) src }
  | .ptRel => .ok { bank := s.bankOf .mmub, offset := s.offOf .mmup + src }
  | .itRel => .ok { bank := s.bankOf .intb, offset := s.offOf .intp + src }
  | .indexed =>
    match Config.generalSlot m.f with
    | some r => .ok { bank := 0, offset := src + s.offOf r }
    | none => .error .indexOutOfFile

/-- The state in which a store's memory operand was resolved: its `rs` byte is the instruction's last one and is fetched after the operand, so
PC pointed at that byte (R119; log entry 6). -/
def State.beforeRsByte (s : State) : State := s.advance (-1)

/-! ### 16-bit arithmetic and logic -/

/-- Left shift: the amount is not reduced modulo 16; 16 or more gives 0 (R160). -/
def shiftLeft (a : Half) (n : Half) : Half := if 16 ≤ n.toNat then 0 else a <<< n.toNat

/-- Logical right shift, likewise (R160). -/
def shiftRight (a : Half) (n : Half) : Half := if 16 ≤ n.toNat then 0 else a >>> n.toNat

/-- `rd <- f(rd)` over the offset view. -/
def State.alu1 (s : State) (f : Half → Half) (rd : Slot) : State := s.writeDest rd (ofHalf (f (s.offOf rd)))

/-- `rd <- f(rd, v)` over the offset view, `v` an immediate. -/
def State.aluImm (s : State) (f : Half → Half → Half) (rd : Slot) (v : Half) : State :=
  s.writeDest rd (ofHalf (f (s.offOf rd) v))

/-- `rd <- f(rd, rs)` over the offset views; both are read before the write (R111). -/
def State.alu2 (s : State) (f : Half → Half → Half) (rd rs : Slot) : State :=
  s.writeDest rd (ofHalf (f (s.offOf rd) (s.offOf rs)))

/-! ### Loads and stores -/

/-- Two protected reads, low byte then high byte, each checked by itself (20_memory.md R43, 42_memory_access.md R136). -/
def State.readProt16 (s : State) (a : Addr) : Except Addr Half :=
  match s.readProt a with
  | .error bad => .error bad
  | .ok lo =>
    match s.readProt (addrPlus a 1) with
    | .error bad => .error bad
    | .ok hi => .ok (hi ++ lo)

/-- The shape of the two loads: resolve, read (or take the violation, nothing written), write the destination. -/
def State.load (s : State) (m : MemOperand) (rd : Slot) (read : State → Addr → Except Addr SlotVal) : Outcome :=
  match s.resolve m with
  | .error r => .refused r
  | .ok a =>
    match read s a with
    | .error bad => .next (s.pageAV bad)
    | .ok v => .next (s.writeDest rd v)

/-- Store one byte under protection, or take the violation. -/
def State.store8 (s : State) (a : Addr) (v : Byte) : State :=
  match s.writeProt a v with
  | .error bad => s.pageAV bad
  | .ok s1 => s1

/-- Store low byte then high byte; a violation on the high byte leaves the low byte written (20_memory.md R44, 42_memory_access.md R138). -/
def State.store16 (s : State) (a : Addr) (v : Half) : State :=
  match s.writeProt a (v.extractLsb' 0 8) with
  | .error bad => s.pageAV bad
  | .ok s1 => s1.store8 (addrPlus a 1) (v.extractLsb' 8 8)

/-- The shape of the two stores: the memory operand was resolved before the `rs` byte was fetched; the register is read after it (R111). -/
def State.store (s : State) (m : MemOperand) (write : State → Addr → State) : Outcome :=
  match s.beforeRsByte.resolve m with
  | .error r => .refused r
  | .ok a => .next (write s a)

end Sys2Proof.Machine
end

