-- ==== Sys2Proof/Machine/Arithmetic.lean ====
section
/-! DEFINITION. Arithmetic: addi.b, addi.w, add, subi.b, subi.w, sub (43_arithmetic.md): 16-bit wraparound, no flag update (R140). -/

namespace Sys2Proof.Machine

/-- `addi.b rd, u8` (R141). -/
def execAddiB (rd : Slot) (k : Byte) (s : State) : Outcome := .next (s.aluImm (· + ·) rd (zext16 k))

/-- `addi.w rd, u16` (R142). -/
def execAddiW (rd : Slot) (k : Half) (s : State) : Outcome := .next (s.aluImm (· + ·) rd k)

/-- `add rd, rs` (R143). -/
def execAdd (rd rs : Slot) (s : State) : Outcome := .next (s.alu2 (· + ·) rd rs)

/-- `subi.b rd, u8` (R144). -/
def execSubiB (rd : Slot) (k : Byte) (s : State) : Outcome := .next (s.aluImm (· - ·) rd (zext16 k))

/-- `subi.w rd, u16` (R145). -/
def execSubiW (rd : Slot) (k : Half) (s : State) : Outcome := .next (s.aluImm (· - ·) rd k)

/-- `sub rd, rs`: destination minus source (R146). -/
def execSub (rd rs : Slot) (s : State) : Outcome := .next (s.alu2 (· - ·) rd rs)

end Sys2Proof.Machine
end

