-- ==== Sys2Proof/Machine/Bitwise.lean ====
section
/-! DEFINITION. Bitwise and shift instructions: not, and, andi.b, andi.w, orr, xor, shl, shli.b, shr, shri.b (44_bitwise_shift.md). -/

namespace Sys2Proof.Machine

/-- `not rd`: the complement over 16 bits (R150). -/
def execNot (rd : Slot) (s : State) : Outcome := .next (s.alu1 (fun a => a ^^^ 0xFFFF) rd)

/-- `and rd, rs` (R151). -/
def execAnd (rd rs : Slot) (s : State) : Outcome := .next (s.alu2 (· &&& ·) rd rs)

/-- `andi.b rd, u8`: the immediate is zero-extended (R152). -/
def execAndiB (rd : Slot) (k : Byte) (s : State) : Outcome := .next (s.aluImm (· &&& ·) rd (zext16 k))

/-- `andi.w rd, u16` (R153). -/
def execAndiW (rd : Slot) (k : Half) (s : State) : Outcome := .next (s.aluImm (· &&& ·) rd k)

/-- `orr rd, rs` (R154). -/
def execOrr (rd rs : Slot) (s : State) : Outcome := .next (s.alu2 (· ||| ·) rd rs)

/-- `xor rd, rs` (R155). -/
def execXor (rd rs : Slot) (s : State) : Outcome := .next (s.alu2 (· ^^^ ·) rd rs)

/-- `shl rd, rs` (R156). -/
def execShl (rd rs : Slot) (s : State) : Outcome := .next (s.alu2 shiftLeft rd rs)

/-- `shli.b rd, u8` (R157). -/
def execShliB (rd : Slot) (k : Byte) (s : State) : Outcome := .next (s.aluImm shiftLeft rd (zext16 k))

/-- `shr rd, rs`: logical (R158). -/
def execShr (rd rs : Slot) (s : State) : Outcome := .next (s.alu2 shiftRight rd rs)

/-- `shri.b rd, u8`: logical (R159). -/
def execShriB (rd : Slot) (k : Byte) (s : State) : Outcome := .next (s.aluImm shiftRight rd (zext16 k))

end Sys2Proof.Machine
end

