-- ==== Sys2Proof/Machine/DataMovement.lean ====
section
/-! DEFINITION. Data movement: mov, imm.b, imm.w (41_data_movement.md). -/

namespace Sys2Proof.Machine

/-- `mov rd, rs`: all 20 bits of the slot are copied (R130). -/
def execMov (rd rs : Slot) (s : State) : Outcome := .next (s.writeDest rd (s.get rs))

/-- `imm.b rd, u8`: the whole slot is replaced (R131). -/
def execImmB (rd : Slot) (k : Byte) (s : State) : Outcome := .next (s.writeDest rd (ofByte k))

/-- `imm.w rd, u16` (R132). -/
def execImmW (rd : Slot) (k : Half) (s : State) : Outcome := .next (s.writeDest rd (ofHalf k))

end Sys2Proof.Machine
end

