-- ==== Sys2Proof/Machine/MemoryAccess.lean ====
section
/-! DEFINITION. Memory access: lod.b, lod.w, sto.b, sto.w (42_memory_access.md). -/

namespace Sys2Proof.Machine

/-- `lod.b rd, addr`: one protected byte, zero-extended (R135). -/
def execLodB (rd : Slot) (m : MemOperand) (s : State) : Outcome :=
  s.load m rd fun s a => (s.readProt a).map ofByte

/-- `lod.w rd, addr`: low byte then high byte; the destination is written only after both reads (R136). -/
def execLodW (rd : Slot) (m : MemOperand) (s : State) : Outcome :=
  s.load m rd fun s a => (s.readProt16 a).map ofHalf

/-- `sto.b addr, rs`: bits 7:0 of the register (R137). -/
def execStoB (m : MemOperand) (rs : Slot) (s : State) : Outcome :=
  s.store m fun s a => s.store8 a ((s.get rs).extractLsb' 0 8)

/-- `sto.w addr, rs`: bits 15:0 of the register, low byte then high byte (R138). -/
def execStoW (m : MemOperand) (rs : Slot) (s : State) : Outcome :=
  s.store m fun s a => s.store16 a (s.offOf rs)

end Sys2Proof.Machine
end

