-- ==== Sys2Proof/Machine/Flags.lean ====
section
/-! DEFINITION. The flag computations. The only flag is Z, bit FL_Z of FL (10_state.md R16); only sez, clz and inz compute it (R17), and they
leave every other bit of FL as it is (45_register_utility_flags.md R168 to R170). -/

namespace Sys2Proof.Machine

/-- The mask of the zero flag in FL. -/
def zMask : SlotVal := BitVec.ofNat 20 (2 ^ Config.flZ)

/-- The zero flag (10_state.md R16). -/
def State.zFlag (s : State) : Bool := (s.get .fl).getLsbD Config.flZ

/-- Z <- 1 (R168). -/
def setZ (fl : SlotVal) : SlotVal := fl ||| zMask

/-- Z <- 0 (R169). -/
def clearZ (fl : SlotVal) : SlotVal := fl &&& ~~~zMask

/-- Z <- not Z (R170). -/
def toggleZ (fl : SlotVal) : SlotVal := fl ^^^ zMask

/-- A flag instruction writes FL directly: it has no destination operand, so the lock has nothing to check (R171). -/
def State.updateFl (s : State) (f : SlotVal → SlotVal) : State := s.set .fl (f (s.get .fl))

end Sys2Proof.Machine
end

