-- ==== Sys2Proof/Machine/RegisterUtility.lean ====
section
/-! DEFINITION. Register utility and flag instructions: clr, sl4, sr4, sez, clz, inz (45_register_utility_flags.md). -/

namespace Sys2Proof.Machine

/-- `clr rd`: all 20 bits (R165). -/
def execClr (rd : Slot) (s : State) : Outcome := .next (s.writeDest rd 0)

/-- `sl4 rd`: truncated to 16 bits (R166). -/
def execSl4 (rd : Slot) (s : State) : Outcome := .next (s.alu1 (fun a => a <<< 4) rd)

/-- `sr4 rd`: logical, over the 16-bit view (R167). -/
def execSr4 (rd : Slot) (s : State) : Outcome := .next (s.alu1 (fun a => a >>> 4) rd)

/-- `sez` (R168). -/
def execSez (s : State) : Outcome := .next (s.updateFl setZ)

/-- `clz` (R169). -/
def execClz (s : State) : Outcome := .next (s.updateFl clearZ)

/-- `inz` (R170). -/
def execInz (s : State) : Outcome := .next (s.updateFl toggleZ)

end Sys2Proof.Machine
end

