-- ==== Sys2Proof/Machine/Reserved.lean ====
section
/-! DEFINITION. The sixteen reserved opcodes and the undefined ones (46_reserved_and_control_transfer.md R175 to R191, R198): the opcode byte has
been fetched, so PC has moved on by 1, and nothing else happens; operand bytes an author wrote after it are the next instructions
(log entry 3). -/

namespace Sys2Proof.Machine

/-- "fetches the opcode byte only and performs no further state change" (R198). -/
def reservedNoOp (s : State) : Outcome := .next s

/-- `rsv.sext` (R175). -/
def execRsvSext (s : State) : Outcome := reservedNoOp s

/-- `rsv.btst` (R176). -/
def execRsvBtst (s : State) : Outcome := reservedNoOp s

/-- `rsv.bset` (R177). -/
def execRsvBset (s : State) : Outcome := reservedNoOp s

/-- `rsv.cmpeq` (R178). -/
def execRsvCmpeq (s : State) : Outcome := reservedNoOp s

/-- `rsv.cmplt` (R179). -/
def execRsvCmplt (s : State) : Outcome := reservedNoOp s

/-- `rsv.cmpgt` (R180). -/
def execRsvCmpgt (s : State) : Outcome := reservedNoOp s

/-- `rsv.push` (R181). -/
def execRsvPush (s : State) : Outcome := reservedNoOp s

/-- `rsv.pull` (R182). -/
def execRsvPull (s : State) : Outcome := reservedNoOp s

/-- `rsv.jmp` (R183). -/
def execRsvJmp (s : State) : Outcome := reservedNoOp s

/-- `rsv.jz` (R184). -/
def execRsvJz (s : State) : Outcome := reservedNoOp s

/-- `rsv.jnz` (R185). -/
def execRsvJnz (s : State) : Outcome := reservedNoOp s

/-- `rsv.call` (R186). -/
def execRsvCall (s : State) : Outcome := reservedNoOp s

/-- `rsv.ret` (R187). -/
def execRsvRet (s : State) : Outcome := reservedNoOp s

/-- `rsv.swi` (R188). -/
def execRsvSwi (s : State) : Outcome := reservedNoOp s

/-- `rsv.rti` (R189). -/
def execRsvRti (s : State) : Outcome := reservedNoOp s

/-- `rsv.jmpf` (R190). -/
def execRsvJmpf (s : State) : Outcome := reservedNoOp s

/-- An opcode byte that is not in the table, 0x2D..0xFF (R92, R191). It has no row of the opcode table and so no constructor of Instr. -/
def execUndefinedOpcode (s : State) : Outcome := reservedNoOp s

end Sys2Proof.Machine
end

