-- ==== Sys2Proof/Machine/Dispatch.lean ====
section
/-! DEFINITION. One arm per instruction. The state given to exec is the one with every byte of the instruction fetched: PC is the address of the
next instruction (40_step_and_resolver.md R111). -/

namespace Sys2Proof.Machine

def exec (i : Instr) (s : State) : Host.Outcome State Fault Refusal :=
  match i with
  | .mov rd rs => Sys2Proof.Machine.execMov rd rs s
  | .immB rd k => Sys2Proof.Machine.execImmB rd k s
  | .immW rd k => Sys2Proof.Machine.execImmW rd k s
  | .lodB rd m => Sys2Proof.Machine.execLodB rd m s
  | .lodW rd m => Sys2Proof.Machine.execLodW rd m s
  | .stoB m rs => Sys2Proof.Machine.execStoB m rs s
  | .stoW m rs => Sys2Proof.Machine.execStoW m rs s
  | .addiB rd k => Sys2Proof.Machine.execAddiB rd k s
  | .addiW rd k => Sys2Proof.Machine.execAddiW rd k s
  | .add rd rs => Sys2Proof.Machine.execAdd rd rs s
  | .subiB rd k => Sys2Proof.Machine.execSubiB rd k s
  | .subiW rd k => Sys2Proof.Machine.execSubiW rd k s
  | .sub rd rs => Sys2Proof.Machine.execSub rd rs s
  | .not rd => Sys2Proof.Machine.execNot rd s
  | .and rd rs => Sys2Proof.Machine.execAnd rd rs s
  | .andiB rd k => Sys2Proof.Machine.execAndiB rd k s
  | .andiW rd k => Sys2Proof.Machine.execAndiW rd k s
  | .orr rd rs => Sys2Proof.Machine.execOrr rd rs s
  | .xor rd rs => Sys2Proof.Machine.execXor rd rs s
  | .shl rd rs => Sys2Proof.Machine.execShl rd rs s
  | .shliB rd k => Sys2Proof.Machine.execShliB rd k s
  | .shr rd rs => Sys2Proof.Machine.execShr rd rs s
  | .shriB rd k => Sys2Proof.Machine.execShriB rd k s
  | .clr rd => Sys2Proof.Machine.execClr rd s
  | .sl4 rd => Sys2Proof.Machine.execSl4 rd s
  | .sr4 rd => Sys2Proof.Machine.execSr4 rd s
  | .sez => Sys2Proof.Machine.execSez s
  | .clz => Sys2Proof.Machine.execClz s
  | .inz => Sys2Proof.Machine.execInz s
  | .rsvSext => Sys2Proof.Machine.execRsvSext s
  | .rsvBtst => Sys2Proof.Machine.execRsvBtst s
  | .rsvBset => Sys2Proof.Machine.execRsvBset s
  | .rsvCmpeq => Sys2Proof.Machine.execRsvCmpeq s
  | .rsvCmplt => Sys2Proof.Machine.execRsvCmplt s
  | .rsvCmpgt => Sys2Proof.Machine.execRsvCmpgt s
  | .rsvPush => Sys2Proof.Machine.execRsvPush s
  | .rsvPull => Sys2Proof.Machine.execRsvPull s
  | .rsvJmp => Sys2Proof.Machine.execRsvJmp s
  | .rsvJz => Sys2Proof.Machine.execRsvJz s
  | .rsvJnz => Sys2Proof.Machine.execRsvJnz s
  | .rsvCall => Sys2Proof.Machine.execRsvCall s
  | .rsvRet => Sys2Proof.Machine.execRsvRet s
  | .rsvSwi => Sys2Proof.Machine.execRsvSwi s
  | .rsvRti => Sys2Proof.Machine.execRsvRti s
  | .rsvJmpf => Sys2Proof.Machine.execRsvJmpf s

end Sys2Proof.Machine
end

