-- ==== Sys2Proof/WellFormed.lean ====
section
/-! DEFINITION. Which instruction terms stand for an encoding the spec gives a meaning (30_encoding.md R93).
Slots, modes and widths are bounded by their types; what is left to check is the index field of the indexed mode. -/

namespace Sys2Proof

/-- In the indexed mode `f` selects R0..R7, so `f` is 0..7; `f` >= 8 "would select slot 24..31" and has no meaning (R93, 40_step_and_resolver.md R123). -/
def MemOperand.wellFormed (m : MemOperand) : Bool :=
  match m.mode with
  | .indexed => decide (m.f.toNat < Config.generalCount)
  | .absolute => true
  | .pcRel => true
  | .spRel => true
  | .ptRel => true
  | .itRel => true

/-- An instruction is well formed when its memory operand, if it has one, is. -/
def Instr.wellFormed : Instr → Bool
  | .lodB _ m => m.wellFormed
  | .lodW _ m => m.wellFormed
  | .stoB m _ => m.wellFormed
  | .stoW m _ => m.wellFormed
  | .mov _ _ | .immB _ _ | .immW _ _ => true
  | .addiB _ _ | .addiW _ _ | .add _ _ | .subiB _ _ | .subiW _ _ | .sub _ _ => true
  | .not _ | .and _ _ | .andiB _ _ | .andiW _ _ | .orr _ _ | .xor _ _ => true
  | .shl _ _ | .shliB _ _ | .shr _ _ | .shriB _ _ => true
  | .clr _ | .sl4 _ | .sr4 _ => true
  | .sez | .clz | .inz => true
  | .rsvSext | .rsvBtst | .rsvBset | .rsvCmpeq | .rsvCmplt | .rsvCmpgt | .rsvPush | .rsvPull => true
  | .rsvJmp | .rsvJz | .rsvJnz | .rsvCall | .rsvRet | .rsvSwi | .rsvRti | .rsvJmpf => true

end Sys2Proof
end

