-- ==== Sys2Proof/Decode.lean ====
section
/-! DEFINITION. The decoder and the encoder (30_encoding.md R70 to R93).
The decoder asks for one byte at a time, as the hardware does (R80), so the same decoder reads a list of bytes (`decode`) and, in
Machine/Fetch.lean, the memory port through `Fetch`. It is total, and rejects by name the encodings the spec gives no meaning (R93). -/

namespace Sys2Proof

/-- The encodings the spec gives no meaning (30_encoding.md R93; 93_implementation_defined.md U1, U2, U4). -/
inductive Reject where
  /-- a register byte of 24..255 (U1) -/
  | slotOutOfFile
  /-- a header with mode 6 or 7 (U2) -/
  | reservedMode
  /-- a header with mode 5 and `f` >= 8 (U4) -/
  | indexOutOfFile
deriving DecidableEq, Repr

/-- What a byte string decodes to. -/
inductive Decoded where
  /-- an instruction of the table -/
  | instr (i : Instr)
  /-- an opcode byte that is not in the table (R92): the opcode byte is the whole of it -/
  | undefinedOpcode (op : Byte)
  /-- an encoding without a meaning -/
  | reject (r : Reject)
deriving DecidableEq, Repr

/-- A decoder: it has its answer, or asks for the next byte. -/
inductive Decoder where
  | done (d : Decoded)
  | next (k : Byte → Decoder)

/-- The operand shapes of R71, each with the constructor it fills. -/
inductive Shape where
  | N (i : Instr)
  | R (mk : Slot → Instr)
  | RR (mk : Slot → Slot → Instr)
  | RI8 (mk : Slot → Byte → Instr)
  | RI16 (mk : Slot → Half → Instr)
  | RM (mk : Slot → MemOperand → Instr)
  | MR (mk : MemOperand → Slot → Instr)

namespace Decode

/-- A register operand: one byte, the slot identifier (R72). -/
def slotOfByte (b : Byte) : Option Slot :=
  if h : b.toNat < Config.slotCount then some ⟨b.toNat, h⟩ else none

/-- `FetchReg` (40_step_and_resolver.md R114). -/
def slot (k : Slot → Decoder) : Decoder :=
  .next fun b =>
    match slotOfByte b with
    | some r => k r
    | none => .done (.reject .slotOutOfFile)

/-- `Fetch8` (R73, R112). -/
def imm8 (k : Byte → Decoder) : Decoder := .next k

/-- `Fetch16`, low byte first (R74, R113). -/
def imm16 (k : Half → Decoder) : Decoder := .next fun lo => .next fun hi => k (hi ++ lo)

/-- The inline source of a memory operand (R75, R78). -/
def source (immediate : Bool) (k : Source → Decoder) : Decoder :=
  if immediate then imm16 fun v => k (.imm v) else slot fun r => k (.reg r)

/-- A memory operand: header, then inline source; the mode is looked at when the source has been read (R75, R116). -/
def mem (k : MemOperand → Decoder) : Decoder :=
  .next fun h =>
    source (Config.hdrImmediate h) fun src =>
      match Config.modeOfNumber (Config.hdrMode h) with
      | none => .done (.reject .reservedMode)
      | some mode =>
        let m : MemOperand := { mode := mode, f := Config.hdrField h, src := src }
        if m.wellFormed then k m else .done (.reject .indexOutOfFile)

/-- The instruction `i`, complete. -/
def got (i : Instr) : Decoder := .done (.instr i)

/-- The operand bytes of a shape, in the order of the operands in the assembler text (R71). -/
def operands : Shape → Decoder
  | .N i => got i
  | .R mk => slot fun rd => got (mk rd)
  | .RR mk => slot fun rd => slot fun rs => got (mk rd rs)
  | .RI8 mk => slot fun rd => imm8 fun v => got (mk rd v)
  | .RI16 mk => slot fun rd => imm16 fun v => got (mk rd v)
  | .RM mk => slot fun rd => mem fun m => got (mk rd m)
  | .MR mk => mem fun m => slot fun rs => got (mk m rs)

/-- OPC: the opcode map (R90, R91); an opcode byte that is not in it has no shape (R92). -/
def shapeOf (op : Byte) : Option Shape :=
  match op.toNat with
  | 0x00 => some (.RR .mov)
  | 0x01 => some (.RI8 .immB)
  | 0x02 => some (.RI16 .immW)
  | 0x03 => some (.RM .lodB)
  | 0x04 => some (.RM .lodW)
  | 0x05 => some (.MR .stoB)
  | 0x06 => some (.MR .stoW)
  | 0x07 => some (.RI8 .addiB)
  | 0x08 => some (.RI16 .addiW)
  | 0x09 => some (.RR .add)
  | 0x0A => some (.RI8 .subiB)
  | 0x0B => some (.RI16 .subiW)
  | 0x0C => some (.RR .sub)
  | 0x0D => some (.R .not)
  | 0x0E => some (.RR .and)
  | 0x0F => some (.RI8 .andiB)
  | 0x10 => some (.RI16 .andiW)
  | 0x11 => some (.RR .orr)
  | 0x12 => some (.RR .xor)
  | 0x13 => some (.RR .shl)
  | 0x14 => some (.RI8 .shliB)
  | 0x15 => some (.RR .shr)
  | 0x16 => some (.RI8 .shriB)
  | 0x17 => some (.R .clr)
  | 0x18 => some (.R .sl4)
  | 0x19 => some (.R .sr4)
  | 0x1A => some (.N .sez)
  | 0x1B => some (.N .clz)
  | 0x1C => some (.N .inz)
  | 0x1D => some (.N .rsvSext)
  | 0x1E => some (.N .rsvBtst)
  | 0x1F => some (.N .rsvBset)
  | 0x20 => some (.N .rsvCmpeq)
  | 0x21 => some (.N .rsvCmplt)
  | 0x22 => some (.N .rsvCmpgt)
  | 0x23 => some (.N .rsvPush)
  | 0x24 => some (.N .rsvPull)
  | 0x25 => some (.N .rsvJmp)
  | 0x26 => some (.N .rsvJz)
  | 0x27 => some (.N .rsvJnz)
  | 0x28 => some (.N .rsvCall)
  | 0x29 => some (.N .rsvRet)
  | 0x2A => some (.N .rsvSwi)
  | 0x2B => some (.N .rsvRti)
  | 0x2C => some (.N .rsvJmpf)
  | _ => none

end Decode

/-- The decoder of one instruction (R70, R80): the opcode byte, then the operand bytes its shape asks for. -/
def decoder : Decoder :=
  .next fun op =>
    match Decode.shapeOf op with
    | some shape => Decode.operands shape
    | none => .done (.undefinedOpcode op)

/-- Feed a decoder from a list of bytes: its answer and the bytes left over, or nothing when the bytes run out. -/
def Decoder.feed : Decoder → List Byte → Option (Decoded × List Byte)
  | .done d, bs => some (d, bs)
  | .next _, [] => none
  | .next k, b :: bs => (k b).feed bs

/-- Decode the instruction at the head of a list of bytes. -/
def decode (bytes : List Byte) : Option (Decoded × List Byte) := decoder.feed bytes

/-! The encoder, from the same tables of the spec. -/

namespace Encode

/-- A register byte (R72). -/
def slot (r : Slot) : Byte := BitVec.ofNat 8 r.val

/-- A 16-bit immediate, low byte first (R74). -/
def imm16 (v : Half) : List Byte := [v.extractLsb' 0 8, v.extractLsb' 8 8]

/-- A memory operand: header, then inline source (R75, R101). -/
def mem (m : MemOperand) : List Byte :=
  match m.src with
  | .reg r => [Config.hdrByte false (Config.modeNumber m.mode) m.f, slot r]
  | .imm v => Config.hdrByte true (Config.modeNumber m.mode) m.f :: imm16 v

/-- The opcode byte of each instruction (R90, R91). -/
def opcode : Instr → Byte
  | .mov _ _ => 0x00
  | .immB _ _ => 0x01
  | .immW _ _ => 0x02
  | .lodB _ _ => 0x03
  | .lodW _ _ => 0x04
  | .stoB _ _ => 0x05
  | .stoW _ _ => 0x06
  | .addiB _ _ => 0x07
  | .addiW _ _ => 0x08
  | .add _ _ => 0x09
  | .subiB _ _ => 0x0A
  | .subiW _ _ => 0x0B
  | .sub _ _ => 0x0C
  | .not _ => 0x0D
  | .and _ _ => 0x0E
  | .andiB _ _ => 0x0F
  | .andiW _ _ => 0x10
  | .orr _ _ => 0x11
  | .xor _ _ => 0x12
  | .shl _ _ => 0x13
  | .shliB _ _ => 0x14
  | .shr _ _ => 0x15
  | .shriB _ _ => 0x16
  | .clr _ => 0x17
  | .sl4 _ => 0x18
  | .sr4 _ => 0x19
  | .sez => 0x1A
  | .clz => 0x1B
  | .inz => 0x1C
  | .rsvSext => 0x1D
  | .rsvBtst => 0x1E
  | .rsvBset => 0x1F
  | .rsvCmpeq => 0x20
  | .rsvCmplt => 0x21
  | .rsvCmpgt => 0x22
  | .rsvPush => 0x23
  | .rsvPull => 0x24
  | .rsvJmp => 0x25
  | .rsvJz => 0x26
  | .rsvJnz => 0x27
  | .rsvCall => 0x28
  | .rsvRet => 0x29
  | .rsvSwi => 0x2A
  | .rsvRti => 0x2B
  | .rsvJmpf => 0x2C

/-- The operand bytes of each instruction (R71). -/
def operands : Instr → List Byte
  | .mov rd rs | .add rd rs | .sub rd rs | .and rd rs | .orr rd rs | .xor rd rs | .shl rd rs | .shr rd rs => [slot rd, slot rs]
  | .immB rd k | .addiB rd k | .subiB rd k | .andiB rd k | .shliB rd k | .shriB rd k => [slot rd, k]
  | .immW rd k | .addiW rd k | .subiW rd k | .andiW rd k => slot rd :: imm16 k
  | .lodB rd m | .lodW rd m => slot rd :: mem m
  | .stoB m rs | .stoW m rs => mem m ++ [slot rs]
  | .not rd | .clr rd | .sl4 rd | .sr4 rd => [slot rd]
  | .sez | .clz | .inz => []
  | .rsvSext | .rsvBtst | .rsvBset | .rsvCmpeq | .rsvCmplt | .rsvCmpgt | .rsvPush | .rsvPull => []
  | .rsvJmp | .rsvJz | .rsvJnz | .rsvCall | .rsvRet | .rsvSwi | .rsvRti | .rsvJmpf => []

end Encode

/-- The bytes of an instruction, lowest address first (R70, R71). -/
def encode (i : Instr) : List Byte := Encode.opcode i :: Encode.operands i

/-- The longest instruction has 5 bytes (R71). -/
def maxInstrBytes : Nat := 5

/-- The bytes of an instruction given as a number, bit 0 the least significant bit of the first byte; every bit above `nbits` is 0. -/
def tableBytes (nbits w : Nat) : List Byte :=
  (List.range maxInstrBytes).map fun j => BitVec.ofNat 8 ((w % 2 ^ nbits) / 2 ^ (8 * j))

/-- The instruction the decoder reads from the word `w` of spec/opcode_table.json. -/
def decodeTableWord (nbits w : Nat) : Option Instr :=
  match decode (tableBytes nbits w) with
  | some (.instr i, _) => some i
  | _ => none

end Sys2Proof
end

