-- ==== Sys2Proof/Machine/Fetch.lean ====
section
/-! DEFINITION. Decoding on the fly (30_encoding.md R80): the decoder of Decode.lean fed through `Fetch`, each byte checked and each moving PC on. -/

namespace Sys2Proof.Machine

/-- What fetching an instruction ends in. -/
inductive Fetched where
  /-- the decoder has its answer; the state has PC after the bytes it asked for -/
  | got (d : Decoded) (s : State)
  /-- the fetch of a byte at `bad` was denied; the state is the one at that moment -/
  | denied (bad : Addr) (s : State)
deriving DecidableEq, Repr

/-- Feed a decoder from the memory port. -/
def Decoder.fetchFrom : Decoder → State → Fetched
  | .done d, s => .got d s
  | .next k, s =>
    match s.fetch with
    | .error bad => .denied bad s
    | .ok (b, s1) => Decoder.fetchFrom (k b) s1

/-- Fetch and decode one instruction. -/
def State.fetchInstr (s : State) : Fetched := Decoder.fetchFrom decoder s

/-- The name under which the step refuses an encoding that has no meaning. -/
def refusalOf : Reject → Refusal
  | .slotOutOfFile => .slotOutOfFile
  | .reservedMode => .reservedMode
  | .indexOutOfFile => .indexOutOfFile

/-! Placing an instruction's bytes where the next fetch reads them (for `State.withFetchWord`). -/

/-- The fetch needs nothing but the bytes: the MMU is off and the longest instruction at PC lies in RAM. -/
def State.fetchesFromRam (s : State) : Bool :=
  !s.flagOf .mmue && s.bankOf .pcb == 0 && decide ((s.offOf .pc).toNat + maxInstrBytes ≤ Config.ramEnd)

/-- The state itself if the fetch needs nothing but the bytes; otherwise with the MMU off and PC, PCb at the reset entry point, which is RAM. -/
def State.readyToFetch (s : State) : State :=
  if s.fetchesFromRam then s
  else ((s.set .mmue 0).set .pcb 0).set .pc (ofHalf Config.resetOffset)

/-- Write bytes to memory from address `a` on. -/
def State.placeBytes (s : State) (a : Addr) : List Byte → State
  | [] => s
  | b :: bs => (s.memWrite a b).placeBytes (addrPlus a 1) bs

end Sys2Proof.Machine
end

