-- ==== Sys2Proof/Machine/Step.lean ====
section
/-! DEFINITION. The step (40_step_and_resolver.md R110): one instruction attempt. -/

namespace Sys2Proof.Machine

/-- `Step`: fetch the instruction byte by byte; a denied fetch takes the page-access violation and ends the step; otherwise the instruction
runs on the state with PC after its last byte. -/
def step (s : State) : Host.Outcome State Fault Refusal :=
  match s.fetchInstr with
  | .denied bad s1 => .next (s1.pageAV bad)
  | .got (.instr i) s1 => exec i s1
  | .got (.undefinedOpcode _) s1 => execUndefinedOpcode s1
  | .got (.reject r) _ => .refused (refusalOf r)

/-- `s` with the instruction whose bits are `w` (numbered as spec/opcode_table.json numbers them) where the step fetches next (log entry 9). -/
def State.withFetchWord (s : State) (nbits w : Nat) : State :=
  s.readyToFetch.placeBytes (s.readyToFetch.codeAddr 0) (tableBytes nbits w)

end Sys2Proof.Machine
end

