-- ==== Sys2Proof/Machine/Assembler.lean ====
section
/-! DEFINITION. The assembler (30_encoding.md R96 to R105): one line of text to the bytes of one instruction, or failure. It reads an instruction
term and emits `encode` of it, so it is the inverse of the decoder by construction of its last step (R104). A line is a list of characters. -/

namespace Sys2Proof.Machine.Asm

/-- White space between tokens (log entry 16). -/
def isBlank (c : Char) : Bool := c == ' ' || c == '\t'

def skipBlanks : List Char → List Char
  | [] => []
  | c :: cs => if isBlank c then skipBlanks cs else c :: cs

/-- The first whitespace-delimited token and what follows it (R96). -/
def token : List Char → List Char × List Char
  | [] => ([], [])
  | c :: cs => if isBlank c then ([], c :: cs) else (c :: (token cs).1, (token cs).2)

/-- The rest of a line after a given prefix. -/
def stripPrefix : List Char → List Char → Option (List Char)
  | [], cs => some cs
  | _ :: _, [] => none
  | p :: ps, c :: cs => if p == c then stripPrefix ps cs else none

/-- The opcode-name table (R90, R97): the implemented mnemonics; the reserved opcodes have no assembler name. -/
def opcodeNames : List (String × Byte) :=
  [("mov", 0x00), ("imm.b", 0x01), ("imm.w", 0x02), ("lod.b", 0x03), ("lod.w", 0x04), ("sto.b", 0x05), ("sto.w", 0x06)]
    ++ [("addi.b", 0x07), ("addi.w", 0x08), ("add", 0x09), ("subi.b", 0x0A), ("subi.w", 0x0B), ("sub", 0x0C)]
    ++ [("not", 0x0D), ("and", 0x0E), ("andi.b", 0x0F), ("andi.w", 0x10), ("orr", 0x11), ("xor", 0x12)]
    ++ [("shl", 0x13), ("shli.b", 0x14), ("shr", 0x15), ("shri.b", 0x16)]
    ++ [("clr", 0x17), ("sl4", 0x18), ("sr4", 0x19), ("sez", 0x1A), ("clz", 0x1B), ("inz", 0x1C)]

/-- The register-name table, every name before any name that is its proper prefix (R98). -/
def registerNames : List (String × Slot) :=
  [("pcb", .pcb), ("pc", .pc), ("sp", .sp), ("bp", .bp), ("exc", .exc), ("fl", .fl)]
    ++ [("mmup", .mmup), ("mmub", .mmub), ("mmue", .mmue), ("intp", .intp), ("intb", .intb), ("intl", .intl)]
    ++ [("rtip", .rtip), ("rtib", .rtib)]
    ++ [("r0", .r0), ("r1", .r1), ("r2", .r2), ("r3", .r3), ("r4", .r4), ("r5", .r5), ("r6", .r6), ("r7", .r7)]

/-- A register name: the first of the table that the text begins with (R98). -/
def register (cs : List Char) : Option (Slot × List Char) :=
  registerNames.findSome? fun row => (stripPrefix row.1.toList cs).map fun rest => (row.2, rest)

/-- The value of the digits at the head of the text, after those already read. -/
def digits : Nat → List Char → Nat × List Char
  | acc, [] => (acc, [])
  | acc, c :: cs => if c.isDigit then digits (acc * 10 + (c.toNat - '0'.toNat)) cs else (acc, c :: cs)

/-- A decimal number: one digit or more, no sign, no other base (R99). -/
def decimal : List Char → Option (Nat × List Char)
  | [] => none
  | c :: cs => if c.isDigit then some (digits 0 (c :: cs)) else none

/-- A decimal number below `2 ^ w`; a larger one is rejected (R99). -/
def number (w : Nat) (cs : List Char) : Option (BitVec w × List Char) :=
  match decimal cs with
  | some (n, rest) => if n < 2 ^ w then some (BitVec.ofNat w n, rest) else none
  | none => none

/-- An immediate with its size letter; white space may stand after the letter (R99). -/
def immediate (letter : Char) (w : Nat) : List Char → Option (BitVec w × List Char)
  | [] => none
  | c :: cs => if c == letter then number w (skipBlanks cs) else none

/-- The source inside brackets: a register name, or a 16-bit decimal with or without the `w` (R100). -/
def source (cs : List Char) : Option (Source × List Char) :=
  match register cs with
  | some (r, rest) => some (.reg r, rest)
  | none =>
    match immediate 'w' 16 cs with
    | some (v, rest) => some (.imm v, rest)
    | none => (number 16 cs).map fun p => (.imm p.1, p.2)

/-- A keyword, then one of the signs it accepts, then the text of its source; the field `f` of the sign is 0 for plus and 1 for minus (R100, R101). -/
def afterSign (keyword : String) (minusAllowed : Bool) (cs : List Char) : Option (BitVec 4 × List Char) :=
  match stripPrefix keyword.toList cs with
  | none => none
  | some rest =>
    match skipBlanks rest with
    | '+' :: more => some (0, skipBlanks more)
    | '-' :: more => if minusAllowed then some (1, skipBlanks more) else none
    | _ => none

/-- The index form's `r<digit> +`, the digit 0..7, giving the field `f` (R100). DESIGN CHOICE (log entry 16): the `r` and the digit stand joined, as the
rule's prose writes them; the rule's grammar would let white space stand between the two. -/
def afterIndex : List Char → Option (BitVec 4 × List Char)
  | 'r' :: d :: rest =>
    if d.isDigit && decide (d.toNat - '0'.toNat < Config.generalCount) then
      match skipBlanks rest with
      | '+' :: more => some (BitVec.ofNat 4 (d.toNat - '0'.toNat), skipBlanks more)
      | _ => none
    else none
  | _ => none

/-- Mode, field and the text of the source, for the forms that begin with a keyword or an index (R100). -/
def keywordForm (cs : List Char) : Option (Mode × BitVec 4 × List Char) :=
  match afterSign "pc" true cs with
  | some (f, rest) => some (.pcRel, f, rest)
  | none =>
    match afterSign "sp" true cs with
    | some (f, rest) => some (.spRel, f, rest)
    | none =>
      match afterSign "pt" false cs with
      | some (f, rest) => some (.ptRel, f, rest)
      | none =>
        match afterSign "it" false cs with
        | some (f, rest) => some (.itRel, f, rest)
        | none => (afterIndex cs).map fun p => (.indexed, p.1, p.2)

/-- The body of a memory operand up to its source; a bank prefix goes with the absolute form only (R100). -/
def body (bank : Option Bank) (cs : List Char) : Option (MemOperand × List Char) :=
  match keywordForm cs, bank with
  | some (mode, f, rest), none => (source rest).map fun p => ({ mode := mode, f := f, src := p.1 }, p.2)
  | some _, some _ => none
  | none, _ => (source cs).map fun p => ({ mode := .absolute, f := bank.getD 0, src := p.1 }, p.2)

/-- `decimal ':'`, the optional bank prefix, 0..15 (R100). -/
def bankPrefix (cs : List Char) : Option (Bank × List Char) :=
  match number 4 cs with
  | some (b, rest) =>
    match skipBlanks rest with
    | ':' :: more => some (b, skipBlanks more)
    | _ => none
  | none => none

/-- A memory operand in brackets (R100). -/
def memOperand : List Char → Option (MemOperand × List Char)
  | '[' :: cs =>
    let inner := skipBlanks cs
    let parsed :=
      match bankPrefix inner with
      | some (b, rest) => body (some b) rest
      | none => body none inner
    match parsed with
    | some (m, rest) =>
      match skipBlanks rest with
      | ']' :: more => some (m, more)
      | _ => none
    | none => none
  | _ => none

/-- The delimiter between two operands: a comma, white space, or both (R96; log entry 16). -/
def delimiter (cs : List Char) : Option (List Char) :=
  match skipBlanks cs with
  | ',' :: more => some (skipBlanks more)
  | rest => if rest = cs then none else some rest

/-- Two operands and the delimiter between them, up to the end of the line. -/
def pair {α β : Type} (first : List Char → Option (α × List Char)) (second : List Char → Option (β × List Char)) (cs : List Char) : Option (α × β) :=
  match first cs with
  | none => none
  | some (a, rest) =>
    match delimiter rest with
    | none => none
    | some rest2 =>
      match second rest2 with
      | none => none
      | some (b, rest3) => if skipBlanks rest3 = [] then some (a, b) else none

/-- The operands of a shape, of exactly its kinds and in its order, up to the end of the line (R105). -/
def operands (shape : Shape) (cs : List Char) : Option Instr :=
  match shape with
  | .N i => if cs = [] then some i else none
  | .R mk =>
    match register cs with
    | some (rd, rest) => if skipBlanks rest = [] then some (mk rd) else none
    | none => none
  | .RR mk => (pair register register cs).map fun p => mk p.1 p.2
  | .RI8 mk => (pair register (immediate 'b' 8) cs).map fun p => mk p.1 p.2
  | .RI16 mk => (pair register (immediate 'w' 16) cs).map fun p => mk p.1 p.2
  | .RM mk => (pair register memOperand cs).map fun p => mk p.1 p.2
  | .MR mk => (pair memOperand register cs).map fun p => mk p.1 p.2

/-- The opcode byte of a mnemonic: an exact, case-sensitive match (R97). -/
def opcodeOf (name : List Char) : Option Byte :=
  opcodeNames.findSome? fun row => if row.1.toList = name then some row.2 else none

/-- The instruction a line stands for (R96). -/
def parse (line : List Char) : Option Instr :=
  let t := token (skipBlanks line)
  match opcodeOf t.1 with
  | none => none
  | some op =>
    match Decode.shapeOf op with
    | none => none
    | some shape => operands shape (skipBlanks t.2)

/-- `assemble(line)`: the emitted bytes, or failure with no byte emitted (R96, R102). -/
def assemble (line : String) : Option (List Byte) := (parse line.toList).map encode

end Sys2Proof.Machine.Asm
end

