-- ==== Sys2Proof/Machine/PortTrace.lean ====
section
/-! DEFINITION. The accesses a step makes on the memory port, in order (20_memory.md R60, R65). Reads have no side effect on this platform (R45), so
the state does not need them; this function says which reads and writes go out, for what a bus agent would see (log entry 17). -/

namespace Sys2Proof.Machine

/-- One access of the byte-wide port (20_memory.md R40). -/
inductive PortAccess where
  | read (a : Addr)
  | write (a : Addr) (v : Byte)
deriving DecidableEq, Repr

/-- The entry read that precedes a checked access: none with MMUe clear (R53). -/
def State.checkTrace (s : State) (a : Addr) : List PortAccess :=
  if s.flagOf .mmue then [.read (s.pteAddr a)] else []

/-- The three reads of an interrupt-table entry (60_exceptions.md R205). -/
def State.entryTrace (s : State) (kind : Kind) : List PortAccess :=
  [.read (s.entryAddr kind 0), .read (s.entryAddr kind 1), .read (s.entryAddr kind 2)]

/-- The reads of one round of `Trigger` (R210). -/
def State.roundTrace (fallback : State → List PortAccess) (kind : Kind) (s : State) : List PortAccess :=
  if s.flagOf .intl then
    let s1 := s.saveReturn
    let e := s1.readEntry kind
    s1.entryTrace kind ++ (if sentinel e then fallback ((s1.entryClears e).set .exc Config.excNoInth) else [])
  else []

/-- The reads of `Trigger(kind)`: at most two entries (R211). -/
def State.triggerTrace (kind : Kind) (s : State) : List PortAccess :=
  State.roundTrace
    (if kind = Config.kindExcept then fun _ => [] else State.roundTrace (fun _ => []) Config.kindExcept)
    kind s

/-- The reads of a page-access violation (R202). -/
def State.pageAVTrace (s : State) (a : Addr) : List PortAccess := State.triggerTrace Config.kindExcept (s.faultInfo a)

/-- A checked access at `a`: the entry read, then `granted`, or the violation's reads (R65). -/
def State.checkedTrace (s : State) (a : Addr) (need : Access) (granted : List PortAccess) : List PortAccess :=
  s.checkTrace a ++ (if s.perm a need then granted else s.pageAVTrace a)

/-- The fetches a decoder makes. -/
def Decoder.fetchTrace : Decoder → State → List PortAccess
  | .done _, _ => []
  | .next k, s =>
    s.checkedTrace (s.codeAddr 0) .exec
      (.read (s.codeAddr 0) :: Decoder.fetchTrace (k (s.memRead (s.codeAddr 0))) (s.advance 1))

/-- A protected one-byte read or write at `a`. -/
def State.readTrace (s : State) (a : Addr) : List PortAccess := s.checkedTrace a .read [.read a]
def State.writeTrace (s : State) (a : Addr) (v : Byte) : List PortAccess := s.checkedTrace a .write [.write a v]

/-- The data accesses of an instruction, from the address its operand resolves to. -/
def dataTraceAt (r : Except Refusal Addr) (trace : Addr → List PortAccess) : List PortAccess :=
  match r with
  | .ok a => trace a
  | .error _ => []

/-- The data accesses of an instruction: only loads and stores make any (20_memory.md R43). -/
def State.dataTrace (s : State) : Instr → List PortAccess
  | .lodB _ m => dataTraceAt (s.resolve m) s.readTrace
  | .lodW _ m => dataTraceAt (s.resolve m) fun a => s.checkedTrace a .read (.read a :: s.readTrace (addrPlus a 1))
  | .stoB m rs => dataTraceAt (s.beforeRsByte.resolve m) fun a => s.writeTrace a ((s.get rs).extractLsb' 0 8)
  | .stoW m rs => dataTraceAt (s.beforeRsByte.resolve m) fun a =>
      let lo := (s.offOf rs).extractLsb' 0 8
      s.checkedTrace a .write (.write a lo :: (s.memWrite a lo).writeTrace (addrPlus a 1) ((s.offOf rs).extractLsb' 8 8))
  | .mov _ _ | .immB _ _ | .immW _ _ => []
  | .addiB _ _ | .addiW _ _ | .add _ _ | .subiB _ _ | .subiW _ _ | .sub _ _ => []
  | .not _ | .and _ _ | .andiB _ _ | .andiW _ _ | .orr _ _ | .xor _ _ => []
  | .shl _ _ | .shliB _ _ | .shr _ _ | .shriB _ _ => []
  | .clr _ | .sl4 _ | .sr4 _ => []
  | .sez | .clz | .inz => []
  | .rsvSext | .rsvBtst | .rsvBset | .rsvCmpeq | .rsvCmplt | .rsvCmpgt | .rsvPush | .rsvPull => []
  | .rsvJmp | .rsvJz | .rsvJnz | .rsvCall | .rsvRet | .rsvSwi | .rsvRti | .rsvJmpf => []

/-- The port accesses of one step: the fetches in address order, then the data accesses, low byte before high byte; a fault ends the sequence
with the reads of `Trigger` (R65). -/
def State.stepTrace (s : State) : List PortAccess :=
  Decoder.fetchTrace decoder s
    ++ match s.fetchInstr with
       | .got (.instr i) s1 => s1.dataTrace i
       | .got (.undefinedOpcode _) _ => []
       | .got (.reject _) _ => []
       | .denied _ _ => []

/-- What one port access does to the state behind the port. -/
def State.replay (s : State) : PortAccess → State
  | .read _ => s
  | .write a v => s.memWrite a v

end Sys2Proof.Machine
end

