-- ==== Sys2Proof/Machine/Environment.lean ====
section
/-! DEFINITION. The five interfaces of the block (00_scope.md R5) as moves: the step, and what the environment may apply between two steps and
never during one (00_scope.md R2, 60_exceptions.md R212; log entry 8). -/

namespace Sys2Proof.Machine

/-- The host register port, reading (R5 item 5). -/
def State.hostGet (s : State) (i : Slot) : SlotVal := s.get i

/-- The host register port, writing: not subject to the register lock (R5 item 5). -/
def State.hostSet (s : State) (i : Slot) (v : SlotVal) : State := s.set i v

/-- The host's own write to the memory behind the port (60_exceptions.md R229; 70_reset_and_hazards.md R242): it reaches RAM only (log entry 10). -/
def State.hostPoke (s : State) (a : Addr) (v : Byte) : State :=
  match Config.region (key a) with
  | .ram => { s with mem := Memory.write s.mem (key a) v }
  | .audio => s
  | .timer => s
  | .unmapped => s

/-- One transition of the block. -/
inductive Move where
  /-- one instruction attempt (R110) -/
  | step
  /-- an interrupt request from the timer/interrupt-source chip or the host (60_exceptions.md R208) -/
  | trigger (kind : Kind)
  /-- the reset interface (70_reset_and_hazards.md R241) -/
  | reset
  /-- a write through the host register port -/
  | hostSet (i : Slot) (v : SlotVal)
  /-- the host writes a byte of its memory -/
  | hostPoke (a : Addr) (v : Byte)
deriving DecidableEq, Repr

/-- What a move does. -/
def Move.apply : Move → State → Outcome
  | .step, s => Sys2Proof.Machine.step s
  | .trigger kind, s => .next (State.trigger kind s)
  | .reset, s => .next s.hardReset
  | .hostSet i v, s => .next (s.hostSet i v)
  | .hostPoke a v, s => .next (s.hostPoke a v)

/-- A sequence of moves, stopping at the first refusal. -/
def applyMoves : List Move → State → Outcome
  | [], s => .next s
  | m :: ms, s =>
    match m.apply s with
    | .next t => applyMoves ms t
    | .fault r => .fault r
    | .refused r => .refused r

end Sys2Proof.Machine
end

