-- ==== Sys2Proof/Safety.lean ====
section
/-! DEFINITION. What counts as a safe state, a safe step and a safe run, in the terms the statements use. -/

namespace Sys2Proof.Machine

/-- The RAM is in its canonical form. -/
abbrev State.Canonical (s : State) : Prop := Memory.wf s.mem = true

/-- No slot holds a bit above the sixteenth (10_state.md R13). -/
abbrev State.SixteenBit (s : State) : Prop := ∀ i : Slot, (s.get i).toNat < 65536

/-- A step is safe when it has a next state: the machine never faults, so this says that nothing was refused. -/
abbrev State.SafeStep (s : State) : Prop := ∃ t, step s = .next t

/-- `k` steps run without a refusal. -/
abbrev State.SafeRun (s : State) (k : Nat) : Prop := ∃ t, Host.Core.run Sys2Proof.core k s = .next t

/-- The state with the first `n` bytes at PC fetched: PC moved on by `n` (with no byte fetched PC is not touched). -/
def State.afterBytes (s : State) : Nat → State
  | 0 => s
  | n + 1 => s.advance (BitVec.ofNat 16 (n + 1))

/-- Every byte of an instruction of `n` bytes at PC may be fetched (20_memory.md R52). -/
abbrev State.MayFetch (s : State) (n : Nat) : Prop :=
  ∀ j < n, s.perm (s.codeAddr (BitVec.ofNat 16 j)) .exec = true

/-- The `n` bytes at PC, in address order. -/
def State.codeBytes (s : State) (n : Nat) : List Byte :=
  (List.range n).map fun j => s.memRead (s.codeAddr (BitVec.ofNat 16 j))

/-- The destination register of an instruction that has one. -/
def destOf : Instr → Option Slot
  | .mov rd _ | .immB rd _ | .immW rd _ => some rd
  | .lodB rd _ | .lodW rd _ => some rd
  | .stoB _ _ | .stoW _ _ => none
  | .addiB rd _ | .addiW rd _ | .add rd _ | .subiB rd _ | .subiW rd _ | .sub rd _ => some rd
  | .not rd | .and rd _ | .andiB rd _ | .andiW rd _ | .orr rd _ | .xor rd _ => some rd
  | .shl rd _ | .shliB rd _ | .shr rd _ | .shriB rd _ => some rd
  | .clr rd | .sl4 rd | .sr4 rd => some rd
  | .sez | .clz | .inz => none
  | .rsvSext | .rsvBtst | .rsvBset | .rsvCmpeq | .rsvCmplt | .rsvCmpgt | .rsvPush | .rsvPull => none
  | .rsvJmp | .rsvJz | .rsvJnz | .rsvCall | .rsvRet | .rsvSwi | .rsvRti | .rsvJmpf => none

/-- Does a memory operand name this slot as its source register? -/
def memNames (j : Slot) (m : MemOperand) : Bool :=
  match m.src with
  | .reg r => r == j
  | .imm _ => false

/-- Does an instruction name this slot as one of its source registers? The two-operand arithmetic and logic instructions read `rd` as well. -/
def instrReads (j : Slot) : Instr → Bool
  | .mov _ rs => rs == j
  | .immB _ _ | .immW _ _ => false
  | .lodB _ m | .lodW _ m => memNames j m
  | .stoB m rs | .stoW m rs => memNames j m || rs == j
  | .add rd rs | .sub rd rs | .and rd rs | .orr rd rs | .xor rd rs | .shl rd rs | .shr rd rs => rd == j || rs == j
  | .addiB rd _ | .subiB rd _ | .andiB rd _ | .shliB rd _ | .shriB rd _ => rd == j
  | .addiW rd _ | .subiW rd _ | .andiW rd _ => rd == j
  | .not rd | .sl4 rd | .sr4 rd => rd == j
  | .clr _ => false
  | .sez | .clz | .inz => false
  | .rsvSext | .rsvBtst | .rsvBset | .rsvCmpeq | .rsvCmplt | .rsvCmpgt | .rsvPush | .rsvPull => false
  | .rsvJmp | .rsvJz | .rsvJnz | .rsvCall | .rsvRet | .rsvSwi | .rsvRti | .rsvJmpf => false

/-- The two states agree in everything but the slot `r`. -/
abbrev SameBut (r : Slot) (s t : State) : Prop := (∀ j, j ≠ r → t.get j = s.get j) ∧ t.mem = s.mem ∧ t.devices = s.devices

/-- The two states read alike at every address but `a`. -/
abbrev ReadsAlikeExcept (a : Addr) (s t : State) : Prop := ∀ b : Addr, b ≠ a → s.memRead b = t.memRead b

end Sys2Proof.Machine
end

