-- ==== Sys2Proof/Certificates/Slice0/Obligations.lean ====
section
/-! DEFINITION. The statements for the provers. Each docstring says which rule of spec/ the statement formalises; where it rests on a decision of the
spec's own (92_eei_decisions.md) or of the model's (the assumption log), it says so. Helper predicates come first; a predicate names no
instruction, so that what an instruction does stands in the statement itself. -/

open Sys2Proof Sys2Proof.Machine

namespace Sys2Proof.Machine

/-- The low 16 bits of a slot, as a number. -/
def low16 (s : State) (r : Slot) : Nat := (s.get r).toNat % 65536

/-- RAM in the platform map (20_memory.md R58). -/
def InRam (a : Addr) : Prop := a.bank = 0 ∧ a.offset.toNat < 0x2000

/-- The audio chip's window. -/
def InAudio (a : Addr) : Prop := a.bank = 0 ∧ 0x2000 ≤ a.offset.toNat ∧ a.offset.toNat < 0x3000

/-- The timer chip's window. -/
def InTimer (a : Addr) : Prop := a.bank = 0 ∧ 0x3000 ≤ a.offset.toNat ∧ a.offset.toNat < 0x4000

/-- A place with nothing behind it. -/
def IsUnmapped (a : Addr) : Prop := a.bank ≠ 0 ∨ 0x4000 ≤ a.offset.toNat

/-- `src` is the inline source a header `h` asks for: one register byte of 0..23 when bit 7 is clear, two bytes when it is set. -/
def SourceBytes (h : Byte) (src : List Byte) : Prop :=
  (h.toNat < 128 ∧ ∃ r : Byte, r.toNat < 24 ∧ src = [r]) ∨ (128 ≤ h.toNat ∧ ∃ lo hi : Byte, src = [lo, hi])

/-- `t` is `s` with the value `v` written to `rd`, or, where `rd` is locked, `s` itself; every other slot, every byte of memory and the device
record are as they were. -/
def DestWrite (rd : Slot) (v : Nat) (s t : State) : Prop :=
  (s.locked rd = false → (t.get rd).toNat = v) ∧ (s.locked rd = true → t.get rd = s.get rd) ∧
  (∀ j, j ≠ rd → t.get j = s.get j) ∧ (∀ a, t.memRead a = s.memRead a) ∧ t.devices = s.devices

/-- Instruction `i` completes in `s` with the one effect of writing `v` to `rd`. -/
def RunsTo (i : Instr) (s : State) (rd : Slot) (v : Nat) : Prop := ∃ t, exec i s = .next t ∧ DestWrite rd v s t

/-- `t` is `s` after the byte with value `v` has been written at `a`: no slot changes; every other address reads as before; in RAM the byte is
stored, in a device window the write is forwarded with the offset inside the window, elsewhere nothing happens. -/
def ByteStored (a : Addr) (v : Nat) (s t : State) : Prop :=
  (∀ j, t.get j = s.get j) ∧ (∀ b, b ≠ a → t.memRead b = s.memRead b) ∧
  (InRam a → s.Canonical → (t.memRead a).toNat = v ∧ t.devices = s.devices) ∧
  (InAudio a → ∃ w : DeviceWrite, w.chip = .audio ∧ w.offset.toNat = a.offset.toNat - 0x2000 ∧ w.value.toNat = v ∧
    t.devices = s.devices ++ [w] ∧ t.memRead a = 0) ∧
  (InTimer a → ∃ w : DeviceWrite, w.chip = .timer ∧ w.offset.toNat = a.offset.toNat - 0x3000 ∧ w.value.toNat = v ∧
    t.devices = s.devices ++ [w] ∧ t.memRead a = 0) ∧
  (IsUnmapped a → t = s)

/-- `t` is `s` after `Reset` followed by EXC = `exc`: the six slots have their values, every other slot, memory and the device record are kept. -/
def ResetTo (exc : Nat) (s t : State) : Prop :=
  t.get .pcb = 0 ∧ (t.get .pc).toNat = 4096 ∧ (t.get .exc).toNat = exc ∧ t.get .mmue = 0 ∧ t.get .intl = 0 ∧ t.get .fl = 0 ∧
  (∀ j, j ∉ [Slot.pcb, .pc, .exc, .mmue, .intl, .fl] → t.get j = s.get j) ∧
  (∀ a, t.memRead a = s.memRead a) ∧ t.devices = s.devices

/-- The 24-bit value of an interrupt-table entry, from its three bytes. -/
def entryValue (s : State) (kind : Kind) : Nat :=
  let byte (j : Nat) : Nat :=
    (s.memRead { bank := BitVec.ofNat 4 (s.get .intb).toNat, offset := BitVec.ofNat 16 ((s.get .intp).toNat + 3 * kind.toNat + j) }).toNat
  byte 0 + 256 * byte 1 + 65536 * byte 2

/-- An entry's target is the all-zero sentinel: offset (bits 15:0) and bank (bits 19:16) are both zero. -/
def IsSentinel (e : Nat) : Prop := e % 1048576 = 0

/-- `t` is `s` after a dispatch through the entry value `e`: PC and PCb saved whole, the flag clears done, the jump made, all else kept. -/
def Dispatched (e : Nat) (s t : State) : Prop :=
  t.get .rtip = s.get .pc ∧ t.get .rtib = s.get .pcb ∧
  (t.get .pc).toNat = e % 65536 ∧ (t.get .pcb).toNat = e / 65536 % 16 ∧
  t.get .mmue = (if e / 1048576 % 2 = 1 then 0 else s.get .mmue) ∧
  t.get .intl = (if e / 2097152 % 2 = 1 then 0 else s.get .intl) ∧
  (∀ j, j ∉ [Slot.rtip, .rtib, .pc, .pcb, .mmue, .intl] → t.get j = s.get j) ∧
  (∀ a, t.memRead a = s.memRead a) ∧ t.devices = s.devices

/-- `Trigger` with the recursion of the source and a bound on its depth: after `n` rounds it falls back to a machine reset with EXC = NOINTH. -/
def triggerBounded : Nat → Kind → State → State
  | 0, _, s => s.fatal
  | n + 1, kind, s => State.triggerRound (triggerBounded n Config.kindExcept) kind s

/-- The sixteen reserved opcodes (30_encoding.md R91). -/
def reservedInstrs : List Instr :=
  [.rsvSext, .rsvBtst, .rsvBset, .rsvCmpeq, .rsvCmplt, .rsvCmpgt, .rsvPush, .rsvPull] ++
  [.rsvJmp, .rsvJz, .rsvJnz, .rsvCall, .rsvRet, .rsvSwi, .rsvRti, .rsvJmpf]

/-- How many of a list of port accesses are writes. -/
def writeCount (l : List PortAccess) : Nat :=
  (l.filter fun p => match p with | .write _ _ => true | .read _ => false).length

end Sys2Proof.Machine

/-! ### Encoding -/

/-- Words written out from the spec's encodings decode to the instructions they stand for, one or more of each family (30_encoding.md R90, R91,
R103; 95_test_vectors.md S1). The opcode, slot, header and mode numbers are the spec's decisions D2, D7, D8, D12 to D15 (log entry 11). -/
def Obligations.SpecWordsDecode : Prop :=
  decode [0x00, 0x11, 0x10] = some (.instr (.mov .r1 .r0), []) ∧
  decode [0x02, 0x13, 0x34, 0x12] = some (.instr (.immW .r3 0x1234), []) ∧
  decode [0x03, 0x12, 0x80, 0x2A, 0x00] = some (.instr (.lodB .r2 ⟨.absolute, 0, .imm 42⟩), []) ∧
  decode [0x03, 0x14, 0x57, 0x10] = some (.instr (.lodB .r4 ⟨.indexed, 7, .reg .r0⟩), []) ∧
  decode [0x06, 0xA1, 0x02, 0x00, 0x13] = some (.instr (.stoW ⟨.spRel, 1, .imm 2⟩ .r3), []) ∧
  decode [0x09, 0x10, 0x11] = some (.instr (.add .r0 .r1), []) ∧
  decode [0x16, 0x10, 0x0C] = some (.instr (.shriB .r0 12), []) ∧
  decode [0x17, 0x15] = some (.instr (.clr .r5), []) ∧
  decode [0x1B] = some (.instr .clz, []) ∧
  decode [0x2A] = some (.instr .rsvSwi, []) ∧
  decode [0xFF] = some (.undefinedOpcode 0xFF, [])

/-- Decoding the bytes of any well-formed instruction, with anything after them, gives it back (30_encoding.md R104). -/
def Obligations.DecodeOfEncode : Prop :=
  ∀ (i : Instr) (rest : List Byte), i.wellFormed = true → decode (encode i ++ rest) = some (.instr i, rest)

/-- What the decoder reads as an instruction is well formed, and its bytes are that instruction's encoding: no other byte string means the same
term (30_encoding.md R71 to R80; the ignored header bits of R79 are kept in the term). -/
def Obligations.EncodeOfDecode : Prop :=
  ∀ (bytes rest : List Byte) (i : Instr),
    decode bytes = some (.instr i, rest) → i.wellFormed = true ∧ bytes = encode i ++ rest

/-- Decoding is total: any five bytes hold a whole instruction (or an undefined opcode, or a rejected encoding), of one to five bytes
(30_encoding.md R71, R80, R81). -/
def Obligations.FiveBytesAlwaysDecode : Prop :=
  ∀ bytes : List Byte, 5 ≤ bytes.length →
    ∃ d rest, decode bytes = some (d, rest) ∧ rest.length < bytes.length ∧ bytes.length ≤ rest.length + 5

/-- The encodings without a meaning and the names they are rejected by (30_encoding.md R93; U1, U2, U4): a register byte of 24..255, wherever a format
has one (first operand byte, second operand byte of format RR, source of a memory operand, last byte of a store); a header with mode 6 or 7; the
indexed mode with f >= 8. A memory operand's mode and index are looked at when its source has been read, before a store's last byte
(log entry 5). -/
def Obligations.EncodingsWithoutMeaning : Prop :=
  (∀ (op b : Byte) (rest : List Byte), (op.toNat < 5 ∨ (7 ≤ op.toNat ∧ op.toNat ≤ 0x19)) → 24 ≤ b.toNat →
    decode (op :: b :: rest) = some (.reject .slotOutOfFile, rest)) ∧
  (∀ (op rd b : Byte) (rest : List Byte), op.toNat ∈ [0x00, 0x09, 0x0C, 0x0E, 0x11, 0x12, 0x13, 0x15] → rd.toNat < 24 → 24 ≤ b.toNat →
    decode (op :: rd :: b :: rest) = some (.reject .slotOutOfFile, rest)) ∧
  (∀ (op rd h b : Byte) (rest : List Byte), rd.toNat < 24 → h.toNat < 128 → 24 ≤ b.toNat →
    ((op = 3 ∨ op = 4) → decode (op :: rd :: h :: b :: rest) = some (.reject .slotOutOfFile, rest)) ∧
    ((op = 5 ∨ op = 6) → decode (op :: h :: b :: rest) = some (.reject .slotOutOfFile, rest))) ∧
  (∀ (op h b : Byte) (src rest : List Byte), (op = 5 ∨ op = 6) → SourceBytes h src → h.toNat / 16 % 8 < 6 →
    (h.toNat / 16 % 8 = 5 → h.toNat % 16 < 8) → 24 ≤ b.toNat →
    decode (op :: h :: (src ++ b :: rest)) = some (.reject .slotOutOfFile, rest)) ∧
  (∀ (op rd h : Byte) (src rest : List Byte), rd.toNat < 24 → SourceBytes h src → 6 ≤ h.toNat / 16 % 8 →
    ((op = 3 ∨ op = 4) → decode (op :: rd :: h :: (src ++ rest)) = some (.reject .reservedMode, rest)) ∧
    ((op = 5 ∨ op = 6) → decode (op :: h :: (src ++ rest)) = some (.reject .reservedMode, rest))) ∧
  (∀ (op rd h : Byte) (src rest : List Byte), rd.toNat < 24 → SourceBytes h src → h.toNat / 16 % 8 = 5 → 8 ≤ h.toNat % 16 →
    ((op = 3 ∨ op = 4) → decode (op :: rd :: h :: (src ++ rest)) = some (.reject .indexOutOfFile, rest)) ∧
    ((op = 5 ∨ op = 6) → decode (op :: h :: (src ++ rest)) = some (.reject .indexOutOfFile, rest)))

/-! ### The step -/

/-- A step runs the decoded instruction: when the `n` bytes at PC may be fetched and decode to `i`, the step is exec of `i` on the state with
PC moved on by `n`, modulo 65536 in its bank (40_step_and_resolver.md R110, R111; the wrap is decision D5). -/
def Obligations.StepRunsTheDecodedInstruction : Prop :=
  ∀ (s : State) (n : Nat) (i : Instr), s.MayFetch n → decode (s.codeBytes n) = some (.instr i, []) →
    step s = exec i (s.advance (BitVec.ofNat 16 n))

/-- An encoding without a meaning is refused by its name (93_implementation_defined.md U1, U2, U4: treatment refuse). -/
def Obligations.StepRefusesEncodingsWithoutMeaning : Prop :=
  ∀ (s : State) (n : Nat) (r : Reject), s.MayFetch n → decode (s.codeBytes n) = some (.reject r, []) →
    step s = .refused (match r with
      | .slotOutOfFile => .slotOutOfFile
      | .reservedMode => .reservedMode
      | .indexOutOfFile => .indexOutOfFile)

/-- Every opcode byte from 0x1D on, reserved or undefined, is a one-byte instruction: PC moves on by 1 and nothing else changes
(46_reserved_and_control_transfer.md R175 to R191, R198; decision D9, log entry 3). -/
def Obligations.ReservedAndUndefinedOpcodesAdvanceByOne : Prop :=
  ∀ s : State, s.MayFetch 1 → 0x1D ≤ (s.memRead (s.codeAddr 0)).toNat →
    ∃ t, step s = .next t ∧ (t.get .pc).toNat = (low16 s .pc + 1) % 65536 ∧
      (∀ j, j ≠ Slot.pc → t.get j = s.get j) ∧ t.mem = s.mem ∧ t.devices = s.devices

/-- The self-jump `subi.b pc, b 3` (bytes 0A 00 03) leaves the state as it is, as long as its three fetches are permitted and PC holds no bits above
the offset (46_reserved_and_control_transfer.md R196; decision D35). -/
def Obligations.SpinIsAFixedPoint : Prop :=
  ∀ s : State, s.MayFetch 3 → s.codeBytes 3 = [0x0A, 0x00, 0x03] → (s.get .pc).toNat < 65536 → step s = .next s

/-- "Whatever the instruction has done before the faulting access stays done ...; nothing after it is done" (40_step_and_resolver.md R127): a denied
fetch leaves PC moved past the bytes fetched so far; a load whose low or high byte is denied writes nothing; a store whose low byte is denied
stores nothing, and one whose high byte is denied has its low byte written. In each case the violation is taken at the denied address. -/
def Obligations.AbandonedInstructionKeepsWhatItDid : Prop :=
  (∀ (s : State) (n : Nat), s.MayFetch n → decode (s.codeBytes n) = none → s.perm (s.codeAddr (BitVec.ofNat 16 n)) .exec = false →
    step s = .next ((if n = 0 then s else s.advance (BitVec.ofNat 16 n)).pageAV (s.codeAddr (BitVec.ofNat 16 n)))) ∧
  (∀ (s : State) (rd : Slot) (m : MemOperand) (a : Addr), s.resolve m = .ok a → s.perm a .read = false →
    exec (.lodB rd m) s = .next (s.pageAV a) ∧ exec (.lodW rd m) s = .next (s.pageAV a)) ∧
  (∀ (s : State) (rd : Slot) (m : MemOperand) (a : Addr), s.resolve m = .ok a → s.perm a .read = true →
    s.perm (addrPlus a 1) .read = false → exec (.lodW rd m) s = .next (s.pageAV (addrPlus a 1))) ∧
  (∀ (s : State) (rs : Slot) (m : MemOperand) (a : Addr), s.beforeRsByte.resolve m = .ok a → s.perm a .write = false →
    exec (.stoB m rs) s = .next (s.pageAV a) ∧ exec (.stoW m rs) s = .next (s.pageAV a)) ∧
  (∀ (s : State) (rs : Slot) (m : MemOperand) (a : Addr) (lo : Byte), s.beforeRsByte.resolve m = .ok a → s.perm a .write = true →
    lo.toNat = (s.get rs).toNat % 256 → (s.memWrite a lo).perm (addrPlus a 1) .write = false →
    exec (.stoW m rs) s = .next ((s.memWrite a lo).pageAV (addrPlus a 1)))

/-! ### Results of the instructions that write a register -/

/-- mov copies all 20 bits of the slot (41_data_movement.md; decision D21), and changes nothing else; a locked destination keeps its value. -/
def Obligations.MovCopiesTheWholeSlot : Prop :=
  ∀ (s : State) (rd rs : Slot), RunsTo (.mov rd rs) s rd (s.get rs).toNat

/-- imm.b and imm.w replace the whole slot by the zero-extended immediate (41_data_movement.md; decision D23). -/
def Obligations.ImmediatesReplaceTheWholeSlot : Prop :=
  ∀ (s : State) (rd : Slot),
    (∀ k : Byte, RunsTo (.immB rd k) s rd k.toNat) ∧ (∀ k : Half, RunsTo (.immW rd k) s rd k.toNat)

/-- The six arithmetic instructions wrap modulo 65536 over the low 16 bits, write the result zero-extended, and touch no flag
(43_arithmetic.md; the zero-extension to the slot is decision D21). -/
def Obligations.ArithmeticWrapsModulo65536 : Prop :=
  ∀ (s : State) (rd rs : Slot) (k : Byte) (w : Half),
    RunsTo (.addiB rd k) s rd ((low16 s rd + k.toNat) % 65536) ∧
    RunsTo (.addiW rd w) s rd ((low16 s rd + w.toNat) % 65536) ∧
    RunsTo (.add rd rs) s rd ((low16 s rd + low16 s rs) % 65536) ∧
    RunsTo (.subiB rd k) s rd ((low16 s rd + 65536 - k.toNat) % 65536) ∧
    RunsTo (.subiW rd w) s rd ((low16 s rd + 65536 - w.toNat) % 65536) ∧
    RunsTo (.sub rd rs) s rd ((low16 s rd + 65536 - low16 s rs) % 65536)

/-- The bitwise instructions work on the low 16 bits, the 8-bit immediate zero-extended, and write the result zero-extended
(44_bitwise_shift.md; decision D21). -/
def Obligations.BitwiseResults : Prop :=
  ∀ (s : State) (rd rs : Slot) (k : Byte) (w : Half),
    RunsTo (.not rd) s rd (65535 - low16 s rd) ∧
    RunsTo (.and rd rs) s rd (low16 s rd &&& low16 s rs) ∧
    RunsTo (.andiB rd k) s rd (low16 s rd &&& k.toNat) ∧
    RunsTo (.andiW rd w) s rd (low16 s rd &&& w.toNat) ∧
    RunsTo (.orr rd rs) s rd (low16 s rd ||| low16 s rs) ∧
    RunsTo (.xor rd rs) s rd (low16 s rd ^^^ low16 s rs)

/-- Shifts multiply by a power of two modulo 65536, or divide by it and round down, whatever the amount: it is not reduced modulo 16, so 16 or more
gives 0 (44_bitwise_shift.md, 45_register_utility_flags.md; decisions D21 and D22, log entry 4). -/
def Obligations.ShiftResults : Prop :=
  ∀ (s : State) (rd rs : Slot) (k : Byte),
    RunsTo (.shl rd rs) s rd (low16 s rd * 2 ^ low16 s rs % 65536) ∧
    RunsTo (.shliB rd k) s rd (low16 s rd * 2 ^ k.toNat % 65536) ∧
    RunsTo (.shr rd rs) s rd (low16 s rd / 2 ^ low16 s rs) ∧
    RunsTo (.shriB rd k) s rd (low16 s rd / 2 ^ k.toNat) ∧
    RunsTo (.sl4 rd) s rd (low16 s rd * 16 % 65536) ∧
    RunsTo (.sr4 rd) s rd (low16 s rd / 16)

/-- clr sets all 20 bits of its destination to zero (45_register_utility_flags.md). -/
def Obligations.ClrSetsTheSlotToZero : Prop := ∀ (s : State) (rd : Slot), RunsTo (.clr rd) s rd 0

/-- sez, clz and inz set, clear and toggle bit 0 of FL and change no other bit of FL, no other slot and no memory
(45_register_utility_flags.md; the bit and the kept bits are decision D6). -/
def Obligations.FlagInstructionsChangeOnlyZ : Prop :=
  ∀ s : State,
    let keeps (t : State) : Prop := (∀ n, n ≠ 0 → (t.get .fl).getLsbD n = (s.get .fl).getLsbD n) ∧
      (∀ j, j ≠ Slot.fl → t.get j = s.get j) ∧ (∀ a, t.memRead a = s.memRead a) ∧ t.devices = s.devices
    (∃ t, exec .sez s = .next t ∧ (t.get .fl).getLsbD 0 = true ∧ keeps t) ∧
    (∃ t, exec .clz s = .next t ∧ (t.get .fl).getLsbD 0 = false ∧ keeps t) ∧
    (∃ t, exec .inz s = .next t ∧ (t.get .fl).getLsbD 0 = !(s.get .fl).getLsbD 0 ∧ keeps t)

/-- The sixteen reserved opcodes complete and change nothing beyond the fetch of the opcode byte (46_reserved_and_control_transfer.md; decision D9,
log entry 3). -/
def Obligations.ReservedOpcodesChangeNothing : Prop :=
  ∀ i ∈ reservedInstrs, ∀ s : State, exec i s = .next s

/-! ### Addressing, loads and stores -/

/-- The address each of the six modes gives, offsets wrapping modulo 65536 in the bank (40_step_and_resolver.md; the wrap is decision D29, the sign
bit D15). Every well-formed operand has one. -/
def Obligations.ResolverAddresses : Prop :=
  ∀ (s : State) (f : BitVec 4) (src : Source),
    let v : Nat := match src with | .reg r => low16 s r | .imm w => w.toNat
    let signed (base : Nat) : Nat := if f.toNat % 2 = 0 then (base + v) % 65536 else (base + 65536 - v) % 65536
    (∃ a, s.resolve ⟨.absolute, f, src⟩ = .ok a ∧ a.bank = f ∧ a.offset.toNat = v) ∧
    (∃ a, s.resolve ⟨.pcRel, f, src⟩ = .ok a ∧ a.bank.toNat = (s.get .pcb).toNat % 16 ∧ a.offset.toNat = signed (low16 s .pc)) ∧
    (∃ a, s.resolve ⟨.spRel, f, src⟩ = .ok a ∧ a.bank = 0 ∧ a.offset.toNat = signed (low16 s .sp)) ∧
    (∃ a, s.resolve ⟨.ptRel, f, src⟩ = .ok a ∧ a.bank.toNat = (s.get .mmub).toNat % 16 ∧
      a.offset.toNat = (low16 s .mmup + v) % 65536) ∧
    (∃ a, s.resolve ⟨.itRel, f, src⟩ = .ok a ∧ a.bank.toNat = (s.get .intb).toNat % 16 ∧
      a.offset.toNat = (low16 s .intp + v) % 65536) ∧
    (∀ r : Slot, r.val = 16 + f.toNat →
      ∃ a, s.resolve ⟨.indexed, f, src⟩ = .ok a ∧ a.bank = 0 ∧ a.offset.toNat = (v + low16 s r) % 65536)

/-- A load or store with an ill-formed operand (indexed mode, f >= 8) stops by name: the field would select a slot outside the file
(93_implementation_defined.md U4). -/
def Obligations.IllFormedIndexStops : Prop :=
  ∀ (s : State) (r : Slot) (m : MemOperand), m.mode = .indexed → 8 ≤ m.f.toNat →
    exec (.lodB r m) s = .refused .indexOutOfFile ∧ exec (.lodW r m) s = .refused .indexOutOfFile ∧
    exec (.stoB m r) s = .refused .indexOutOfFile ∧ exec (.stoW m r) s = .refused .indexOutOfFile

/-- "loads zero-extend ...; no load or store modifies SP, the index register or any other register used in the address" (42_memory_access.md R139;
40_step_and_resolver.md R126): a permitted load completes with the byte, or the little-endian word, zero-extended in its destination and nothing
else changed; a permitted store changes no register at all; resolving the operand changes nothing. That the loads zero-extend and that `rd` is written
after both reads is decision D23 (log entry 13), that the second byte's offset wraps in the bank D29 (log entry 14), that a store's operand is resolved
before its `rs` byte is fetched D24 (log entry 6), and that the second byte of a sto.w is checked after the first is stored D33 (log entry 15). -/
def Obligations.LoadsZeroExtendAndModifyNoAddressRegister : Prop :=
  (∀ (s : State) (rd : Slot) (m : MemOperand) (a : Addr), s.resolve m = .ok a → s.perm a .read = true →
    RunsTo (.lodB rd m) s rd (s.memRead a).toNat) ∧
  (∀ (s : State) (rd : Slot) (m : MemOperand) (a : Addr), s.resolve m = .ok a → s.perm a .read = true →
    s.perm (addrPlus a 1) .read = true →
    RunsTo (.lodW rd m) s rd ((s.memRead a).toNat + 256 * (s.memRead (addrPlus a 1)).toNat)) ∧
  (∀ (s : State) (rs : Slot) (m : MemOperand) (a : Addr), s.beforeRsByte.resolve m = .ok a → s.perm a .write = true →
    ∃ t, exec (.stoB m rs) s = .next t ∧ ∀ j, t.get j = s.get j) ∧
  (∀ (s : State) (rs : Slot) (m : MemOperand) (a : Addr) (lo : Byte), s.beforeRsByte.resolve m = .ok a → s.perm a .write = true →
    lo.toNat = (s.get rs).toNat % 256 → (s.memWrite a lo).perm (addrPlus a 1) .write = true →
    ∃ t, exec (.stoW m rs) s = .next t ∧ ∀ j, t.get j = s.get j)

/-- A permitted sto.b completes: bits 7:0 of the register are stored at the address the operand gives (resolved before the `rs` byte is fetched), and
no slot and no other address changes (42_memory_access.md; decision D23; the device record is log entry 7). -/
def Obligations.StoreByteStoresTheLowByte : Prop :=
  ∀ (s : State) (rs : Slot) (m : MemOperand) (a : Addr), s.beforeRsByte.resolve m = .ok a → s.perm a .write = true →
    ∃ t, exec (.stoB m rs) s = .next t ∧ ByteStored a ((s.get rs).toNat % 256) s t

/-- A permitted sto.w completes: bits 7:0 at the address, then bits 15:8 at the next one in the same bank, and no slot and no address outside these
two changes; in RAM the two bytes read back as the low 16 bits of the register, little-endian (42_memory_access.md; decisions D23, D29). The
second permission is checked after the first byte is stored. -/
def Obligations.StoreWordStoresLowThenHigh : Prop :=
  ∀ (s : State) (rs : Slot) (m : MemOperand) (a : Addr) (lo : Byte), s.beforeRsByte.resolve m = .ok a → s.perm a .write = true →
    lo.toNat = (s.get rs).toNat % 256 → (s.memWrite a lo).perm (addrPlus a 1) .write = true →
    ∃ t s1, exec (.stoW m rs) s = .next t ∧
      ByteStored a ((s.get rs).toNat % 256) s s1 ∧ ByteStored (addrPlus a 1) ((s.get rs).toNat / 256 % 256) s1 t ∧
      (∀ b, b ≠ a → b ≠ addrPlus a 1 → t.memRead b = s.memRead b) ∧
      (InRam a → InRam (addrPlus a 1) → s.Canonical →
        (t.memRead a).toNat + 256 * (t.memRead (addrPlus a 1)).toNat = low16 s rs ∧ t.devices = s.devices)

/-- With the MMU off a word stored in RAM is loaded back as it was stored, at any offset (20_memory.md section 2, byte order). -/
def Obligations.WordStoredIsLoadedBack : Prop :=
  ∀ (s : State) (a : Addr) (v : Half), s.Canonical → s.flagOf .mmue = false → InRam a → InRam (addrPlus a 1) →
    (s.store16 a v).readProt16 a = .ok v

/-- A store is seen by the next fetch with no intervening action (20_memory.md section 7, instruction-fetch coherence). -/
def Obligations.StoreIsSeenByTheNextFetch : Prop :=
  ∀ (s : State) (b : Byte), s.Canonical → s.flagOf .mmue = false → InRam (s.codeAddr 0) →
    (s.store8 (s.codeAddr 0) b).fetch = .ok (b, (s.store8 (s.codeAddr 0) b).advance 1)

/-! ### The lock -/

/-- Which slots are locked (10_state.md R30): "INTl is always locked; MMUb/MMUp/MMUe are locked while MMUe is true; INTb/INTp/INTl are locked while
INTl is true." Every other slot is never locked. -/
def Obligations.LockRule : Prop :=
  ∀ (s : State) (i : Slot),
    s.locked i = true ↔
      i = .intl ∨ (s.get .mmue ≠ 0 ∧ (i = .mmub ∨ i = .mmup ∨ i = .mmue)) ∨
      (s.get .intl ≠ 0 ∧ (i = .intb ∨ i = .intp ∨ i = .intl))

/-- A write to a locked destination is silently dropped: when the destination is locked the instruction leaves the state as it is after its fetches,
or takes the violation of a data read, which is still made (10_state.md; decision D25). -/
def Obligations.LockedWriteIsDropped : Prop :=
  ∀ (i : Instr) (rd : Slot) (s t : State), destOf i = some rd → s.locked rd = true → exec i s = .next t →
    t = s ∨ (∃ a, s.perm a .read = false ∧ t = s.pageAV a ∧ ∃ m, i = .lodB rd m ∨ i = .lodW rd m)

/-! ### Memory and protection -/

/-- The permission function (20_memory.md R53): with MMUe clear everything is permitted; with MMUe set the answer is the bit X = 0, W = 1 or R = 2 of
the byte at (MMUb, MMUp + bank * 16 + offset[15:12]). -/
def Obligations.PermissionFunction : Prop :=
  ∀ (s : State) (a : Addr),
    (s.get .mmue = 0 → ∀ need, s.perm a need = true) ∧
    (s.get .mmue ≠ 0 → ∀ entry : Addr, entry.bank.toNat = (s.get .mmub).toNat % 16 →
      entry.offset.toNat = (low16 s .mmup + (a.bank.toNat * 16 + a.offset.toNat / 4096)) % 65536 →
      s.perm a .exec = (s.memRead entry).getLsbD 0 ∧ s.perm a .write = (s.memRead entry).getLsbD 1 ∧
      s.perm a .read = (s.memRead entry).getLsbD 2)

/-- "A read of an unmapped address returns the byte 0; a write to an unmapped address changes nothing" (20_memory.md R57), and the core's loads and stores
there complete without a fault when permitted. -/
def Obligations.UnmappedPlacesReadZeroAndIgnoreWrites : Prop :=
  ∀ (s : State) (a : Addr), IsUnmapped a →
    s.memRead a = 0 ∧ (∀ v, s.memWrite a v = s) ∧
    (∀ (rd : Slot) (m : MemOperand), s.resolve m = .ok a → s.perm a .read = true → RunsTo (.lodB rd m) s rd 0) ∧
    (∀ (rs : Slot) (m : MemOperand), s.beforeRsByte.resolve m = .ok a → s.perm a .write = true → exec (.stoB m rs) s = .next s)

/-- RAM returns the last byte written to it, and a write disturbs no other address (20_memory.md section 6; that RAM lies in bank 0 is decision D28). -/
def Obligations.RamReturnsTheLastByteWritten : Prop :=
  ∀ (s : State) (a : Addr) (v : Byte), s.Canonical → InRam a →
    (s.memWrite a v).memRead a = v ∧ (∀ b, b ≠ a → (s.memWrite a v).memRead b = s.memRead b) ∧
    (s.memWrite a v).Canonical ∧ (s.memWrite a v).devices = s.devices

/-! ### Reset and power-on -/

/-- `Reset` writes six slots and nothing else (70_reset_and_hazards.md R240). -/
def Obligations.ResetWritesSixSlots : Prop := ∀ s : State, ResetTo 0 s s.hardReset

/-- Power-on: whatever the slots and the RAM hold, after the one `Reset` the first fetch is from (0, 4096) with the MMU off and interrupts disabled,
and every slot `Reset` does not write holds what it held (70_reset_and_hazards.md; decision D26). State.reset is the case of all slots 0 and no
byte listed: the model's choice, log entries 1 and 2. -/
def Obligations.PowerOnState : Prop :=
  (∀ (regs : Vector SlotVal 24) (mem : Memory),
    (powerOn regs mem).codeAddr 0 = { bank := 0, offset := 0x1000 } ∧
    (∀ a need, (powerOn regs mem).perm a need = true) ∧ (powerOn regs mem).get .intl = 0 ∧
    ResetTo 0 { regs := regs, mem := mem, devices := [] } (powerOn regs mem)) ∧
  State.reset = powerOn (Vector.replicate 24 0) []

/-! ### Trap entry and return -/

/-- "Triggering any interrupt kind while INTl=0 performs a full reset (PCb=0, PC=4096, MMUe=0, INTl=0, FL=0) and sets EXC=1 (NOINTH), regardless of
prior register state" (60_exceptions.md); RTIp and RTIb are not written. -/
def Obligations.TriggerWithInterruptsDisabledResets : Prop :=
  ∀ (s : State) (kind : Kind), s.get .intl = 0 → ResetTo 1 s (State.trigger kind s)

/-- With INTl set and a target in the entry, `Trigger` saves PC and PCb, clears MMUe and INTl as the entry asks and jumps; nothing else changes
(60_exceptions.md sections 3 and 5; the entry's bit positions are decision D16, the address wrap D29, the kind's range D18). -/
def Obligations.TriggerDispatchesThroughTheTable : Prop :=
  ∀ (s : State) (kind : Kind), s.get .intl ≠ 0 → ¬ IsSentinel (entryValue s kind) →
    Dispatched (entryValue s kind) s (State.trigger kind s)

/-- With INTl set and a sentinel entry: another kind than EXCEPT saves PC and PCb, does the entry's flag clears, sets EXC = 1 and triggers EXCEPT; the
EXCEPT kind itself saves PC and PCb and resets the machine with EXC = 1 (60_exceptions.md section 5; KIND_EXCEPT = 0 is decision D18, the guard
D19, log entry 12). -/
def Obligations.SentinelEntryFallsBack : Prop :=
  ∀ (s : State) (kind : Kind), s.get .intl ≠ 0 → IsSentinel (entryValue s kind) →
    (kind.toNat ≠ 0 →
      ∃ u : State, State.trigger kind s = State.trigger 0 u ∧
        u.get .rtip = s.get .pc ∧ u.get .rtib = s.get .pcb ∧ (u.get .exc).toNat = 1 ∧
        u.get .mmue = (if entryValue s kind / 1048576 % 2 = 1 then 0 else s.get .mmue) ∧
        u.get .intl = (if entryValue s kind / 2097152 % 2 = 1 then 0 else s.get .intl) ∧
        (∀ j, j ∉ [Slot.rtip, .rtib, .exc, .mmue, .intl] → u.get j = s.get j) ∧
        (∀ a, u.memRead a = s.memRead a) ∧ u.devices = s.devices) ∧
    (kind.toNat = 0 →
      ResetTo 1 ((s.set .rtib (s.get .pcb)).set .rtip (s.get .pc)) (State.trigger kind s))

/-- The recursion guard cannot be observed: any bound of two rounds or more on the source's recursion gives the same state (60_exceptions.md R211's
derivation; decision D19, log entry 12). -/
def Obligations.RecursionBoundIsUnobservable : Prop :=
  ∀ (n : Nat) (kind : Kind) (s : State), triggerBounded (n + 2) kind s = State.trigger kind s

/-- The page-access violation at `a`: EXC = 2, R0 = offset, R1 = bank and the EXCEPT kind dispatched; with INTl clear the machine is reset with EXC = 1
and R0, R1 keep the address; with the EXCEPT entry a sentinel the same, PC and PCb saved (60_exceptions.md section 2; decisions D16, D18, D19,
D34). -/
def Obligations.PageAccessViolation : Prop :=
  ∀ (s : State) (a : Addr),
    let u := ((s.set .exc 2).set .r0 (BitVec.ofNat 20 a.offset.toNat)).set .r1 (BitVec.ofNat 20 a.bank.toNat)
    (s.get .intl = 0 → ResetTo 1 u (s.pageAV a)) ∧
    (s.get .intl ≠ 0 → ¬ IsSentinel (entryValue s 0) → Dispatched (entryValue s 0) u (s.pageAV a)) ∧
    (s.get .intl ≠ 0 → IsSentinel (entryValue s 0) →
      ResetTo 1 ((u.set .rtib (s.get .pcb)).set .rtip (s.get .pc)) (s.pageAV a))

/-- Return is software: after a dispatch, `mov pc, rtip` puts PC back to the value it had at the interrupt and changes nothing else, so PCb is back as well
when the handler's bank is the interrupted one, and MMUe and INTl stay as the entry left them (60_exceptions.md section 6). -/
def Obligations.SoftwareReturnRestoresPc : Prop :=
  ∀ (s : State) (kind : Kind), s.get .intl ≠ 0 → ¬ IsSentinel (entryValue s kind) →
    ∃ t, exec (.mov .pc .rtip) (State.trigger kind s) = .next t ∧ t.get .pc = s.get .pc ∧
      ((s.get .pcb).toNat = entryValue s kind / 65536 % 16 → t.get .pcb = s.get .pcb) ∧
      (∀ j, j ≠ Slot.pc → t.get j = (State.trigger kind s).get j) ∧ t.mem = s.mem ∧ t.devices = s.devices

/-! ### Invariants and whole-machine rules -/

/-- INVARIANT: every move (step, trigger, reset, host write, host poke) keeps the RAM's canonical form. -/
def Obligations.EveryMoveKeepsMemoryCanonical : Prop :=
  ∀ (m : Move) (s t : State), s.Canonical → m.apply s = .next t → t.Canonical

/-- The state after reset meets the invariants: the RAM is canonical and no slot holds a bit above the sixteenth (the slots without a reset value in the
spec are the model's choice, log entry 1). -/
def Obligations.ResetStateMeetsTheInvariants : Prop := State.reset.Canonical ∧ State.reset.SixteenBit

/-- INVARIANT: "bits 19:16 of a slot are nonzero only if the power-on state, the host port or a mov from such a slot put them there" (10_state.md): once
no slot holds such a bit, no step, trigger or reset makes one. -/
def Obligations.SlotsStaySixteenBit : Prop :=
  ∀ (m : Move) (s t : State), s.SixteenBit → (∀ i v, m ≠ .hostSet i v) → m.apply s = .next t → t.SixteenBit

/-- No move but a host write sets INTl: a step, a trigger or a reset leaves it as it is or clears it (10_state.md; decision D27). -/
def Obligations.OnlyTheHostSetsIntl : Prop :=
  ∀ (m : Move) (s t : State), (∀ v, m ≠ .hostSet .intl v) → m.apply s = .next t → t.get .intl = s.get .intl ∨ t.get .intl = 0

/-- While MMUe is set only the host can change MMUp or MMUb, and MMUe itself stays as it is or is cleared by hardware (10_state.md, 60_exceptions.md
section 7). -/
def Obligations.MmuRegistersAreFrozenWhileEnabled : Prop :=
  ∀ (m : Move) (s t : State), s.get .mmue ≠ 0 → (∀ i v, m ≠ .hostSet i v) → m.apply s = .next t →
    t.get .mmup = s.get .mmup ∧ t.get .mmub = s.get .mmub ∧ (t.get .mmue = s.get .mmue ∨ t.get .mmue = 0)

/-- While INTl is set only the host can change INTp or INTb (10_state.md, 60_exceptions.md section 7). -/
def Obligations.InterruptTableIsFrozenWhileEnabled : Prop :=
  ∀ (m : Move) (s t : State), s.get .intl ≠ 0 → (∀ i v, m ≠ .hostSet i v) → m.apply s = .next t →
    t.get .intp = s.get .intp ∧ t.get .intb = s.get .intb

/-- "Writers of Z: only the three flag instructions ..., Reset (FL <- 0), the host port, and any instruction that names FL as its destination register
(FL is never locked)" (10_state.md R17): whenever a move changes FL at all, it was one of these. A reset shows as FL = 0 with PC = 4096 and
PCb = 0. -/
def Obligations.WritersOfTheFlags : Prop :=
  (∀ s : State, s.locked .fl = false) ∧
  (∀ (m : Move) (s t : State), m.apply s = .next t → t.get .fl ≠ s.get .fl →
    (m = .step ∧ ∃ n i, s.MayFetch n ∧ decode (s.codeBytes n) = some (.instr i, []) ∧
      (i = .sez ∨ i = .clz ∨ i = .inz ∨ destOf i = some .fl)) ∨
    (t.get .fl = 0 ∧ t.get .pcb = 0 ∧ (t.get .pc).toNat = 4096 ∧ t.get .mmue = 0 ∧ t.get .intl = 0) ∨
    (∃ v, m = .hostSet .fl v))

/-- "Readers of Z: none. ... The only way a program observes FL is to name it as a source register" (10_state.md R18): of two states that differ only in
FL, a step whose instruction does not name FL as a source, a trigger and a reset leave two states that differ at most in FL. -/
def Obligations.FlagsAreNeverRead : Prop :=
  ∀ (s : State) (v : SlotVal),
    ((∀ n i, decode (s.codeBytes n) = some (.instr i, []) → instrReads .fl i = false) →
      (∀ t, step s = .next t → ∃ t', step (s.set .fl v) = .next t' ∧ SameBut .fl t t') ∧
      (∀ r, step s = .refused r → step (s.set .fl v) = .refused r)) ∧
    (∀ kind, SameBut .fl (State.trigger kind s) (State.trigger kind (s.set .fl v))) ∧
    SameBut .fl s.hardReset (s.set .fl v).hardReset

/-- BP: "No hardware rule reads or writes it except by being named as an instruction operand. Never locked. Not written by reset" (10_state.md R21). A
move other than a host write changes BP only when it is a step of an instruction whose destination is BP; and two states that differ only in BP
still differ at most in BP after a step whose instruction does not name BP as a source, after a trigger and after a reset. -/
def Obligations.BasePointerIsPlainStorage : Prop :=
  (∀ s : State, s.locked .bp = false ∧ s.hardReset.get .bp = s.get .bp) ∧
  (∀ (m : Move) (s t : State), m.apply s = .next t → t.get .bp ≠ s.get .bp →
    (m = .step ∧ ∃ n i, s.MayFetch n ∧ decode (s.codeBytes n) = some (.instr i, []) ∧ destOf i = some .bp) ∨
    (∃ v, m = .hostSet .bp v)) ∧
  (∀ (s : State) (v : SlotVal),
    ((∀ n i, decode (s.codeBytes n) = some (.instr i, []) → instrReads .bp i = false) →
      (∀ t, step s = .next t → ∃ t', step (s.set .bp v) = .next t' ∧ SameBut .bp t t') ∧
      (∀ r, step s = .refused r → step (s.set .bp v) = .refused r)) ∧
    (∀ kind, SameBut .bp (State.trigger kind s) (State.trigger kind (s.set .bp v))) ∧
    SameBut .bp s.hardReset (s.set .bp v).hardReset)

/-- The frame of every instruction at once. Unless an access of a load or store is denied, no slot changes but an unlocked destination register, or FL for a
flag instruction and there the bit Z alone. With a denied access, which takes MMUe set, no slot changes but those a page-access violation writes. Only
stores change memory or the device record, and only at the bytes they store: one at the address the operand gives for sto.b, that one and the next in
the bank for sto.w; a byte that is denied is not stored, and the device record is kept where no stored byte lies in a device window. The second byte of
a sto.w is checked after the first is stored. A store's operand is resolved in the state before its `rs` byte is fetched (decision D24, log entry 6);
bit 0 as Z is decision D6, the wrap of the second byte D29, the stored bits D23 and the kept low byte D33 (log entries 11, 13, 14 and 15). -/
def Obligations.EveryInstructionHasItsFrame : Prop :=
  ∀ (i : Instr) (s t : State), exec i s = .next t →
    let lowDenied : Prop :=
      (∃ rd m a, (i = .lodB rd m ∨ i = .lodW rd m) ∧ s.resolve m = .ok a ∧ s.perm a .read = false) ∨
      (∃ m rs a, (i = .stoB m rs ∨ i = .stoW m rs) ∧ s.beforeRsByte.resolve m = .ok a ∧ s.perm a .write = false)
    let highDenied : Prop :=
      (∃ rd m a, i = .lodW rd m ∧ s.resolve m = .ok a ∧ s.perm (addrPlus a 1) .read = false) ∨
      (∃ m rs a, ∃ lo : Byte, i = .stoW m rs ∧ s.beforeRsByte.resolve m = .ok a ∧ s.perm a .write = true ∧
        lo.toNat = (s.get rs).toNat % 256 ∧ (s.memWrite a lo).perm (addrPlus a 1) .write = false)
    (∀ j, t.get j ≠ s.get j →
      (¬ (lowDenied ∨ highDenied) ∧
        ((destOf i = some j ∧ s.locked j = false) ∨
          (j = .fl ∧ (i = .sez ∨ i = .clz ∨ i = .inz) ∧ ∀ n, n ≠ 0 → (t.get .fl).getLsbD n = (s.get .fl).getLsbD n))) ∨
      ((lowDenied ∨ highDenied) ∧ s.get .mmue ≠ 0 ∧ j ∈ [Slot.pc, .pcb, .exc, .fl, .mmue, .intl, .rtip, .rtib, .r0, .r1])) ∧
    ((∀ m rs, i ≠ .stoB m rs ∧ i ≠ .stoW m rs) → t.mem = s.mem ∧ t.devices = s.devices) ∧
    (∀ m rs a, i = .stoB m rs → s.beforeRsByte.resolve m = .ok a →
      (∀ b, b ≠ a → t.memRead b = s.memRead b) ∧ (¬ InAudio a → ¬ InTimer a → t.devices = s.devices)) ∧
    (∀ m rs a, i = .stoW m rs → s.beforeRsByte.resolve m = .ok a →
      (∀ b, b ≠ a → b ≠ addrPlus a 1 → t.memRead b = s.memRead b) ∧
      (highDenied → ∀ b, b ≠ a → t.memRead b = s.memRead b) ∧
      (¬ InAudio a → ¬ InTimer a → ¬ InAudio (addrPlus a 1) → ¬ InTimer (addrPlus a 1) → t.devices = s.devices)) ∧
    (lowDenied → t.mem = s.mem ∧ t.devices = s.devices)

/-- Every well-formed instruction completes: exec answers a next state in every state (60_exceptions.md section 1: both faults are handled inside the
machine). -/
def Obligations.EveryWellFormedInstructionCompletes : Prop :=
  ∀ (i : Instr) (s : State), i.wellFormed = true → ∃ t, exec i s = .next t

/-- "With the MMU off no fault can occur" (70_reset_and_hazards.md section 2): every byte may be fetched, and a well-formed instruction completes with no
slot changed but its destination, or FL for a flag instruction. -/
def Obligations.WithTheMmuOffNothingTraps : Prop :=
  ∀ s : State, s.get .mmue = 0 →
    (∀ n, s.MayFetch n) ∧
    (∀ i : Instr, i.wellFormed = true → ∃ t, exec i s = .next t ∧
      ∀ j, t.get j ≠ s.get j → destOf i = some j ∨ (j = .fl ∧ (i = .sez ∨ i = .clz ∨ i = .inz)))

/-- ISOLATION: with the MMU on, a step cannot change a byte of a page that lacks W, as long as the page that holds that page's table entry lacks W too
(20_memory.md section 5). -/
def Obligations.PageWithoutWritePermissionIsUnchanged : Prop :=
  ∀ (s t : State) (a : Addr), s.get .mmue ≠ 0 → s.perm a .write = false → s.perm (s.pteAddr a) .write = false →
    step s = .next t → t.memRead a = s.memRead a

/-- NONINTERFERENCE: with the MMU on, a step cannot learn a byte that may be neither read nor fetched and is no byte of the page table nor of the EXCEPT
entry: two states that differ in that byte alone step alike, and differ in that byte alone afterwards (20_memory.md section 5). -/
def Obligations.UnreadableByteDoesNotLeak : Prop :=
  ∀ (s s' : State) (a : Addr), s.Canonical → s'.Canonical → s.regs = s'.regs → s.devices = s'.devices → ReadsAlikeExcept a s s' →
    s.get .mmue ≠ 0 → s.perm a .read = false → s.perm a .exec = false → (∀ b, s.pteAddr b ≠ a) →
    (∀ j : Half, j.toNat < 3 → s.entryAddr 0 j ≠ a) →
    (∀ t, step s = .next t →
      ∃ t', step s' = .next t' ∧ t.regs = t'.regs ∧ t.devices = t'.devices ∧ ReadsAlikeExcept a t t') ∧
    (∀ r, step s = .refused r → step s' = .refused r)

/-! ### The port -/

/-- Replaying the port accesses of a step on the state behind the port gives the memory and the device record the step leaves (20_memory.md section 7;
log entry 17). -/
def Obligations.StepTraceReplaysToTheState : Prop :=
  ∀ s t : State, step s = .next t →
    (s.stepTrace.foldl State.replay s).mem = t.mem ∧ (s.stepTrace.foldl State.replay s).devices = t.devices

/-- A step makes at most 16 port accesses, at most two of them writes, and one Trigger at most six entry reads (40_step_and_resolver.md section 1,
60_exceptions.md section 5). The accesses are those of the model's own functions `stepTrace` and `triggerTrace` (DESIGN CHOICE, log entry 17), and the
numbers 16 and 6 rest on the guard depth of decision D19 (log entry 12): a trigger reads two entries at most. -/
def Obligations.StepTraceIsBounded : Prop :=
  (∀ s : State, s.stepTrace.length ≤ 16 ∧ writeCount s.stepTrace ≤ 2) ∧
  (∀ (kind : Kind) (s : State), (State.triggerTrace kind s).length ≤ 6)

/-- The fetches of an instruction that may be fetched go out in address order, each preceded by its own page-table-entry read when MMUe is set and by
nothing when it is clear (20_memory.md section 7). The order is that of the model's own function `fetchTrace` (DESIGN CHOICE, log entry 17); the offset's
wrap in the bank is decision D5 (log entry 14). -/
def Obligations.FetchesGoOutInAddressOrder : Prop :=
  ∀ (s : State) (n : Nat) (d : Decoded), s.MayFetch n → decode (s.codeBytes n) = some (d, []) →
    Decoder.fetchTrace decoder s =
      (List.range n).flatMap fun j =>
        let a := s.codeAddr (BitVec.ofNat 16 j)
        if s.get .mmue = 0 then [.read a] else [.read (s.pteAddr a), .read a]

/-! ### The assembler and the host port -/

/-- Whatever line the assembler accepts, the bytes it emits decode to one well-formed instruction, whose encoding they are, and whose opcode is an
implemented one (30_encoding.md section 5; that the reserved names are not accepted is decision D8). -/
def Obligations.AssemblerEmitsWhatTheDecoderReads : Prop :=
  ∀ (line : String) (bytes : List Byte), Asm.assemble line = some bytes →
    ∃ i : Instr, i.wellFormed = true ∧ bytes = encode i ∧ decode bytes = some (.instr i, []) ∧ i ∉ reservedInstrs

/-- Example lines of the source with their bytes, and lines that are rejected (30_encoding.md R103; 95_test_vectors.md S8; decision D31, log entry 16). -/
def Obligations.AssemblerExampleLines : Prop :=
  Asm.assemble "imm.b r0, b 5" = some [0x01, 0x10, 0x05] ∧
  Asm.assemble "add r0, r1" = some [0x09, 0x10, 0x11] ∧
  Asm.assemble "lod.b r2,[42]" = some [0x03, 0x12, 0x80, 0x2A, 0x00] ∧
  Asm.assemble "sto.w [sp - 2], r3" = some [0x06, 0xA1, 0x02, 0x00, 0x13] ∧
  Asm.assemble "frobnicate r0" = none ∧
  Asm.assemble "lod.b r0, [pt - 1]" = none ∧
  Asm.assemble "imm.b r0, b 256" = none

/-- The host register port reads back what it wrote in any slot, locked or not, and changes nothing else (00_scope.md section 4; decision D27). -/
def Obligations.HostPortIgnoresTheLock : Prop :=
  ∀ (s : State) (i : Slot) (v : SlotVal),
    ∃ t, (Move.hostSet i v).apply s = .next t ∧ t.hostGet i = v ∧ (∀ j, j ≠ i → t.hostGet j = s.hostGet j) ∧
      t.mem = s.mem ∧ t.devices = s.devices
end

