-- ==== Sys2Proof/Laws/Decode.lean ====
section
/-! SUPPORT. The pieces of the encoding, each with its inverse, and what the decoder's pieces do with the encoder's. -/

namespace Sys2Proof

/-! ### Fields -/

@[simp] theorem slotOfByte_slot (r : Slot) : Decode.slotOfByte (Encode.slot r) = some r := by
  revert r; decide

theorem slot_of_slotOfByte {b : Byte} {r : Slot} (h : Decode.slotOfByte b = some r) : Encode.slot r = b := by
  revert r; revert b; decide

theorem slotOfByte_eq_none {b : Byte} : Decode.slotOfByte b = none ↔ 24 ≤ b.toNat := by
  unfold Decode.slotOfByte
  split <;> simp_all [Config.slotCount]

@[simp] theorem hdrField_hdrByte (im : Bool) (mode : BitVec 3) (f : BitVec 4) : Config.hdrField (Config.hdrByte im mode f) = f := by
  revert im mode f; decide

@[simp] theorem hdrMode_hdrByte (im : Bool) (mode : BitVec 3) (f : BitVec 4) : Config.hdrMode (Config.hdrByte im mode f) = mode := by
  revert im mode f; decide

@[simp] theorem hdrImmediate_hdrByte (im : Bool) (mode : BitVec 3) (f : BitVec 4) :
    Config.hdrImmediate (Config.hdrByte im mode f) = im := by
  revert im mode f; decide

/-- A header byte is its three fields. -/
theorem hdrByte_fields (h : Byte) : Config.hdrByte (Config.hdrImmediate h) (Config.hdrMode h) (Config.hdrField h) = h := by
  revert h; decide

@[simp] theorem modeOfNumber_modeNumber (m : Mode) : Config.modeOfNumber (Config.modeNumber m) = some m := by
  cases m <;> rfl

theorem modeNumber_of_modeOfNumber {n : BitVec 3} {m : Mode} (h : Config.modeOfNumber n = some m) : Config.modeNumber m = n := by
  revert n; cases m <;> decide

/-- A half is its high byte in front of its low byte. -/
@[simp] theorem high_append_low (v : Half) : v.extractLsb' 8 8 ++ v.extractLsb' 0 8 = v := by
  apply BitVec.eq_of_getLsbD_eq
  intro i hi
  simp only [BitVec.getLsbD_append, BitVec.getLsbD_extractLsb']
  by_cases h : i < 8
  · simp [h]
  · have h1 : i - 8 < 8 := by omega
    have h2 : 8 + (i - 8) = i := by omega
    simp [h, h1, h2]

@[simp] theorem low_of_append (hi lo : Byte) : (hi ++ lo : Half).extractLsb' 0 8 = lo := by
  apply BitVec.eq_of_toNat_eq
  have h1 := lo.isLt
  simp only [BitVec.extractLsb'_toNat, BitVec.toNat_append, Nat.shiftRight_zero, Nat.shiftLeft_eq]
  rw [Nat.mul_comm, ← Nat.two_pow_add_eq_or_of_lt h1]
  omega

@[simp] theorem high_of_append (hi lo : Byte) : (hi ++ lo : Half).extractLsb' 8 8 = hi := by
  apply BitVec.eq_of_toNat_eq
  have h1 := lo.isLt
  have h2 := hi.isLt
  simp only [BitVec.extractLsb'_toNat, BitVec.toNat_append, Nat.shiftRight_eq_div_pow, Nat.shiftLeft_eq]
  rw [Nat.mul_comm, ← Nat.two_pow_add_eq_or_of_lt h1]
  omega

/-- The value of a half by its bytes: little-endian (30_encoding.md R74). -/
theorem toNat_append_bytes (hi lo : Byte) : (hi ++ lo : Half).toNat = lo.toNat + 256 * hi.toNat := by
  have h1 := lo.isLt
  rw [BitVec.toNat_append, Nat.shiftLeft_eq, Nat.mul_comm, ← Nat.two_pow_add_eq_or_of_lt h1]
  omega

/-! ### Feeding the decoder's pieces -/

theorem feed_slot (k : Slot → Decoder) (r : Slot) (rest : List Byte) :
    (Decode.slot k).feed (Encode.slot r :: rest) = (k r).feed rest := by
  simp [Decode.slot, Decoder.feed]

theorem feed_imm16 (k : Half → Decoder) (v : Half) (rest : List Byte) :
    (Decode.imm16 k).feed (Encode.imm16 v ++ rest) = (k v).feed rest := by
  simp [Decode.imm16, Encode.imm16, Decoder.feed]

theorem feed_mem (k : MemOperand → Decoder) {m : MemOperand} (hm : m.wellFormed = true) (rest : List Byte) :
    (Decode.mem k).feed (Encode.mem m ++ rest) = (k m).feed rest := by
  obtain ⟨mode, f, src⟩ := m
  cases src with
  | reg r => simp [Encode.mem, Decode.mem, Decoder.feed, Decode.source, feed_slot, hm]
  | imm v => simp [Encode.mem, Decode.mem, Decoder.feed, Decode.source, feed_imm16, hm]

/-- The decoder looks up the opcode byte, then reads the operands of the shape found. -/
theorem decode_cons (op : Byte) (bytes : List Byte) :
    decode (op :: bytes) =
      match Decode.shapeOf op with
      | some shape => (Decode.operands shape).feed bytes
      | none => some (.undefinedOpcode op, bytes) := by
  unfold decode decoder
  rw [Decoder.feed]
  cases Decode.shapeOf op <;> rfl

/-- Opcode bytes from 0x2D on are not in the table (30_encoding.md R92). -/
theorem shapeOf_eq_none {op : Byte} : Decode.shapeOf op = none ↔ 0x2D ≤ op.toNat := by
  unfold Decode.shapeOf
  split <;> simp_all
  omega

/-! ### What the decoder's pieces can answer -/

/-- A register byte is a slot's, or is rejected by name. -/
theorem feed_slot_cases {k : Slot → Decoder} {bytes : List Byte} {x : Decoded × List Byte} (h : (Decode.slot k).feed bytes = some x) :
    (∃ r rest, bytes = Encode.slot r :: rest ∧ (k r).feed rest = some x) ∨
    (∃ b rest, bytes = b :: rest ∧ 24 ≤ b.toNat ∧ x = (.reject .slotOutOfFile, rest)) := by
  cases bytes with
  | nil => simp [Decode.slot, Decoder.feed] at h
  | cons b rest =>
    simp only [Decode.slot, Decoder.feed] at h
    rcases e : Decode.slotOfByte b with _ | r
    · simp only [e, Decoder.feed, Option.some.injEq] at h
      exact .inr ⟨b, rest, rfl, slotOfByte_eq_none.1 e, h.symm⟩
    · simp only [e] at h
      exact .inl ⟨r, rest, by rw [slot_of_slotOfByte e], h⟩

theorem feed_imm8_cases {k : Byte → Decoder} {bytes : List Byte} {x : Decoded × List Byte} (h : (Decode.imm8 k).feed bytes = some x) :
    ∃ v rest, bytes = v :: rest ∧ (k v).feed rest = some x := by
  rcases bytes with _ | ⟨v, rest⟩
  · simp [Decode.imm8, Decoder.feed] at h
  · exact ⟨v, rest, rfl, h⟩

theorem feed_imm16_cases {k : Half → Decoder} {bytes : List Byte} {x : Decoded × List Byte} (h : (Decode.imm16 k).feed bytes = some x) :
    ∃ v rest, bytes = Encode.imm16 v ++ rest ∧ (k v).feed rest = some x := by
  rcases bytes with _ | ⟨lo, _ | ⟨hi, rest⟩⟩
  · simp [Decode.imm16, Decoder.feed] at h
  · simp [Decode.imm16, Decoder.feed] at h
  · exact ⟨hi ++ lo, rest, by simp [Encode.imm16], by simpa [Decode.imm16, Decoder.feed] using h⟩

/-- A memory operand inside an instruction that decodes is well formed, and its bytes are its encoding. -/
theorem feed_mem_instr {k : MemOperand → Decoder} {bytes rest : List Byte} {i : Instr} (h : (Decode.mem k).feed bytes = some (.instr i, rest)) :
    ∃ m more, bytes = Encode.mem m ++ more ∧ m.wellFormed = true ∧ (k m).feed more = some (.instr i, rest) := by
  rcases bytes with _ | ⟨hd, bytes⟩
  · simp [Decode.mem, Decoder.feed] at h
  simp only [Decode.mem, Decoder.feed] at h
  have tail : ∀ (src : Source) (more : List Byte),
      (match Config.modeOfNumber (Config.hdrMode hd) with
        | none => Decoder.done (.reject .reservedMode)
        | some mode =>
          let m : MemOperand := { mode := mode, f := Config.hdrField hd, src := src }
          if m.wellFormed then k m else .done (.reject .indexOutOfFile)).feed more = some (.instr i, rest) →
      ∃ m : MemOperand, m.wellFormed = true ∧ (k m).feed more = some (.instr i, rest) ∧ m.src = src ∧
        Config.hdrByte (Config.hdrImmediate hd) (Config.modeNumber m.mode) m.f = hd := by
    intro src more h
    rcases e : Config.modeOfNumber (Config.hdrMode hd) with _ | mode
    · simp [e, Decoder.feed] at h
    · simp only [e] at h
      split at h
      · next hw => exact ⟨_, hw, h, rfl, by rw [modeNumber_of_modeOfNumber e]; exact hdrByte_fields hd⟩
      · simp [Decoder.feed] at h
  unfold Decode.source at h
  split at h
  · next hi =>
    obtain ⟨v, more, rfl, h⟩ := feed_imm16_cases h
    obtain ⟨m, hw, hk, hs, hh⟩ := tail _ _ h
    rw [hi] at hh
    exact ⟨m, more, by simp [Encode.mem, hs, hh], hw, hk⟩
  · next hi =>
    rw [Bool.not_eq_true] at hi
    obtain ⟨r, more, rfl, h'⟩ | ⟨b, more, rfl, _, h'⟩ := feed_slot_cases h
    · obtain ⟨m, hw, hk, hs, hh⟩ := tail (.reg r) more h'
      rw [hi] at hh
      exact ⟨m, more, by simp [Encode.mem, hs, hh], hw, hk⟩
    · cases h'

/-! ### The opcode table read both ways -/

/-- A shape builds the instructions whose opcode byte is `op`, with the operand bytes of the shape in its order. -/
def Shape.Encodes (op : Byte) : Shape → Prop
  | .N i => Encode.opcode i = op ∧ Encode.operands i = [] ∧ i.wellFormed = true
  | .R mk => ∀ rd, Encode.opcode (mk rd) = op ∧ Encode.operands (mk rd) = [Encode.slot rd] ∧ (mk rd).wellFormed = true
  | .RR mk => ∀ rd rs,
    Encode.opcode (mk rd rs) = op ∧ Encode.operands (mk rd rs) = [Encode.slot rd, Encode.slot rs] ∧ (mk rd rs).wellFormed = true
  | .RI8 mk => ∀ rd v, Encode.opcode (mk rd v) = op ∧ Encode.operands (mk rd v) = [Encode.slot rd, v] ∧ (mk rd v).wellFormed = true
  | .RI16 mk => ∀ rd v,
    Encode.opcode (mk rd v) = op ∧ Encode.operands (mk rd v) = Encode.slot rd :: Encode.imm16 v ∧ (mk rd v).wellFormed = true
  | .RM mk => ∀ rd m,
    Encode.opcode (mk rd m) = op ∧ Encode.operands (mk rd m) = Encode.slot rd :: Encode.mem m ∧ (mk rd m).wellFormed = m.wellFormed
  | .MR mk => ∀ m rs,
    Encode.opcode (mk m rs) = op ∧ Encode.operands (mk m rs) = Encode.mem m ++ [Encode.slot rs] ∧ (mk m rs).wellFormed = m.wellFormed

theorem shapeOf_encodes {op : Byte} {shape : Shape} (h : Decode.shapeOf op = some shape) : Shape.Encodes op shape := by
  unfold Decode.shapeOf at h
  split at h <;> first | (cases h; done) | skip
  all_goals
    next e =>
      cases h
      have e := congrArg (BitVec.ofNat 8) e
      rw [BitVec.ofNat_toNat, BitVec.setWidth_eq] at e
      subst e
      first | exact ⟨rfl, rfl, rfl⟩ | exact fun _ => ⟨rfl, rfl, rfl⟩ | exact fun _ _ => ⟨rfl, rfl, rfl⟩

/-- With its shape known, the opcode byte is followed by the shape's operands. -/
theorem decode_of_shape {op : Byte} {shape : Shape} (h : Decode.shapeOf op = some shape) (bytes : List Byte) :
    decode (op :: bytes) = (Decode.operands shape).feed bytes := by
  rw [decode_cons, h]

end Sys2Proof
end

