-- ==== Sys2Proof/Laws/State.lean ====
section
/-! SUPPORT. Small lemmas of the state: one per field per update, and what reading a slot gives after each update. -/

namespace Sys2Proof.Machine

variable (s t : State) (i j : Slot) (v w : SlotVal) (a b : Addr) (n m : Half)

/-! ### Slot write -/

@[simp] theorem State.set_mem : (s.set i v).mem = s.mem := rfl
@[simp] theorem State.set_devices : (s.set i v).devices = s.devices := rfl

theorem State.get_set : (s.set i v).get j = if i = j then v else s.get j := by
  simp only [State.get, State.set, Vector.getElem_set, Fin.ext_iff]

@[simp] theorem State.get_set_self : (s.set i v).get i = v := by simp [State.get_set]

theorem State.get_set_ne {s : State} {i j : Slot} {v : SlotVal} (h : i ≠ j) : (s.set i v).get j = s.get j := by
  simp [State.get_set, h]

@[simp] theorem State.set_set : (s.set i v).set i w = s.set i w := by
  simp [State.set]

theorem State.set_comm {i j : Slot} (h : i ≠ j) : (s.set i v).set j w = (s.set j w).set i v := by
  simp only [State.set, State.mk.injEq, and_self, and_true]
  exact Vector.set_comm _ _ (fun e => h (Fin.ext e))

/-- Two states are equal when every slot, the RAM and the device record are. -/
theorem State.ext_get {s t : State} (hr : ∀ i, s.get i = t.get i) (hm : s.mem = t.mem) (hd : s.devices = t.devices) : s = t := by
  obtain ⟨r, m, d⟩ := s
  obtain ⟨r', m', d'⟩ := t
  simp only at hm hd
  subst hm hd
  have : r = r' := Vector.ext fun k hk => hr ⟨k, hk⟩
  rw [this]

theorem State.regs_eq_iff : s.regs = t.regs ↔ ∀ i, s.get i = t.get i :=
  ⟨fun h i => by simp [State.get, h], fun h => Vector.ext fun k hk => h ⟨k, hk⟩⟩

/-- Writing back what a slot holds changes nothing. -/
@[simp] theorem State.set_get_self : s.set i (s.get i) = s :=
  State.ext_get (fun j => by rw [State.get_set]; split <;> simp_all) rfl rfl

/-! ### Forwarding and the memory port -/

@[simp] theorem State.forward_regs (d : DeviceWrite) : (s.forward d).regs = s.regs := rfl
@[simp] theorem State.forward_mem (d : DeviceWrite) : (s.forward d).mem = s.mem := rfl
@[simp] theorem State.forward_devices (d : DeviceWrite) : (s.forward d).devices = s.devices ++ [d] := rfl

@[simp] theorem State.memWrite_regs (x : Byte) : (s.memWrite a x).regs = s.regs := by
  unfold State.memWrite; split <;> rfl

@[simp] theorem State.get_memWrite (x : Byte) : (s.memWrite a x).get i = s.get i := by
  simp [State.get]

@[simp] theorem State.memRead_set : (s.set i v).memRead a = s.memRead a := rfl

theorem State.memRead_congr {s t : State} (h : s.mem = t.mem) (a : Addr) : s.memRead a = t.memRead a := by
  simp [State.memRead, h]

@[simp] theorem State.offOf_memWrite (x : Byte) : (s.memWrite a x).offOf i = s.offOf i := by simp [State.offOf]
@[simp] theorem State.bankOf_memWrite (x : Byte) : (s.memWrite a x).bankOf i = s.bankOf i := by simp [State.bankOf]
@[simp] theorem State.flagOf_memWrite (x : Byte) : (s.memWrite a x).flagOf i = s.flagOf i := by simp [State.flagOf]
@[simp] theorem State.pteAddr_memWrite (x : Byte) : (s.memWrite a x).pteAddr b = s.pteAddr b := by simp [State.pteAddr]
@[simp] theorem State.entryAddr_memWrite (x : Byte) (k : Kind) : (s.memWrite a x).entryAddr k n = s.entryAddr k n := by
  simp [State.entryAddr]

/-! ### Moving PC on -/

@[simp] theorem State.advance_mem : (s.advance n).mem = s.mem := rfl
@[simp] theorem State.advance_devices : (s.advance n).devices = s.devices := rfl
@[simp] theorem State.memRead_advance : (s.advance n).memRead a = s.memRead a := rfl

/-! ### Views -/

@[simp] theorem off_ofHalf (x : Half) : off (ofHalf x) = x := by
  apply BitVec.eq_of_toNat_eq
  have := x.isLt
  simp only [off, ofHalf, BitVec.extractLsb'_toNat, BitVec.toNat_setWidth, Nat.shiftRight_zero]
  omega

@[simp] theorem bnk_ofBank (x : Bank) : bnk (ofBank x) = x := by
  apply BitVec.eq_of_toNat_eq
  have := x.isLt
  simp only [bnk, ofBank, BitVec.extractLsb'_toNat, BitVec.toNat_setWidth, Nat.shiftRight_zero]
  omega

@[simp] theorem toNat_ofHalf (x : Half) : (ofHalf x).toNat = x.toNat := by
  have := x.isLt
  simp only [ofHalf, BitVec.toNat_setWidth]
  omega

@[simp] theorem toNat_ofByte (x : Byte) : (ofByte x).toNat = x.toNat := by
  have := x.isLt
  simp only [ofByte, BitVec.toNat_setWidth]
  omega

@[simp] theorem toNat_ofBank (x : Bank) : (ofBank x).toNat = x.toNat := by
  have := x.isLt
  simp only [ofBank, BitVec.toNat_setWidth]
  omega

@[simp] theorem toNat_zext16 (x : Byte) : (zext16 x).toNat = x.toNat := by
  have := x.isLt
  simp only [zext16, BitVec.toNat_setWidth]
  omega

theorem toNat_off (x : SlotVal) : (off x).toNat = x.toNat % 65536 := by
  simp only [off, BitVec.extractLsb'_toNat, Nat.shiftRight_zero]

theorem toNat_bnk (x : SlotVal) : (bnk x).toNat = x.toNat % 16 := by
  simp only [bnk, BitVec.extractLsb'_toNat, Nat.shiftRight_zero]

theorem flag_eq_true_iff (x : SlotVal) : flag x = true ↔ x ≠ 0 := by simp [flag]
theorem flag_eq_false_iff (x : SlotVal) : flag x = false ↔ x = 0 := by simp [flag]

@[simp] theorem flag_zero : flag 0 = false := rfl

theorem State.get_advance : (s.advance n).get j = if Slot.pc = j then ofHalf (s.offOf .pc + n) else s.get j := by
  simp [State.advance, State.get_set]

theorem State.get_advance_ne {s : State} {n : Half} {j : Slot} (h : j ≠ .pc) : (s.advance n).get j = s.get j := by
  simp [State.get_advance, Ne.symm h]

@[simp] theorem State.offOf_pc_advance : (s.advance n).offOf .pc = s.offOf .pc + n := by
  simp [State.advance, State.offOf]

/-- Moving on twice is moving on by the sum. -/
@[simp] theorem State.advance_advance : (s.advance n).advance m = s.advance (n + m) := by
  rw [State.advance, State.offOf_pc_advance]
  simp [State.advance, BitVec.add_assoc]

theorem State.offOf_set_ne {s : State} {i j : Slot} {v : SlotVal} (h : i ≠ j) : (s.set i v).offOf j = s.offOf j := by
  simp [State.offOf, State.get_set_ne h]
theorem State.bankOf_set_ne {s : State} {i j : Slot} {v : SlotVal} (h : i ≠ j) : (s.set i v).bankOf j = s.bankOf j := by
  simp [State.bankOf, State.get_set_ne h]
theorem State.flagOf_set_ne {s : State} {i j : Slot} {v : SlotVal} (h : i ≠ j) : (s.set i v).flagOf j = s.flagOf j := by
  simp [State.flagOf, State.get_set_ne h]

@[simp] theorem State.offOf_set_self : (s.set i v).offOf i = off v := by simp [State.offOf]
@[simp] theorem State.bankOf_set_self : (s.set i v).bankOf i = bnk v := by simp [State.bankOf]
@[simp] theorem State.flagOf_set_self : (s.set i v).flagOf i = flag v := by simp [State.flagOf]

theorem State.codeAddr_advance : (s.advance n).codeAddr m = s.codeAddr (n + m) := by
  simp [State.codeAddr, State.advance, State.bankOf_set_ne (show Slot.pc ≠ Slot.pcb by decide), BitVec.add_assoc]

end Sys2Proof.Machine
end

