-- ==== Sys2Proof/Laws/Memory.lean ====
section
/-! SUPPORT. The RAM's list: reading after writing, and that writing keeps the canonical form. -/

namespace Sys2Proof.Machine

theorem Memory.read_cons (k : Nat) (v : Byte) (m : Memory) (j : Nat) :
    Memory.read ((k, v) :: m) j = if j = k then v else Memory.read m j := rfl

/-- A byte at another key reads as before, whatever the form of the list. -/
theorem Memory.read_write_ne (m : Memory) {k j : Nat} (v : Byte) (h : j ≠ k) :
    Memory.read (Memory.write m k v) j = Memory.read m j := by
  have hc (rest : Memory) : Memory.read (Memory.cons k v rest) j = Memory.read rest j := by
    unfold Memory.cons; split <;> simp [Memory.read_cons, h]
  induction m with
  | nil => exact hc []
  | cons c rest ih =>
    obtain ⟨k', w⟩ := c
    simp only [Memory.write]
    split
    · exact hc _
    · split
      · next e => rw [hc, Memory.read_cons, if_neg (e ▸ h)]
      · simp only [Memory.read_cons, ih]

theorem Memory.wfFrom_mono {lo hi : Nat} {m : Memory} (h : lo ≤ hi) (hm : Memory.wfFrom hi m = true) : Memory.wfFrom lo m = true := by
  cases m with
  | nil => rfl
  | cons c rest =>
    simp only [Memory.wfFrom, Bool.and_eq_true, decide_eq_true_eq] at hm ⊢
    exact ⟨⟨⟨le_trans h hm.1.1.1, hm.1.1.2⟩, hm.1.2⟩, hm.2⟩

/-- Below the first key of a canonical list nothing is listed. -/
theorem Memory.read_of_lt {lo j : Nat} {m : Memory} (hm : Memory.wfFrom lo m = true) (h : j < lo) :
    Memory.read m j = Config.unlistedByte := by
  induction m generalizing lo with
  | nil => rfl
  | cons c rest ih =>
    simp only [Memory.wfFrom, Bool.and_eq_true, decide_eq_true_eq] at hm
    rw [Memory.read_cons, if_neg (by omega)]
    exact ih hm.2 (by omega)

/-- Reading the key just written gives the value written. -/
theorem Memory.read_write_self {lo : Nat} {m : Memory} (hm : Memory.wfFrom lo m = true) (k : Nat) (v : Byte) :
    Memory.read (Memory.write m k v) k = v := by
  have hc (rest : Memory) (hr : v = Config.unlistedByte → Memory.read rest k = Config.unlistedByte) :
      Memory.read (Memory.cons k v rest) k = v := by
    unfold Memory.cons
    split
    · next e => rw [hr e, e]
    · simp [Memory.read_cons]
  induction m generalizing lo with
  | nil => exact hc [] fun _ => rfl
  | cons c rest ih =>
    obtain ⟨k', w⟩ := c
    have hm' := hm
    simp only [Memory.wfFrom, Bool.and_eq_true, decide_eq_true_eq] at hm
    simp only [Memory.write]
    split
    · refine hc _ fun _ => ?_
      rw [Memory.read_cons, if_neg (by omega)]
      exact Memory.read_of_lt hm.2 (by omega)
    · split
      · next e => exact hc _ fun _ => Memory.read_of_lt hm.2 (by omega)
      · rw [Memory.read_cons, if_neg ‹_›]
        exact ih hm.2

theorem Memory.wfFrom_write {lo k : Nat} {m : Memory} (hm : Memory.wfFrom lo m = true) (hk : Config.region k = .ram) (hlo : lo ≤ k)
    (v : Byte) : Memory.wfFrom lo (Memory.write m k v) = true := by
  have hc {lo : Nat} (rest : Memory) (h : lo ≤ k) (hr : Memory.wfFrom (k + 1) rest = true) :
      Memory.wfFrom lo (Memory.cons k v rest) = true := by
    unfold Memory.cons
    split
    · exact Memory.wfFrom_mono (by omega) hr
    · simp_all [Memory.wfFrom]
  induction m generalizing lo with
  | nil => exact hc [] hlo rfl
  | cons c rest ih =>
    obtain ⟨k', w⟩ := c
    have hm' := hm
    simp only [Memory.wfFrom, Bool.and_eq_true, decide_eq_true_eq] at hm
    simp only [Memory.write]
    split
    · refine hc _ hlo ?_
      simp only [Memory.wfFrom, Bool.and_eq_true, decide_eq_true_eq]
      exact ⟨⟨⟨by omega, hm.1.1.2⟩, hm.1.2⟩, hm.2⟩
    · split
      · next e => subst e; exact hc _ hlo hm.2
      · simp only [Memory.wfFrom, Bool.and_eq_true, decide_eq_true_eq]
        exact ⟨⟨⟨hm.1.1.1, hm.1.1.2⟩, hm.1.2⟩, ih hm.2 (by omega)⟩

/-- Writing a byte of RAM keeps the canonical form. -/
theorem Memory.wf_write {m : Memory} (hm : Memory.wf m = true) {k : Nat} (hk : Config.region k = .ram) (v : Byte) :
    Memory.wf (Memory.write m k v) = true := Memory.wfFrom_write hm hk (Nat.zero_le k) v

/-- Two canonical memories that read alike are the same list. -/
theorem Memory.ext_of_read {lo : Nat} {m n : Memory} (hm : Memory.wfFrom lo m = true) (hn : Memory.wfFrom lo n = true)
    (h : ∀ j, Memory.read m j = Memory.read n j) : m = n := by
  induction m generalizing lo n with
  | nil =>
    cases n with
    | nil => rfl
    | cons c rest =>
      obtain ⟨k, w⟩ := c
      simp only [Memory.wfFrom, Bool.and_eq_true, decide_eq_true_eq] at hn
      have := h k
      simp only [Memory.read, if_true] at this
      exact absurd this.symm hn.1.2
  | cons c rest ih =>
    obtain ⟨k, w⟩ := c
    cases n with
    | nil =>
      simp only [Memory.wfFrom, Bool.and_eq_true, decide_eq_true_eq] at hm
      have := h k
      simp only [Memory.read, if_true] at this
      exact absurd this hm.1.2
    | cons c' rest' =>
      obtain ⟨k', w'⟩ := c'
      simp only [Memory.wfFrom, Bool.and_eq_true, decide_eq_true_eq] at hm hn
      have hk : k = k' := by
        rcases Nat.lt_trichotomy k k' with hlt | he | hgt
        · have := h k
          rw [Memory.read_cons, if_pos rfl, Memory.read_cons, if_neg (by omega), Memory.read_of_lt hn.2 (by omega)] at this
          exact absurd this hm.1.2
        · exact he
        · have := h k'
          rw [Memory.read_cons, if_neg (by omega), Memory.read_cons, if_pos rfl, Memory.read_of_lt hm.2 (by omega)] at this
          exact absurd this.symm hn.1.2
      subst hk
      have hw : w = w' := by simpa [Memory.read_cons] using h k
      subst hw
      congr 1
      refine ih hm.2 hn.2 fun j => ?_
      by_cases hj : j = k
      · subst hj; rw [Memory.read_of_lt hm.2 (by omega), Memory.read_of_lt hn.2 (by omega)]
      · simpa [Memory.read_cons, hj] using h j

/-! ### The map -/

theorem region_eq_ram {k : Nat} : Config.region k = .ram ↔ k < 0x2000 := by
  unfold Config.region Config.ramEnd Config.audioEnd Config.timerEnd
  repeat' split
  all_goals simp; try omega

theorem region_eq_audio {k : Nat} : Config.region k = .audio ↔ 0x2000 ≤ k ∧ k < 0x3000 := by
  unfold Config.region Config.ramEnd Config.audioEnd Config.timerEnd
  repeat' split
  all_goals simp; try omega

theorem region_eq_timer {k : Nat} : Config.region k = .timer ↔ 0x3000 ≤ k ∧ k < 0x4000 := by
  unfold Config.region Config.ramEnd Config.audioEnd Config.timerEnd
  repeat' split
  all_goals simp; try omega

theorem region_eq_unmapped {k : Nat} : Config.region k = .unmapped ↔ 0x4000 ≤ k := by
  unfold Config.region Config.ramEnd Config.audioEnd Config.timerEnd
  repeat' split
  all_goals simp; try omega

theorem key_eq (a : Addr) : key a = a.bank.toNat * 65536 + a.offset.toNat := rfl

/-! ### The port -/

/-- An address is determined by its key. -/
theorem key_inj {a b : Addr} : key a = key b ↔ a = b := by
  constructor
  · intro h
    obtain ⟨ab, ao⟩ := a
    obtain ⟨bb, bo⟩ := b
    simp only [key, Config.bankBytes] at h
    have h1 := ao.isLt
    have h2 := bo.isLt
    have hb : ab = bb := BitVec.eq_of_toNat_eq (by omega)
    have ho : ao = bo := BitVec.eq_of_toNat_eq (by omega)
    rw [hb, ho]
  · rintro rfl; rfl

/-- A raw write leaves every other address as it read. -/
theorem State.memRead_memWrite_ne (s : State) {a b : Addr} (v : Byte) (h : b ≠ a) : (s.memWrite a v).memRead b = s.memRead b := by
  unfold State.memWrite
  split
  · have hk : key b ≠ key a := fun e => h (key_inj.1 e)
    simp only [State.memRead, Memory.read_write_ne _ _ hk]
  · rfl
  · rfl
  · rfl

/-- What an address reads after a raw write to it: the byte in RAM, 0 anywhere else. -/
theorem State.memRead_memWrite_self {s : State} (hs : Memory.wf s.mem = true) (a : Addr) (v : Byte) :
    (s.memWrite a v).memRead a = if Config.region (key a) = .ram then v else 0 := by
  rcases h : Config.region (key a) with _ | _ | _ | _
  · simp [State.memWrite, State.memRead, h, Memory.read_write_self hs]
  all_goals simp [State.memRead, h]

/-- A raw write keeps the canonical form. -/
theorem State.memWrite_wf {s : State} (hs : Memory.wf s.mem = true) (a : Addr) (v : Byte) : Memory.wf (s.memWrite a v).mem = true := by
  unfold State.memWrite
  split
  · next h => exact Memory.wf_write hs h v
  all_goals exact hs

/-- Outside RAM every address reads 0. -/
theorem State.memRead_of_not_ram {s : State} {a : Addr} (h : Config.region (key a) ≠ .ram) : s.memRead a = 0 := by
  unfold State.memRead
  split <;> simp_all

/-- What one raw write does, by what stands behind the address. -/
theorem State.memWrite_cases (s : State) (a : Addr) (v : Byte) :
    (Config.region (key a) = .ram ∧ s.memWrite a v = { s with mem := Memory.write s.mem (key a) v }) ∨
    (Config.region (key a) = .audio ∧
      s.memWrite a v = s.forward { chip := .audio, offset := a.offset - Config.audioBase, value := v }) ∨
    (Config.region (key a) = .timer ∧
      s.memWrite a v = s.forward { chip := .timer, offset := a.offset - Config.timerBase, value := v }) ∨
    (Config.region (key a) = .unmapped ∧ s.memWrite a v = s) := by
  rcases h : Config.region (key a) with _ | _ | _ | _ <;> simp [State.memWrite, h]

end Sys2Proof.Machine
end

