-- ==== Sys2Proof/Laws/Ops.lean ====
section
/-! SUPPORT. What each shared operation can do, said once: the destination write, the permission check, Reset, Trigger, the page-access violation. -/

namespace Sys2Proof.Machine

/-! ### The destination write -/

theorem State.writeDest_of_locked {s : State} {i : Slot} (h : s.locked i = true) (v : SlotVal) : s.writeDest i v = s := by
  simp [State.writeDest, h]

theorem State.writeDest_of_unlocked {s : State} {i : Slot} (h : s.locked i = false) (v : SlotVal) : s.writeDest i v = s.set i v := by
  simp [State.writeDest, h]

@[simp] theorem State.writeDest_mem (s : State) (i : Slot) (v : SlotVal) : (s.writeDest i v).mem = s.mem := by
  unfold State.writeDest; split <;> rfl

@[simp] theorem State.writeDest_devices (s : State) (i : Slot) (v : SlotVal) : (s.writeDest i v).devices = s.devices := by
  unfold State.writeDest; split <;> rfl

@[simp] theorem State.memRead_writeDest (s : State) (i : Slot) (v : SlotVal) (a : Addr) : (s.writeDest i v).memRead a = s.memRead a :=
  State.memRead_congr (by simp) a

theorem State.get_writeDest_self (s : State) (i : Slot) (v : SlotVal) :
    (s.writeDest i v).get i = if s.locked i then s.get i else v := by
  unfold State.writeDest; split <;> simp

theorem State.get_writeDest_ne (s : State) {i j : Slot} (v : SlotVal) (h : j ≠ i) : (s.writeDest i v).get j = s.get j := by
  unfold State.writeDest
  split
  · rfl
  · exact State.get_set_ne (Ne.symm h)

/-- The three reasons for a lock. -/
theorem State.locked_intl (s : State) : s.locked .intl = true := rfl
theorem State.locked_of_mmue {s : State} (h : s.flagOf .mmue = true) {i : Slot} (hi : i = .mmub ∨ i = .mmup ∨ i = .mmue) : s.locked i = true := by
  rcases hi with rfl | rfl | rfl <;> simp [State.locked, h]
theorem State.locked_of_intl {s : State} (h : s.flagOf .intl = true) {i : Slot} (hi : i = .intb ∨ i = .intp ∨ i = .intl) : s.locked i = true := by
  rcases hi with rfl | rfl | rfl <;> simp [State.locked, h]

/-- INTl is always locked. -/
@[simp] theorem State.writeDest_intl (s : State) (v : SlotVal) : s.writeDest .intl v = s :=
  State.writeDest_of_locked s.locked_intl v

/-- No destination write changes a register of the MMU group while MMUe is set. -/
theorem State.get_writeDest_mmu {s : State} (h : s.flagOf .mmue = true) (i : Slot) (v : SlotVal) {j : Slot}
    (hj : j = .mmub ∨ j = .mmup ∨ j = .mmue) : (s.writeDest i v).get j = s.get j := by
  by_cases e : j = i
  · subst e
    rw [State.writeDest_of_locked]
    exact State.locked_of_mmue h hj
  · exact State.get_writeDest_ne s v e

/-- No destination write changes a register of the interrupt group while INTl is set. -/
theorem State.get_writeDest_int {s : State} (h : s.flagOf .intl = true) (i : Slot) (v : SlotVal) {j : Slot}
    (hj : j = .intb ∨ j = .intp ∨ j = .intl) : (s.writeDest i v).get j = s.get j := by
  by_cases e : j = i
  · subst e
    rw [State.writeDest_of_locked]
    exact State.locked_of_intl h hj
  · exact State.get_writeDest_ne s v e

@[simp] theorem State.get_intl_writeDest (s : State) (i : Slot) (v : SlotVal) : (s.writeDest i v).get .intl = s.get .intl := by
  by_cases e : Slot.intl = i
  · subst e; simp
  · exact State.get_writeDest_ne s v e

/-! ### The permission check -/

theorem State.perm_of_mmu_off {s : State} (h : s.flagOf .mmue = false) (a : Addr) (need : Access) : s.perm a need = true := by
  simp [State.perm, h]

theorem State.perm_of_mmu_on {s : State} (h : s.flagOf .mmue = true) (a : Addr) (need : Access) :
    s.perm a need = (s.pte a).getLsbD (Config.permBit need) := by
  simp [State.perm, h]

theorem State.readProt_ok {s : State} {a : Addr} (h : s.perm a .read = true) : s.readProt a = .ok (s.memRead a) := by
  simp [State.readProt, h]
theorem State.readProt_error {s : State} {a : Addr} (h : s.perm a .read = false) : s.readProt a = .error a := by
  simp [State.readProt, h]
theorem State.writeProt_ok {s : State} {a : Addr} (h : s.perm a .write = true) (v : Byte) : s.writeProt a v = .ok (s.memWrite a v) := by
  simp [State.writeProt, h]
theorem State.writeProt_error {s : State} {a : Addr} (h : s.perm a .write = false) (v : Byte) : s.writeProt a v = .error a := by
  simp [State.writeProt, h]
theorem State.fetch_ok {s : State} (h : s.perm (s.codeAddr 0) .exec = true) :
    s.fetch = .ok (s.memRead (s.codeAddr 0), s.advance 1) := if_pos h
theorem State.fetch_error {s : State} (h : s.perm (s.codeAddr 0) .exec = false) : s.fetch = .error (s.codeAddr 0) :=
  if_neg (ne_true_of_eq_false h)

/-- The check looks at MMUe, MMUp, MMUb and one byte of memory, and nothing else. -/
theorem State.perm_congr {s t : State} {a : Addr} (hu : s.get .mmue = t.get .mmue) (hp : s.get .mmup = t.get .mmup)
    (hb : s.get .mmub = t.get .mmub) (hm : s.memRead (s.pteAddr a) = t.memRead (s.pteAddr a)) (need : Access) :
    s.perm a need = t.perm a need := by
  have ha : t.pteAddr a = s.pteAddr a := by simp [State.pteAddr, State.bankOf, State.offOf, hp, hb]
  simp [State.perm, State.flagOf, State.pte, hu, hm, ha]

/-- Moving PC on changes no permission. -/
@[simp] theorem State.perm_advance (s : State) (n : Half) (a : Addr) (need : Access) : (s.advance n).perm a need = s.perm a need :=
  State.perm_congr (State.get_advance_ne (by decide)) (State.get_advance_ne (by decide)) (State.get_advance_ne (by decide)) (by simp) need

/-- The page index as a number (20_memory.md R47). -/
theorem toNat_pageIndex (a : Addr) : (pageIndex a).toNat = a.bank.toNat * 16 + a.offset.toNat / 4096 := by
  unfold pageIndex
  rw [BitVec.toNat_append, BitVec.extractLsb'_toNat, Nat.shiftRight_eq_div_pow, Nat.shiftLeft_eq]
  have h1 := a.offset.isLt
  have h2 : a.offset.toNat / 2 ^ 12 % 2 ^ 4 < 2 ^ 4 := Nat.mod_lt _ (by decide)
  rw [Nat.mul_comm, ← Nat.two_pow_add_eq_or_of_lt h2 a.bank.toNat]
  omega

/-! ### Reset (70_reset_and_hazards.md R240) -/

@[simp] theorem State.hardReset_mem (s : State) : s.hardReset.mem = s.mem := rfl
@[simp] theorem State.hardReset_devices (s : State) : s.hardReset.devices = s.devices := rfl

theorem State.get_hardReset (s : State) (i : Slot) :
    s.hardReset.get i =
      if i = .pc then ofHalf Config.resetOffset
      else if i = .pcb ∨ i = .exc ∨ i = .mmue ∨ i = .intl ∨ i = .fl then 0
      else s.get i := by
  simp only [State.hardReset, State.get_set]
  fin_cases i <;> simp +decide

/-- The state after reset is the power-on state with every slot and every byte 0 (log entries 1 and 2). -/
theorem State.reset_eq_powerOn : State.reset = powerOn (Vector.replicate 24 0) [] := by decide

/-! ### What taking a trap can do -/

/-- The slots `Trigger` and `Reset` may write. -/
def trapSlots : List Slot := [.pc, .pcb, .exc, .fl, .mmue, .intl, .rtip, .rtib]

/-- `t` differs from `s` only as a trap may make it differ. -/
structure TrapFrame (s t : State) : Prop where
  mem : t.mem = s.mem
  devices : t.devices = s.devices
  slots : ∀ i, i ∉ trapSlots → t.get i = s.get i
  mmue : t.get .mmue = s.get .mmue ∨ t.get .mmue = 0
  intl : t.get .intl = s.get .intl ∨ t.get .intl = 0
  sixteen : s.SixteenBit → t.SixteenBit

theorem TrapFrame.refl (s : State) : TrapFrame s s := ⟨rfl, rfl, fun _ _ => rfl, .inl rfl, .inl rfl, id⟩

theorem TrapFrame.trans {s t u : State} (h : TrapFrame s t) (k : TrapFrame t u) : TrapFrame s u where
  mem := k.mem.trans h.mem
  devices := k.devices.trans h.devices
  slots i hi := (k.slots i hi).trans (h.slots i hi)
  mmue := k.mmue.elim (fun e => h.mmue.imp e.trans e.trans) .inr
  intl := k.intl.elim (fun e => h.intl.imp e.trans e.trans) .inr
  sixteen := k.sixteen ∘ h.sixteen

/-- One slot write of a trap: a slot of the list, never MMUe or INTl unless to 0, and a value of 16 bits if the slots hold such. -/
theorem TrapFrame.set {s : State} {i : Slot} {v : SlotVal} (hi : i ∈ trapSlots) (h0 : i = .mmue ∨ i = .intl → v = 0)
    (hv : s.SixteenBit → v.toNat < 65536) : TrapFrame s (s.set i v) where
  mem := rfl
  devices := rfl
  slots j hj := State.get_set_ne fun e => hj (e ▸ hi)
  mmue := by
    rw [State.get_set]; split
    · next e => exact .inr (h0 (.inl e))
    · exact .inl rfl
  intl := by
    rw [State.get_set]; split
    · next e => exact .inr (h0 (.inr e))
    · exact .inl rfl
  sixteen hs j := by
    rw [State.get_set]; split
    · exact hv hs
    · exact hs j

theorem State.hardReset_frame (s : State) : TrapFrame s s.hardReset where
  mem := rfl
  devices := rfl
  slots i hi := by
    rw [State.get_hardReset]
    simp only [trapSlots, List.mem_cons, List.not_mem_nil, or_false, not_or] at hi
    simp [hi]
  mmue := .inr (by simp +decide [State.get_hardReset])
  intl := .inr (by simp +decide [State.get_hardReset])
  sixteen hs i := by
    rw [State.get_hardReset]
    split
    · decide
    · split
      · decide
      · exact hs i

theorem State.fatal_frame (s : State) : TrapFrame s s.fatal :=
  s.hardReset_frame.trans (.set (by decide) (by decide) fun _ => by decide)

theorem State.saveReturn_frame (s : State) : TrapFrame s s.saveReturn :=
  TrapFrame.trans (.set (by decide) (fun e => absurd e (by decide)) fun h => h _)
    (.set (by decide) (fun e => absurd e (by decide)) fun h => by
      have := h .pc
      rwa [State.get_set_ne (by decide)] at this)

theorem State.entryClears_frame (s : State) (e : BitVec 24) : TrapFrame s (s.entryClears e) := by
  have h1 : TrapFrame s (if Config.entryClrMmu e then s.set .mmue 0 else s) := by
    split
    · exact .set (by decide) (fun _ => rfl) fun _ => by decide
    · exact .refl s
  simp only [State.entryClears]
  split
  · exact h1.trans (.set (by decide) (fun _ => rfl) fun _ => by decide)
  · exact h1

theorem State.entryJump_frame (s : State) (e : BitVec 24) : TrapFrame s (s.entryJump e) :=
  TrapFrame.trans (.set (by decide) (fun e => absurd e (by decide)) fun _ => by simp; omega)
    (.set (by decide) (fun e => absurd e (by decide)) fun _ => by rw [toNat_ofHalf]; exact (Config.entryOffset e).isLt)

theorem State.triggerRound_frame {fallback : State → State} (hf : ∀ s, TrapFrame s (fallback s)) (kind : Kind) (s : State) :
    TrapFrame s (State.triggerRound fallback kind s) := by
  unfold State.triggerRound
  split
  · dsimp only
    have h1 := s.saveReturn_frame.trans (s.saveReturn.entryClears_frame (s.saveReturn.readEntry kind))
    split
    · exact (h1.trans (.set (by decide) (by decide) fun _ => by decide)).trans (hf _)
    · exact h1.trans (State.entryJump_frame _ _)
  · exact s.fatal_frame

/-- Everything `Trigger` can change. -/
theorem State.trigger_frame (kind : Kind) (s : State) : TrapFrame s (State.trigger kind s) := by
  unfold State.trigger
  refine State.triggerRound_frame ?_ kind s
  split
  · exact State.fatal_frame
  · exact State.triggerRound_frame State.fatal_frame _

/-- Saving PC moves neither the interrupt table nor the memory. -/
theorem State.readEntry_saveReturn (s : State) (kind : Kind) : s.saveReturn.readEntry kind = s.readEntry kind := by
  have h1 : s.saveReturn.get .intb = s.get .intb := s.saveReturn_frame.slots _ (by decide)
  have h2 : s.saveReturn.get .intp = s.get .intp := s.saveReturn_frame.slots _ (by decide)
  have hm (a : Addr) : s.saveReturn.memRead a = s.memRead a := State.memRead_congr s.saveReturn_frame.mem a
  simp only [State.readEntry, State.entryAddr, State.bankOf, State.offOf, h1, h2, hm]

theorem State.readEntry_congr {s t : State} {kind : Kind} (hb : s.get .intb = t.get .intb) (hp : s.get .intp = t.get .intp)
    (hm : s.mem = t.mem) : s.readEntry kind = t.readEntry kind := by
  simp only [State.readEntry, State.entryAddr, State.bankOf, State.offOf, hb, hp, State.memRead_congr hm]

/-! What each part of a trap leaves in a slot. -/

theorem State.get_saveReturn (s : State) (j : Slot) :
    s.saveReturn.get j = if j = .rtip then s.get .pc else if j = .rtib then s.get .pcb else s.get j := by
  simp only [State.saveReturn, State.get_set, eq_comm (b := j)]

theorem State.get_entryClears (s : State) (e : BitVec 24) (j : Slot) :
    (s.entryClears e).get j =
      if j = .mmue ∧ Config.entryClrMmu e = true then 0 else if j = .intl ∧ Config.entryClrInt e = true then 0 else s.get j := by
  simp only [State.entryClears]
  by_cases h1 : Config.entryClrMmu e = true <;> by_cases h2 : Config.entryClrInt e = true <;>
    simp only [h1, h2, if_true, if_false, and_true, and_false, State.get_set, eq_comm (b := j), Bool.false_eq_true]
  by_cases hj : j = .mmue
  · subst hj; simp +decide
  · simp [hj]

theorem State.get_entryJump (s : State) (e : BitVec 24) (j : Slot) :
    (s.entryJump e).get j =
      if j = .pc then ofHalf (Config.entryOffset e) else if j = .pcb then ofBank (Config.entryBank e) else s.get j := by
  simp only [State.entryJump, State.get_set, eq_comm (b := j)]

/-! The fields of a table entry as numbers (60_exceptions.md R206). -/

theorem toNat_entryOffset (e : BitVec 24) : (Config.entryOffset e).toNat = e.toNat % 65536 := by simp [Config.entryOffset]

theorem toNat_entryBank (e : BitVec 24) : (Config.entryBank e).toNat = e.toNat / 65536 % 16 := by
  simp [Config.entryBank, Nat.shiftRight_eq_div_pow]

theorem entryClrMmu_eq (e : BitVec 24) : Config.entryClrMmu e = decide (e.toNat / 1048576 % 2 = 1) := by
  simp [Config.entryClrMmu, BitVec.getLsbD, Nat.testBit_eq_decide_div_mod_eq]

theorem entryClrInt_eq (e : BitVec 24) : Config.entryClrInt e = decide (e.toNat / 2097152 % 2 = 1) := by
  simp [Config.entryClrInt, BitVec.getLsbD, Nat.testBit_eq_decide_div_mod_eq]

theorem sentinel_iff (e : BitVec 24) : sentinel e = true ↔ e.toNat % 1048576 = 0 := by
  simp only [sentinel, Bool.and_eq_true, beq_iff_eq, ← BitVec.toNat_inj, toNat_entryOffset, toNat_entryBank]
  simp; omega

/-- `Trigger`, case by case (60_exceptions.md R210, R211). -/
theorem State.trigger_cases (kind : Kind) (s : State) :
    (s.flagOf .intl = false ∧ State.trigger kind s = s.fatal) ∨
    (s.flagOf .intl = true ∧ sentinel (s.readEntry kind) = false ∧
      State.trigger kind s = (s.saveReturn.entryClears (s.readEntry kind)).entryJump (s.readEntry kind)) ∨
    (s.flagOf .intl = true ∧ sentinel (s.readEntry kind) = true ∧ kind ≠ Config.kindExcept ∧
      State.trigger kind s =
        State.trigger Config.kindExcept ((s.saveReturn.entryClears (s.readEntry kind)).set .exc Config.excNoInth)) ∨
    (s.flagOf .intl = true ∧ sentinel (s.readEntry kind) = true ∧ kind = Config.kindExcept ∧
      State.trigger kind s = ((s.saveReturn.entryClears (s.readEntry kind)).set .exc Config.excNoInth).fatal) := by
  rcases hl : s.flagOf .intl with _ | _
  · left; simp [State.trigger, State.triggerRound, hl]
  · right
    rcases he : sentinel (s.readEntry kind) with _ | _
    · left; simp [State.trigger, State.triggerRound, hl, State.readEntry_saveReturn, he]
    · right
      by_cases hk : kind = Config.kindExcept
      · right; simp [State.trigger, State.triggerRound, hl, State.readEntry_saveReturn, hk ▸ he, hk]
      · left
        refine ⟨rfl, rfl, hk, ?_⟩
        rw [State.trigger, if_neg hk, State.triggerRound, if_pos hl]
        simp only [State.readEntry_saveReturn, he, if_true]
        rw [State.trigger, if_pos rfl]

/-! ### The page-access violation -/

/-- Everything a page-access violation can change besides the trap's own slots: R0 and R1. -/
structure FaultFrame (s t : State) : Prop where
  mem : t.mem = s.mem
  devices : t.devices = s.devices
  slots : ∀ i, i ∉ trapSlots → i ≠ .r0 → i ≠ .r1 → t.get i = s.get i
  mmue : t.get .mmue = s.get .mmue ∨ t.get .mmue = 0
  intl : t.get .intl = s.get .intl ∨ t.get .intl = 0
  sixteen : s.SixteenBit → t.SixteenBit

theorem State.get_faultInfo (s : State) (a : Addr) (i : Slot) :
    (s.faultInfo a).get i =
      if i = .r1 then ofBank a.bank else if i = .r0 then ofHalf a.offset else if i = .exc then Config.excPageAv else s.get i := by
  simp only [State.faultInfo, State.get_set, eq_comm]

theorem State.pageAV_frame (s : State) (a : Addr) : FaultFrame s (s.pageAV a) := by
  have ht := State.trigger_frame Config.kindExcept (s.faultInfo a)
  have hg (i : Slot) (h0 : i ≠ .r0) (h1 : i ≠ .r1) (h2 : i ≠ .exc) : (s.faultInfo a).get i = s.get i := by
    simp [State.get_faultInfo, h0, h1, h2]
  refine ⟨ht.mem, ht.devices, fun i hi h0 h1 => ?_, ?_, ?_, fun hs => ht.sixteen fun i => ?_⟩
  · exact (ht.slots i hi).trans (hg i h0 h1 fun e => hi (e ▸ by decide))
  · rw [← hg .mmue (by decide) (by decide) (by decide)]; exact ht.mmue
  · rw [← hg .intl (by decide) (by decide) (by decide)]; exact ht.intl
  · rw [State.get_faultInfo]
    split
    · rw [toNat_ofBank]; omega
    · split
      · rw [toNat_ofHalf]; exact a.offset.isLt
      · split
        · decide
        · exact hs i

end Sys2Proof.Machine
end

