-- ==== Sys2Proof/Laws/Exec.lean ====
section
/-! SUPPORT. Everything one instruction can do, said once (`exec_effect`), and when it does it: the provers cite this instead of unfolding exec. -/

namespace Sys2Proof.Machine

/-- What running instruction `i` in `s` can leave. -/
inductive Effect (i : Instr) (s : State) : State → Prop where
  /-- the destination write; the value has 16 bits whenever every slot does -/
  | dest (rd : Slot) (v : SlotVal) (hd : destOf i = some rd) (hv : s.SixteenBit → v.toNat < 65536) : Effect i s (s.writeDest rd v)
  /-- a flag instruction -/
  | flags (v : SlotVal) (hi : i = .sez ∨ i = .clz ∨ i = .inz) (hv : s.SixteenBit → v.toNat < 65536) : Effect i s (s.set .fl v)
  /-- a reserved opcode -/
  | nothing (hd : destOf i = none) : Effect i s s
  /-- one byte stored -/
  | byte (a : Addr) (v : Byte) (hd : destOf i = none) (ha : s.perm a .write = true) : Effect i s (s.memWrite a v)
  /-- two bytes stored -/
  | word (a : Addr) (lo hi : Byte) (hd : destOf i = none) (ha : s.perm a .write = true)
      (hb : (s.memWrite a lo).perm (addrPlus a 1) .write = true) :
      Effect i s ((s.memWrite a lo).memWrite (addrPlus a 1) hi)
  /-- the page-access violation of the first data access -/
  | violation (a : Addr) (need : Access) (ha : s.perm a need = false) : Effect i s (s.pageAV a)
  /-- the violation of a word store's high byte, its low byte stored -/
  | halfStored (a : Addr) (lo : Byte) (hd : destOf i = none) (ha : s.perm a .write = true)
      (hb : (s.memWrite a lo).perm (addrPlus a 1) .write = false) :
      Effect i s ((s.memWrite a lo).pageAV (addrPlus a 1))

theorem shiftRight_le (a n : Half) : (shiftRight a n).toNat < 65536 := (shiftRight a n).isLt

/-! ### The shared shapes -/

theorem State.alu1_effect {i : Instr} {rd : Slot} (hd : destOf i = some rd) (s : State) (f : Half → Half) : Effect i s (s.alu1 f rd) :=
  .dest rd _ hd fun _ => by rw [toNat_ofHalf]; exact BitVec.isLt _

theorem State.alu2_effect {i : Instr} {rd : Slot} (hd : destOf i = some rd) (s : State) (f : Half → Half → Half) (rs : Slot) :
    Effect i s (s.alu2 f rd rs) :=
  .dest rd _ hd fun _ => by rw [toNat_ofHalf]; exact BitVec.isLt _

theorem State.aluImm_effect {i : Instr} {rd : Slot} (hd : destOf i = some rd) (s : State) (f : Half → Half → Half) (v : Half) :
    Effect i s (s.aluImm f rd v) :=
  .dest rd _ hd fun _ => by rw [toNat_ofHalf]; exact BitVec.isLt _

/-- A denied read is denied at an address that lacks R. -/
theorem State.readProt16_error {s : State} {a bad : Addr} (h : s.readProt16 a = .error bad) : s.perm bad .read = false := by
  unfold State.readProt16 State.readProt at h
  split at h
  · next e =>
    split at e
    · cases e
    · cases e; cases h; simp_all
  · split at h
    · next e =>
      split at e
      · cases e
      · cases e; cases h; simp_all
    · cases h

theorem State.readProt16_ok {s : State} {a : Addr} (h0 : s.perm a .read = true) (h1 : s.perm (addrPlus a 1) .read = true) :
    s.readProt16 a = .ok (s.memRead (addrPlus a 1) ++ s.memRead a) := by
  simp only [State.readProt16, State.readProt_ok h0, State.readProt_ok h1]

theorem State.readProt16_low {s : State} {a : Addr} (h0 : s.perm a .read = false) : s.readProt16 a = .error a := by
  simp only [State.readProt16, State.readProt_error h0]

theorem State.readProt16_high {s : State} {a : Addr} (h0 : s.perm a .read = true) (h1 : s.perm (addrPlus a 1) .read = false) :
    s.readProt16 a = .error (addrPlus a 1) := by
  simp only [State.readProt16, State.readProt_ok h0, State.readProt_error h1]

theorem State.load_effect {i : Instr} {rd : Slot} (hd : destOf i = some rd) {s t : State} {m : MemOperand}
    {read : State → Addr → Except Addr SlotVal} (hbad : ∀ a bad, read s a = .error bad → s.perm bad .read = false)
    (hval : ∀ a v, read s a = .ok v → v.toNat < 65536) (h : s.load m rd read = .next t) : Effect i s t := by
  unfold State.load at h
  split at h
  · cases h
  · split at h
    · next e => cases h; exact .violation _ .read (hbad _ _ e)
    · next e => cases h; exact .dest rd _ hd fun _ => hval _ _ e

theorem State.store8_of_perm {s : State} {a : Addr} (h : s.perm a .write = true) (v : Byte) : s.store8 a v = s.memWrite a v := by
  simp only [State.store8, State.writeProt_ok h]

theorem State.store8_of_denied {s : State} {a : Addr} (h : s.perm a .write = false) (v : Byte) : s.store8 a v = s.pageAV a := by
  simp only [State.store8, State.writeProt_error h]

theorem State.store16_of_perm {s : State} {a : Addr} {v : Half} (h0 : s.perm a .write = true)
    (h1 : (s.memWrite a (v.extractLsb' 0 8)).perm (addrPlus a 1) .write = true) :
    s.store16 a v = (s.memWrite a (v.extractLsb' 0 8)).memWrite (addrPlus a 1) (v.extractLsb' 8 8) := by
  simp only [State.store16, State.writeProt_ok h0, State.store8_of_perm h1]

theorem State.store16_of_low_denied {s : State} {a : Addr} (h : s.perm a .write = false) (v : Half) : s.store16 a v = s.pageAV a := by
  simp only [State.store16, State.writeProt_error h]

theorem State.store16_of_high_denied {s : State} {a : Addr} {v : Half} (h0 : s.perm a .write = true)
    (h1 : (s.memWrite a (v.extractLsb' 0 8)).perm (addrPlus a 1) .write = false) :
    s.store16 a v = (s.memWrite a (v.extractLsb' 0 8)).pageAV (addrPlus a 1) := by
  simp only [State.store16, State.writeProt_ok h0, State.store8_of_denied h1]

theorem State.store8_effect {i : Instr} (hd : destOf i = none) (s : State) (a : Addr) (v : Byte) : Effect i s (s.store8 a v) := by
  rcases h : s.perm a .write with _ | _
  · rw [State.store8_of_denied h]; exact .violation a .write h
  · rw [State.store8_of_perm h]; exact .byte a v hd h

theorem State.store16_effect {i : Instr} (hd : destOf i = none) (s : State) (a : Addr) (v : Half) : Effect i s (s.store16 a v) := by
  rcases h : s.perm a .write with _ | _
  · rw [State.store16_of_low_denied h]; exact .violation a .write h
  · rcases h1 : (s.memWrite a (v.extractLsb' 0 8)).perm (addrPlus a 1) .write with _ | _
    · rw [State.store16_of_high_denied h h1]; exact .halfStored a _ hd h h1
    · rw [State.store16_of_perm h h1]; exact .word a _ _ hd h h1

theorem State.store_effect {i : Instr} {s t : State} {m : MemOperand} {write : State → Addr → State}
    (hw : ∀ a, Effect i s (write s a)) (h : s.store m write = .next t) : Effect i s t := by
  unfold State.store at h
  split at h
  · cases h
  · cases h; exact hw _

/-! ### exec -/

/-- THE INVERSION LEMMA of exec: a next state is one of the effects. -/
theorem exec_effect {i : Instr} {s t : State} (h : exec i s = .next t) : Effect i s t := by
  cases i with
  | mov rd rs => cases h; exact .dest rd _ rfl fun hs => hs rs
  | immB rd k => cases h; exact .dest rd _ rfl fun _ => by rw [toNat_ofByte]; omega
  | immW rd k => cases h; exact .dest rd _ rfl fun _ => by rw [toNat_ofHalf]; exact k.isLt
  | lodB rd m =>
    change s.load m rd (fun s a => (s.readProt a).map ofByte) = .next t at h
    refine State.load_effect rfl (fun a bad e => ?_) (fun a v e => ?_) h
    · unfold State.readProt at e
      split at e
      · cases e
      · cases e; simp_all
    · unfold State.readProt at e
      split at e
      · cases e; rw [toNat_ofByte]; omega
      · cases e
  | lodW rd m =>
    change s.load m rd (fun s a => (s.readProt16 a).map ofHalf) = .next t at h
    refine State.load_effect rfl (fun a bad e => ?_) (fun a v e => ?_) h
    · rcases hr : s.readProt16 a with b | b
      · rw [hr] at e; cases e; exact State.readProt16_error hr
      · rw [hr] at e; cases e
    · rcases hr : s.readProt16 a with b | b
      · rw [hr] at e; cases e
      · rw [hr] at e; cases e; rw [toNat_ofHalf]; exact b.isLt
  | stoB m rs =>
    exact State.store_effect (write := fun s a => s.store8 a ((s.get rs).extractLsb' 0 8)) (fun a => State.store8_effect rfl s a _) h
  | stoW m rs =>
    exact State.store_effect (write := fun s a => s.store16 a (s.offOf rs)) (fun a => State.store16_effect rfl s a _) h
  | addiB rd k => cases h; exact State.aluImm_effect rfl s _ _
  | addiW rd k => cases h; exact State.aluImm_effect rfl s _ _
  | add rd rs => cases h; exact State.alu2_effect rfl s _ _
  | subiB rd k => cases h; exact State.aluImm_effect rfl s _ _
  | subiW rd k => cases h; exact State.aluImm_effect rfl s _ _
  | sub rd rs => cases h; exact State.alu2_effect rfl s _ _
  | not rd => cases h; exact State.alu1_effect rfl s _
  | and rd rs => cases h; exact State.alu2_effect rfl s _ _
  | andiB rd k => cases h; exact State.aluImm_effect rfl s _ _
  | andiW rd k => cases h; exact State.aluImm_effect rfl s _ _
  | orr rd rs => cases h; exact State.alu2_effect rfl s _ _
  | xor rd rs => cases h; exact State.alu2_effect rfl s _ _
  | shl rd rs => cases h; exact State.alu2_effect rfl s _ _
  | shliB rd k => cases h; exact State.aluImm_effect rfl s _ _
  | shr rd rs => cases h; exact State.alu2_effect rfl s _ _
  | shriB rd k => cases h; exact State.aluImm_effect rfl s _ _
  | clr rd => cases h; exact .dest rd _ rfl fun _ => by decide
  | sl4 rd => cases h; exact State.alu1_effect rfl s _
  | sr4 rd => cases h; exact State.alu1_effect rfl s _
  | sez => cases h; exact .flags _ (.inl rfl) fun hs => Nat.or_lt_two_pow (n := 16) (hs .fl) (by decide)
  | clz => cases h; exact .flags _ (.inr (.inl rfl)) fun hs => lt_of_le_of_lt Nat.and_le_left (hs .fl)
  | inz => cases h; exact .flags _ (.inr (.inr rfl)) fun hs => Nat.xor_lt_two_pow (n := 16) (hs .fl) (by decide)
  | rsvSext | rsvBtst | rsvBset | rsvCmpeq | rsvCmplt | rsvCmpgt | rsvPush | rsvPull => cases h; exact .nothing rfl
  | rsvJmp | rsvJz | rsvJnz | rsvCall | rsvRet | rsvSwi | rsvRti | rsvJmpf => cases h; exact .nothing rfl

/-! ### What each load and store does, with the address its operand gives -/

/-- A load of one byte: the byte in the destination, or the violation. -/
theorem execLodB_next {rd : Slot} {m : MemOperand} {s t : State} (h : exec (.lodB rd m) s = .next t) :
    ∃ a, s.resolve m = .ok a ∧
      ((s.perm a .read = true ∧ t = s.writeDest rd (ofByte (s.memRead a))) ∨ (s.perm a .read = false ∧ t = s.pageAV a)) := by
  simp only [exec, execLodB, State.load] at h
  rcases hr : s.resolve m with r | a
  · simp [hr] at h
  · rcases hp : s.perm a .read with _ | _
    · simp only [hr, State.readProt_error hp] at h; cases h; exact ⟨a, rfl, .inr ⟨hp, rfl⟩⟩
    · simp only [hr, State.readProt_ok hp] at h; cases h; exact ⟨a, rfl, .inl ⟨hp, rfl⟩⟩

/-- A load of two bytes: the word in the destination, or the violation of the first byte that is denied. -/
theorem execLodW_next {rd : Slot} {m : MemOperand} {s t : State} (h : exec (.lodW rd m) s = .next t) :
    ∃ a, s.resolve m = .ok a ∧
      ((s.perm a .read = true ∧ s.perm (addrPlus a 1) .read = true ∧
          t = s.writeDest rd (ofHalf (s.memRead (addrPlus a 1) ++ s.memRead a))) ∨
        (s.perm a .read = false ∧ t = s.pageAV a) ∨
        (s.perm a .read = true ∧ s.perm (addrPlus a 1) .read = false ∧ t = s.pageAV (addrPlus a 1))) := by
  simp only [exec, execLodW, State.load] at h
  rcases hr : s.resolve m with r | a
  · simp [hr] at h
  · rcases hp : s.perm a .read with _ | _
    · simp only [hr, State.readProt16_low hp] at h; cases h; exact ⟨a, rfl, .inr (.inl ⟨hp, rfl⟩)⟩
    · rcases hq : s.perm (addrPlus a 1) .read with _ | _
      · simp only [hr, State.readProt16_high hp hq] at h; cases h; exact ⟨a, rfl, .inr (.inr ⟨hp, hq, rfl⟩)⟩
      · simp only [hr, State.readProt16_ok hp hq] at h; cases h; exact ⟨a, rfl, .inl ⟨hp, hq, rfl⟩⟩

/-- A store of one byte: the byte at the address, or the violation. -/
theorem execStoB_next {m : MemOperand} {rs : Slot} {s t : State} (h : exec (.stoB m rs) s = .next t) :
    ∃ a, s.beforeRsByte.resolve m = .ok a ∧
      ((s.perm a .write = true ∧ t = s.memWrite a ((s.get rs).extractLsb' 0 8)) ∨ (s.perm a .write = false ∧ t = s.pageAV a)) := by
  simp only [exec, execStoB, State.store] at h
  rcases hr : s.beforeRsByte.resolve m with r | a
  · simp [hr] at h
  · rw [hr] at h; cases h
    rcases hp : s.perm a .write with _ | _
    · exact ⟨a, rfl, .inr ⟨hp, State.store8_of_denied hp _⟩⟩
    · exact ⟨a, rfl, .inl ⟨hp, State.store8_of_perm hp _⟩⟩

/-- A store of two bytes: both, or the violation of the first byte that is denied, what was stored before it kept. -/
theorem execStoW_next {m : MemOperand} {rs : Slot} {s t : State} (h : exec (.stoW m rs) s = .next t) :
    ∃ a lo hi, s.beforeRsByte.resolve m = .ok a ∧ lo = (s.offOf rs).extractLsb' 0 8 ∧ hi = (s.offOf rs).extractLsb' 8 8 ∧
      ((s.perm a .write = true ∧ (s.memWrite a lo).perm (addrPlus a 1) .write = true ∧
          t = (s.memWrite a lo).memWrite (addrPlus a 1) hi) ∨
        (s.perm a .write = false ∧ t = s.pageAV a) ∨
        (s.perm a .write = true ∧ (s.memWrite a lo).perm (addrPlus a 1) .write = false ∧
          t = (s.memWrite a lo).pageAV (addrPlus a 1))) := by
  simp only [exec, execStoW, State.store] at h
  rcases hr : s.beforeRsByte.resolve m with r | a
  · simp [hr] at h
  · rw [hr] at h; cases h
    refine ⟨a, _, _, rfl, rfl, rfl, ?_⟩
    rcases hp : s.perm a .write with _ | _
    · exact .inr (.inl ⟨rfl, State.store16_of_low_denied hp _⟩)
    · rcases hq : (s.memWrite a ((s.offOf rs).extractLsb' 0 8)).perm (addrPlus a 1) .write with _ | _
      · exact .inr (.inr ⟨rfl, rfl, State.store16_of_high_denied hp hq⟩)
      · exact .inl ⟨rfl, rfl, State.store16_of_perm hp hq⟩

/-! ### The frame of an effect -/

/-- No effect but a store changes memory. -/
theorem Effect.mem_of_dest {i : Instr} {s t : State} (h : Effect i s t) {rd : Slot} (hd : destOf i = some rd) : t.mem = s.mem := by
  cases h with
  | dest => simp
  | flags => rfl
  | nothing => rfl
  | byte a v hn | word a lo hi hn | halfStored a lo hn => rw [hd] at hn; cases hn
  | violation a need ha => exact (s.pageAV_frame a).mem

/-! ### The resolver -/

theorem State.resolve_wf {s : State} {m : MemOperand} (h : m.wellFormed = true) : ∃ a, s.resolve m = .ok a := by
  obtain ⟨mode, f, src⟩ := m
  cases mode with
  | indexed =>
    simp only [MemOperand.wellFormed, Config.generalCount, decide_eq_true_eq] at h
    have : 16 + f.toNat < Config.slotCount := by simp only [Config.slotCount]; omega
    simp [State.resolve, Config.generalSlot, this]
  | absolute | pcRel | spRel | ptRel | itRel => exact ⟨_, rfl⟩

/-- The resolver looks at the slots only. -/
theorem State.resolve_congr {s t : State} (h : s.regs = t.regs) (m : MemOperand) : s.resolve m = t.resolve m := by
  have hg (i : Slot) : s.get i = t.get i := (State.regs_eq_iff s t).1 h i
  have ho (i : Slot) : s.offOf i = t.offOf i := by simp [State.offOf, hg]
  have hb (i : Slot) : s.bankOf i = t.bankOf i := by simp [State.bankOf, hg]
  have hs : s.sourceValue m.src = t.sourceValue m.src := by cases m.src <;> simp [State.sourceValue, ho]
  simp only [State.resolve, hs, ho, hb]

end Sys2Proof.Machine
end

