-- ==== Sys2Proof/Laws/Fetch.lean ====
section
/-! SUPPORT. Fetching an instruction is decoding the bytes at PC, as long as each may be fetched. -/

namespace Sys2Proof.Machine

theorem State.codeBytes_length (s : State) (n : Nat) : (s.codeBytes n).length = n := by simp [State.codeBytes]

theorem State.codeAddr_advance_one (s : State) (j : Nat) :
    (s.advance 1).codeAddr (BitVec.ofNat 16 j) = s.codeAddr (BitVec.ofNat 16 (j + 1)) := by
  rw [State.codeAddr_advance]
  congr 1
  rw [BitVec.ofNat_add, BitVec.add_comm]
  rfl

/-- The bytes at PC are the first one and the bytes at PC once it is fetched. -/
theorem State.codeBytes_succ (s : State) (n : Nat) :
    s.codeBytes (n + 1) = s.memRead (s.codeAddr 0) :: (s.advance 1).codeBytes n := by
  simp only [State.codeBytes, List.range_succ_eq_map, List.map_cons, List.map_map, List.cons.injEq]
  refine ⟨rfl, List.map_congr_left fun j _ => ?_⟩
  rw [State.codeAddr_advance_one]
  rfl

theorem State.mayFetch_succ {s : State} {n : Nat} :
    s.MayFetch (n + 1) ↔ s.perm (s.codeAddr 0) .exec = true ∧ (s.advance 1).MayFetch n := by
  constructor
  · intro h
    refine ⟨h 0 (by omega), fun j hj => ?_⟩
    rw [State.perm_advance, State.codeAddr_advance_one]
    exact h (j + 1) (by omega)
  · rintro ⟨h0, h⟩ j hj
    cases j with
    | zero => exact h0
    | succ j =>
      have := h j (by omega)
      rwa [State.perm_advance, State.codeAddr_advance_one] at this

theorem State.afterBytes_advance_one (s : State) (n : Nat) : (s.advance 1).afterBytes n = s.afterBytes (n + 1) := by
  cases n with
  | zero => rfl
  | succ n =>
    simp only [State.afterBytes, State.advance_advance]
    congr 1
    rw [BitVec.ofNat_add (n + 1) 1, BitVec.add_comm]
    rfl

/-- When the decoder is done with exactly the bytes at PC, and each may be fetched, fetching gives its answer. -/
theorem Decoder.fetchFrom_of_feed {d : Decoder} {s : State} {n : Nat} {r : Decoded} (hf : s.MayFetch n)
    (hd : d.feed (s.codeBytes n) = some (r, [])) : Decoder.fetchFrom d s = .got r (s.afterBytes n) := by
  induction d generalizing s n with
  | done d =>
    simp only [Decoder.feed, Option.some.injEq, Prod.mk.injEq] at hd
    have : n = 0 := by rw [← State.codeBytes_length s n, hd.2]; rfl
    subst this
    simp [Decoder.fetchFrom, State.afterBytes, hd.1]
  | next k ih =>
    cases n with
    | zero => simp [State.codeBytes, Decoder.feed] at hd
    | succ n =>
      obtain ⟨h0, h1⟩ := State.mayFetch_succ.1 hf
      rw [State.codeBytes_succ, Decoder.feed] at hd
      simp only [Decoder.fetchFrom, State.fetch_ok h0]
      rw [ih _ h1 hd, State.afterBytes_advance_one]

/-- When the decoder wants more than the bytes that may be fetched, the fetch of the next one is denied. -/
theorem Decoder.fetchFrom_of_denied {d : Decoder} {s : State} {n : Nat} (hf : s.MayFetch n) (hd : d.feed (s.codeBytes n) = none)
    (hp : s.perm (s.codeAddr (BitVec.ofNat 16 n)) .exec = false) :
    Decoder.fetchFrom d s = .denied (s.codeAddr (BitVec.ofNat 16 n)) (s.afterBytes n) := by
  induction d generalizing s n with
  | done d => simp [Decoder.feed] at hd
  | next k ih =>
    cases n with
    | zero => simp only [Decoder.fetchFrom, State.fetch_error hp]; rfl
    | succ n =>
      obtain ⟨h0, h1⟩ := State.mayFetch_succ.1 hf
      rw [State.codeBytes_succ, Decoder.feed] at hd
      simp only [Decoder.fetchFrom, State.fetch_ok h0]
      rw [ih _ h1 hd, State.codeAddr_advance_one, State.afterBytes_advance_one]
      rw [State.perm_advance, State.codeAddr_advance_one]
      exact hp

/-- Everything fetching with a decoder can end in: its answer after `n` bytes, or a denied byte after `n` bytes. -/
theorem Decoder.fetchFrom_cases (d : Decoder) (s : State) :
    (∃ n r, s.MayFetch n ∧ d.feed (s.codeBytes n) = some (r, []) ∧ Decoder.fetchFrom d s = .got r (s.afterBytes n)) ∨
    (∃ n, s.MayFetch n ∧ d.feed (s.codeBytes n) = none ∧ s.perm (s.codeAddr (BitVec.ofNat 16 n)) .exec = false ∧
      Decoder.fetchFrom d s = .denied (s.codeAddr (BitVec.ofNat 16 n)) (s.afterBytes n)) := by
  induction d generalizing s with
  | done r => exact .inl ⟨0, r, fun _ h => absurd h (by omega), rfl, rfl⟩
  | next k ih =>
    rcases hp : s.perm (s.codeAddr 0) .exec with _ | _
    · refine .inr ⟨0, fun _ h => absurd h (by omega), rfl, hp, ?_⟩
      simp only [Decoder.fetchFrom, State.fetch_error hp]; rfl
    · have hs : Decoder.fetchFrom (.next k) s = Decoder.fetchFrom (k (s.memRead (s.codeAddr 0))) (s.advance 1) := by
        simp only [Decoder.fetchFrom, State.fetch_ok hp]
      rcases ih (s.memRead (s.codeAddr 0)) (s.advance 1) with ⟨n, r, h1, h2, h3⟩ | ⟨n, h1, h2, h3, h4⟩
      · refine .inl ⟨n + 1, r, State.mayFetch_succ.2 ⟨hp, h1⟩, ?_, ?_⟩
        · rw [State.codeBytes_succ, Decoder.feed]; exact h2
        · rw [hs, h3, State.afterBytes_advance_one]
      · rw [State.perm_advance, State.codeAddr_advance_one] at h3
        refine .inr ⟨n + 1, State.mayFetch_succ.2 ⟨hp, h1⟩, ?_, h3, ?_⟩
        · rw [State.codeBytes_succ, Decoder.feed]; exact h2
        · rw [hs, h4, State.codeAddr_advance_one, State.afterBytes_advance_one]

/-! ### What fetching leaves alone -/

@[simp] theorem State.afterBytes_mem (s : State) (n : Nat) : (s.afterBytes n).mem = s.mem := by cases n <;> rfl
@[simp] theorem State.afterBytes_devices (s : State) (n : Nat) : (s.afterBytes n).devices = s.devices := by cases n <;> rfl
@[simp] theorem State.memRead_afterBytes (s : State) (n : Nat) (a : Addr) : (s.afterBytes n).memRead a = s.memRead a :=
  State.memRead_congr (by simp) a
theorem State.get_afterBytes_ne (s : State) (n : Nat) {i : Slot} (h : i ≠ .pc) : (s.afterBytes n).get i = s.get i := by
  cases n with
  | zero => rfl
  | succ n => exact State.get_advance_ne h
@[simp] theorem State.perm_afterBytes (s : State) (n : Nat) (a : Addr) (need : Access) :
    (s.afterBytes n).perm a need = s.perm a need := by
  cases n with
  | zero => rfl
  | succ n => exact State.perm_advance s _ a need
theorem State.afterBytes_sixteenBit {s : State} (h : s.SixteenBit) (n : Nat) : (s.afterBytes n).SixteenBit := by
  cases n with
  | zero => exact h
  | succ n =>
    intro i
    rw [State.afterBytes, State.get_advance]
    split
    · rw [toNat_ofHalf]; exact BitVec.isLt _
    · exact h i

end Sys2Proof.Machine
end

