-- ==== Sys2Proof/Laws/Operands.lean ====
section
/-! SUPPORT. The operand forms and the flag masks as numbers and bits. -/

namespace Sys2Proof.Machine

/-- A shift left multiplies, modulo 65536, whatever the amount (44_bitwise_shift.md R160). -/
theorem toNat_shiftLeft (a n : Half) : (shiftLeft a n).toNat = a.toNat * 2 ^ n.toNat % 65536 := by
  unfold shiftLeft
  split
  · next h =>
    obtain ⟨m, hm⟩ := Nat.exists_eq_add_of_le h
    rw [hm, Nat.pow_add, ← Nat.mul_assoc, Nat.mul_right_comm, Nat.mul_mod_left]; rfl
  · rw [BitVec.toNat_shiftLeft, Nat.shiftLeft_eq]

/-- A shift right divides, whatever the amount (R160). -/
theorem toNat_shiftRight (a n : Half) : (shiftRight a n).toNat = a.toNat / 2 ^ n.toNat := by
  unfold shiftRight
  split
  · next h =>
    have : a.toNat < 2 ^ n.toNat := lt_of_lt_of_le a.isLt (Nat.pow_le_pow_right (by decide) h)
    rw [Nat.div_eq_of_lt this]; rfl
  · rw [BitVec.toNat_ushiftRight, Nat.shiftRight_eq_div_pow]

/-- `base ± src` as a number (30_encoding.md R79). -/
theorem toNat_plusMinus (f : BitVec 4) (base src : Half) :
    (plusMinus f base src).toNat =
      if f.toNat % 2 = 0 then (base.toNat + src.toNat) % 65536 else (base.toNat + 65536 - src.toNat) % 65536 := by
  have hm : Config.minusSign f = decide (f.toNat % 2 = 1) := by revert f; decide
  unfold plusMinus
  rw [hm]
  rcases Nat.mod_two_eq_zero_or_one f.toNat with h | h
  · simp [h, BitVec.toNat_add]
  · simp only [h, decide_true, if_true, BitVec.toNat_sub]
    have := src.isLt
    simp; omega

/-- The field `f` selects slot 16 + f, or none (40_step_and_resolver.md R123). -/
theorem generalSlot_eq_some {f : BitVec 4} {r : Slot} : Config.generalSlot f = some r ↔ r.val = 16 + f.toNat := by
  unfold Config.generalSlot
  split
  · simp only [Option.some.injEq, Fin.ext_iff, eq_comm]
  · next h => simp only [reduceCtorEq, false_iff]; intro e; exact h (e ▸ r.isLt)

/-- The mask of Z has the one bit 0 (10_state.md R16). -/
theorem getLsbD_zMask (n : Nat) : zMask.getLsbD n = decide (n = 0) := by
  rw [show zMask = 1#20 from rfl, BitVec.getLsbD_one]; simp

end Sys2Proof.Machine
end

