-- ==== Sys2Proof/Laws/PerInstr.lean ====
section
/-! SUPPORT. Statements about every instruction as syntax, one lemma per constructor. EncodedLength: an instruction has 1 to 5 bytes, the first is its
opcode byte, and the length is 1 plus that of its operands (30_encoding.md R71). -/

namespace Sys2Proof.Laws.EncodedLength

/-- The length of an instruction by its format (30_encoding.md R71). -/
def formatLength : Instr → Nat
  | .mov _ _ | .add _ _ | .sub _ _ | .and _ _ | .orr _ _ | .xor _ _ | .shl _ _ | .shr _ _ => 3
  | .immB _ _ | .addiB _ _ | .subiB _ _ | .andiB _ _ | .shliB _ _ | .shriB _ _ => 3
  | .immW _ _ | .addiW _ _ | .subiW _ _ | .andiW _ _ => 4
  | .lodB _ m | .lodW _ m | .stoB m _ | .stoW m _ => match m.src with | .reg _ => 4 | .imm _ => 5
  | .not _ | .clr _ | .sl4 _ | .sr4 _ => 2
  | .sez | .clz | .inz => 1
  | .rsvSext | .rsvBtst | .rsvBset | .rsvCmpeq | .rsvCmplt | .rsvCmpgt | .rsvPush | .rsvPull => 1
  | .rsvJmp | .rsvJz | .rsvJnz | .rsvCall | .rsvRet | .rsvSwi | .rsvRti | .rsvJmpf => 1

/-- The encoding has the length of its format, and begins with the opcode byte. -/
def Statement (i : Instr) : Prop := (encode i).length = formatLength i ∧ (encode i).head? = some (Encode.opcode i)

theorem mov (rd : Slot) (rs : Slot) : Statement (.mov rd rs) := ⟨rfl, rfl⟩
theorem immB (rd : Slot) (k : Byte) : Statement (.immB rd k) := ⟨rfl, rfl⟩
theorem immW (rd : Slot) (k : Half) : Statement (.immW rd k) := ⟨rfl, rfl⟩
theorem lodB (rd : Slot) (m : MemOperand) : Statement (.lodB rd m) := by
  obtain ⟨mode, f, src⟩ := m; cases src <;> exact ⟨rfl, rfl⟩
theorem lodW (rd : Slot) (m : MemOperand) : Statement (.lodW rd m) := by
  obtain ⟨mode, f, src⟩ := m; cases src <;> exact ⟨rfl, rfl⟩
theorem stoB (m : MemOperand) (rs : Slot) : Statement (.stoB m rs) := by
  obtain ⟨mode, f, src⟩ := m; cases src <;> exact ⟨rfl, rfl⟩
theorem stoW (m : MemOperand) (rs : Slot) : Statement (.stoW m rs) := by
  obtain ⟨mode, f, src⟩ := m; cases src <;> exact ⟨rfl, rfl⟩
theorem addiB (rd : Slot) (k : Byte) : Statement (.addiB rd k) := ⟨rfl, rfl⟩
theorem addiW (rd : Slot) (k : Half) : Statement (.addiW rd k) := ⟨rfl, rfl⟩
theorem add (rd : Slot) (rs : Slot) : Statement (.add rd rs) := ⟨rfl, rfl⟩
theorem subiB (rd : Slot) (k : Byte) : Statement (.subiB rd k) := ⟨rfl, rfl⟩
theorem subiW (rd : Slot) (k : Half) : Statement (.subiW rd k) := ⟨rfl, rfl⟩
theorem sub (rd : Slot) (rs : Slot) : Statement (.sub rd rs) := ⟨rfl, rfl⟩
theorem not (rd : Slot) : Statement (.not rd) := ⟨rfl, rfl⟩
theorem and (rd : Slot) (rs : Slot) : Statement (.and rd rs) := ⟨rfl, rfl⟩
theorem andiB (rd : Slot) (k : Byte) : Statement (.andiB rd k) := ⟨rfl, rfl⟩
theorem andiW (rd : Slot) (k : Half) : Statement (.andiW rd k) := ⟨rfl, rfl⟩
theorem orr (rd : Slot) (rs : Slot) : Statement (.orr rd rs) := ⟨rfl, rfl⟩
theorem xor (rd : Slot) (rs : Slot) : Statement (.xor rd rs) := ⟨rfl, rfl⟩
theorem shl (rd : Slot) (rs : Slot) : Statement (.shl rd rs) := ⟨rfl, rfl⟩
theorem shliB (rd : Slot) (k : Byte) : Statement (.shliB rd k) := ⟨rfl, rfl⟩
theorem shr (rd : Slot) (rs : Slot) : Statement (.shr rd rs) := ⟨rfl, rfl⟩
theorem shriB (rd : Slot) (k : Byte) : Statement (.shriB rd k) := ⟨rfl, rfl⟩
theorem clr (rd : Slot) : Statement (.clr rd) := ⟨rfl, rfl⟩
theorem sl4 (rd : Slot) : Statement (.sl4 rd) := ⟨rfl, rfl⟩
theorem sr4 (rd : Slot) : Statement (.sr4 rd) := ⟨rfl, rfl⟩
theorem sez : Statement (.sez) := ⟨rfl, rfl⟩
theorem clz : Statement (.clz) := ⟨rfl, rfl⟩
theorem inz : Statement (.inz) := ⟨rfl, rfl⟩
theorem rsvSext : Statement (.rsvSext) := ⟨rfl, rfl⟩
theorem rsvBtst : Statement (.rsvBtst) := ⟨rfl, rfl⟩
theorem rsvBset : Statement (.rsvBset) := ⟨rfl, rfl⟩
theorem rsvCmpeq : Statement (.rsvCmpeq) := ⟨rfl, rfl⟩
theorem rsvCmplt : Statement (.rsvCmplt) := ⟨rfl, rfl⟩
theorem rsvCmpgt : Statement (.rsvCmpgt) := ⟨rfl, rfl⟩
theorem rsvPush : Statement (.rsvPush) := ⟨rfl, rfl⟩
theorem rsvPull : Statement (.rsvPull) := ⟨rfl, rfl⟩
theorem rsvJmp : Statement (.rsvJmp) := ⟨rfl, rfl⟩
theorem rsvJz : Statement (.rsvJz) := ⟨rfl, rfl⟩
theorem rsvJnz : Statement (.rsvJnz) := ⟨rfl, rfl⟩
theorem rsvCall : Statement (.rsvCall) := ⟨rfl, rfl⟩
theorem rsvRet : Statement (.rsvRet) := ⟨rfl, rfl⟩
theorem rsvSwi : Statement (.rsvSwi) := ⟨rfl, rfl⟩
theorem rsvRti : Statement (.rsvRti) := ⟨rfl, rfl⟩
theorem rsvJmpf : Statement (.rsvJmpf) := ⟨rfl, rfl⟩

end Sys2Proof.Laws.EncodedLength
end

