-- ==== Sys2Proof/Laws/Step.lean ====
section
/-! SUPPORT. Everything one step can do, said once. -/

namespace Sys2Proof.Machine

/-- THE INVERSION LEMMA of step. After `n` bytes that may be fetched either the decoder has its answer, or the next byte is denied. -/
theorem step_cases (s : State) :
    (∃ n i, s.MayFetch n ∧ decode (s.codeBytes n) = some (.instr i, []) ∧ step s = exec i (s.afterBytes n)) ∨
    (∃ n op, s.MayFetch n ∧ decode (s.codeBytes n) = some (.undefinedOpcode op, []) ∧ step s = .next (s.afterBytes n)) ∨
    (∃ n r, s.MayFetch n ∧ decode (s.codeBytes n) = some (.reject r, []) ∧ step s = .refused (refusalOf r)) ∨
    (∃ n, s.MayFetch n ∧ decode (s.codeBytes n) = none ∧ s.perm (s.codeAddr (BitVec.ofNat 16 n)) .exec = false ∧
      step s = .next ((s.afterBytes n).pageAV (s.codeAddr (BitVec.ofNat 16 n)))) := by
  rcases Decoder.fetchFrom_cases decoder s with ⟨n, r, h1, h2, h3⟩ | ⟨n, h1, h2, h3, h4⟩
  · cases r with
    | instr i => exact .inl ⟨n, i, h1, h2, by simp only [step, State.fetchInstr, h3]⟩
    | undefinedOpcode op =>
      exact .inr (.inl ⟨n, op, h1, h2, by simp only [step, State.fetchInstr, h3, execUndefinedOpcode, reservedNoOp]⟩)
    | reject r => exact .inr (.inr (.inl ⟨n, r, h1, h2, by simp only [step, State.fetchInstr, h3]⟩))
  · exact .inr (.inr (.inr ⟨n, h1, h2, h3, by simp only [step, State.fetchInstr, h4]⟩))

/-- A next state of a step is an instruction's effect, the bare fetch of an undefined opcode, or the violation of a fetch. -/
theorem step_next {s t : State} (h : step s = .next t) :
    (∃ n i, s.MayFetch n ∧ decode (s.codeBytes n) = some (.instr i, []) ∧ Effect i (s.afterBytes n) t) ∨
    (∃ n, t = s.afterBytes n) ∨
    (∃ n, s.perm (s.codeAddr (BitVec.ofNat 16 n)) .exec = false ∧ t = (s.afterBytes n).pageAV (s.codeAddr (BitVec.ofNat 16 n))) := by
  rcases step_cases s with ⟨n, i, h1, h2, h3⟩ | ⟨n, op, _, _, h3⟩ | ⟨n, r, _, _, h3⟩ | ⟨n, _, _, hp, h3⟩
  · exact .inl ⟨n, i, h1, h2, exec_effect (h3 ▸ h)⟩
  · rw [h3] at h; cases h; exact .inr (.inl ⟨n, rfl⟩)
  · rw [h3] at h; cases h
  · rw [h3] at h; cases h; exact .inr (.inr ⟨n, hp, rfl⟩)

end Sys2Proof.Machine
end

