-- ==== Sys2Proof/Tests/Slice0.lean ====
section
/-! SUPPORT. The model's own tests. Every expected value is transcribed from spec/ (the vector's name stands in the comment); the witnesses at the
end show, for every statement with hypotheses, concrete inputs that meet all of them. -/

namespace Sys2Proof.Machine.Tests

/-- Bytes at the reset entry point. -/
def code (s : State) (bytes : List Byte) : State := s.placeBytes { bank := 0, offset := 0x1000 } bytes

/-- Bytes at an offset of bank 0. -/
def at0 (s : State) (offset : Half) (bytes : List Byte) : State := s.placeBytes { bank := 0, offset := offset } bytes

/-- An address of bank 0. -/
def addr0 (offset : Half) : Addr := { bank := 0, offset := offset }

/-- The outcome is a next state with this property. -/
def holds (o : Outcome) (p : State → Bool) : Bool :=
  match o with
  | .next t => p t
  | .fault _ => false
  | .refused _ => false

theorem exists_of_holds {o : Outcome} {p : State → Bool} (h : holds o p = true) : ∃ t, o = .next t ∧ p t = true := by
  unfold holds at h
  split at h
  · exact ⟨_, rfl, h⟩
  · cases h
  · cases h

/-- The listed slots hold the listed values. -/
def slots (l : List (Slot × SlotVal)) (t : State) : Bool := l.all fun p => t.get p.1 == p.2

/-! ### WellFormed -/

theorem test_wellFormed_refuses_index_8 :
    (Instr.lodB .r0 ⟨.indexed, 8, .imm 0⟩).wellFormed = false ∧ (Instr.lodW .r0 ⟨.indexed, 15, .reg .r0⟩).wellFormed = false ∧
    (Instr.stoB ⟨.indexed, 8, .imm 0⟩ .r0).wellFormed = false ∧ (Instr.stoW ⟨.indexed, 12, .imm 0⟩ .r0).wellFormed = false := by decide

theorem test_wellFormed_takes_index_7_and_any_bank :
    (Instr.lodB .r0 ⟨.indexed, 7, .imm 0⟩).wellFormed = true ∧ (Instr.lodB .r0 ⟨.absolute, 15, .imm 0⟩).wellFormed = true := by decide

/-! ### Decoding: one word for every constructor, from 30_encoding.md R71 to R91 and 95_test_vectors.md -/

theorem test_decode_data_movement :
    decode [0x00, 0x11, 0x10] = some (.instr (.mov .r1 .r0), []) ∧
    decode [0x01, 0x10, 0x05] = some (.instr (.immB .r0 5), []) ∧
    decode [0x02, 0x13, 0x34, 0x12] = some (.instr (.immW .r3 0x1234), []) := by decide

theorem test_decode_memory :
    decode [0x03, 0x14, 0b01010111, 0x10] = some (.instr (.lodB .r4 ⟨.indexed, 7, .reg .r0⟩), []) ∧
    decode [0x04, 0x10, 0b10000000, 0x00, 0x01] = some (.instr (.lodW .r0 ⟨.absolute, 0, .imm 0x100⟩), []) ∧
    decode [0x05, 0b10010000, 0x01, 0x00, 0x10] = some (.instr (.stoB ⟨.pcRel, 0, .imm 1⟩ .r0), []) ∧
    decode [0x06, 0b10100001, 0x02, 0x00, 0x13] = some (.instr (.stoW ⟨.spRel, 1, .imm 2⟩ .r3), []) ∧
    decode [0x03, 0x10, 0b10110000, 0x11, 0x00] = some (.instr (.lodB .r0 ⟨.ptRel, 0, .imm 17⟩), []) ∧
    decode [0x03, 0x10, 0b11000000, 0x03, 0x00] = some (.instr (.lodB .r0 ⟨.itRel, 0, .imm 3⟩), []) := by decide

theorem test_decode_arithmetic :
    decode [0x07, 0x10, 0xFF] = some (.instr (.addiB .r0 255), []) ∧
    decode [0x08, 0x11, 0x00, 0x80] = some (.instr (.addiW .r1 0x8000), []) ∧
    decode [0x09, 0x10, 0x11] = some (.instr (.add .r0 .r1), []) ∧
    decode [0x0A, 0x00, 0x03] = some (.instr (.subiB .pc 3), []) ∧
    decode [0x0B, 0x12, 0x11, 0x00] = some (.instr (.subiW .r2 17), []) ∧
    decode [0x0C, 0x10, 0x11] = some (.instr (.sub .r0 .r1), []) := by decide

theorem test_decode_bitwise :
    decode [0x0D, 0x0B] = some (.instr (.not .intl), []) ∧
    decode [0x0E, 0x10, 0x11] = some (.instr (.and .r0 .r1), []) ∧
    decode [0x0F, 0x10, 0x0F] = some (.instr (.andiB .r0 15), []) ∧
    decode [0x10, 0x10, 0x00, 0xFF] = some (.instr (.andiW .r0 0xFF00), []) ∧
    decode [0x11, 0x10, 0x11] = some (.instr (.orr .r0 .r1), []) ∧
    decode [0x12, 0x10, 0x11] = some (.instr (.xor .r0 .r1), []) := by decide

theorem test_decode_shifts :
    decode [0x13, 0x10, 0x11] = some (.instr (.shl .r0 .r1), []) ∧
    decode [0x14, 0x10, 0x04] = some (.instr (.shliB .r0 4), []) ∧
    decode [0x15, 0x10, 0x11] = some (.instr (.shr .r0 .r1), []) ∧
    decode [0x16, 0x10, 0x0C] = some (.instr (.shriB .r0 12), []) := by decide

theorem test_decode_register_utility_and_flags :
    decode [0x17, 0x08] = some (.instr (.clr .mmue), []) ∧
    decode [0x18, 0x14] = some (.instr (.sl4 .r4), []) ∧
    decode [0x19, 0x10] = some (.instr (.sr4 .r0), []) ∧
    decode [0x1A] = some (.instr .sez, []) ∧
    decode [0x1B] = some (.instr .clz, []) ∧
    decode [0x1C] = some (.instr .inz, []) := by decide

theorem test_decode_reserved :
    [0x1D, 0x1E, 0x1F, 0x20, 0x21, 0x22, 0x23, 0x24].map (fun op => decode [op]) =
      [Instr.rsvSext, .rsvBtst, .rsvBset, .rsvCmpeq, .rsvCmplt, .rsvCmpgt, .rsvPush, .rsvPull].map (fun i => some (.instr i, [])) ∧
    [0x25, 0x26, 0x27, 0x28, 0x29, 0x2A, 0x2B, 0x2C].map (fun op => decode [op]) =
      [Instr.rsvJmp, .rsvJz, .rsvJnz, .rsvCall, .rsvRet, .rsvSwi, .rsvRti, .rsvJmpf].map (fun i => some (.instr i, [])) := by decide

theorem test_decode_undefined : decode [0x2D] = some (.undefinedOpcode 0x2D, []) ∧ decode [0xFF] = some (.undefinedOpcode 0xFF, []) := by decide

/-! ### The interface functions -/

theorem test_decodeTableWord : decodeTableWord 24 0x101100 = some (.mov .r1 .r0) ∧ decodeTableWord 8 0x1A = some .sez ∧
    decodeTableWord 8 0x08 = some (.addiW .pc 0) ∧ decodeTableWord 8 0xFF = none := by decide

theorem test_withFetchWord_runs_it_after_reset :
    holds (step (State.reset.withFetchWord 24 0x051001)) (slots [(.r0, 5), (.pc, 0x1003)]) = true := by decide

theorem test_withFetchWord_runs_it_from_an_unfetchable_pc :
    holds (step (((State.reset.set .pcb 3).set .mmue 1).withFetchWord 24 0x051001)) (slots [(.r0, 5), (.pc, 0x1003)]) = true := by decide

/-! ### One step of each instruction (95_test_vectors.md section 2; the vector's id in the name) -/

theorem test_mov_M2 : holds (step (code (State.reset.set .r0 0xFABCD) [0x00, 0x11, 0x10])) (slots [(.r1, 0xFABCD), (.pc, 0x1003)]) = true := by decide
theorem test_mov_M3_pc_is_the_next_instruction : holds (step (code State.reset [0x00, 0x10, 0x00])) (slots [(.r0, 0x1003)]) = true := by decide
theorem test_immB_M6 : holds (step (code (State.reset.set .r0 0xFFFFF) [0x01, 0x10, 0xFF])) (slots [(.r0, 0x000FF)]) = true := by decide
theorem test_immB_S2_intl_locked : holds (step (code State.reset [0x01, 0x0B, 0x01])) (slots [(.intl, 0), (.pc, 0x1003)]) = true := by decide
theorem test_immW_M8_jump : holds (step (code State.reset [0x02, 0x00, 0x00, 0x10])) (slots [(.pc, 0x1000)]) = true := by decide
theorem test_lodB_L9_pc_relative : holds (step (code State.reset [0x03, 0x10, 0x91, 0x05, 0x00])) (slots [(.r0, 0x03)]) = true := by decide
theorem test_lodB_L12_index_wraps :
    holds (step (code (at0 (State.reset.set .r7 0x101) 0x100 [0x5A]) [0x03, 0x14, 0xD7, 0xFF, 0xFF])) (slots [(.r4, 0x5A)]) = true := by decide
theorem test_lodW_L3_odd : holds (step (code (at0 State.reset 0x101 [0xCD, 0xAB]) [0x04, 0x10, 0x80, 0x01, 0x01])) (slots [(.r0, 0xABCD)]) = true := by decide
theorem test_lodW_L4_wraps_in_bank :
    holds (step (code (at0 State.reset 0 [0x77]) [0x04, 0x10, 0x80, 0xFF, 0xFF])) (slots [(.r0, 0x7700)]) = true := by decide
theorem test_stoB_T6_pc_relative :
    holds (step (code (State.reset.set .r0 0x5A) [0x05, 0x90, 0x01, 0x00, 0x10]))
      (fun t => t.memRead (addr0 0x1005) == 0x5A && t.get .pc == 0x1005) = true := by decide
theorem test_stoB_T10_timer :
    holds (step (code (State.reset.set .r0 0x77) [0x05, 0x80, 0x05, 0x30, 0x10])) (fun t => t.devices == [⟨.timer, 5, 0x77⟩]) = true := by decide
theorem test_stoW_T3 :
    holds (step (code (State.reset.set .r0 0xFABCD) [0x06, 0x80, 0x00, 0x02, 0x10]))
      (fun t => t.memRead (addr0 0x200) == 0xCD && t.memRead (addr0 0x201) == 0xAB && t.memRead (addr0 0x202) == 0) = true := by decide
theorem test_stoW_T5 :
    holds (step (code ((State.reset.set .sp 0x1F00).set .r3 0x1234) [0x06, 0xA1, 0x02, 0x00, 0x13]))
      (fun t => t.memRead (addr0 0x1EFE) == 0x34 && t.memRead (addr0 0x1EFF) == 0x12 && t.get .sp == 0x1F00) = true := by decide
theorem test_addiB_A3 : holds (step (code (State.reset.set .r0 0xFF01) [0x07, 0x10, 0xFF])) (slots [(.r0, 0), (.fl, 0)]) = true := by decide
theorem test_addiW_A4 : holds (step (code (State.reset.set .r0 5) [0x08, 0x10, 0xFF, 0xFF])) (slots [(.r0, 4)]) = true := by decide
theorem test_add_A9 : holds (step (code ((State.reset.set .r0 0xF0001).set .r1 0xA0002) [0x09, 0x10, 0x11])) (slots [(.r0, 3)]) = true := by decide
theorem test_add_A10_relative_jump : holds (step (code (State.reset.set .r2 4) [0x09, 0x00, 0x12])) (slots [(.pc, 0x1007)]) = true := by decide
theorem test_subiB_A5 : holds (step (code State.reset [0x0A, 0x10, 0x01])) (slots [(.r0, 0xFFFF)]) = true := by decide
theorem test_subiW_A6 : holds (step (code (State.reset.set .r0 0x7FFF) [0x0B, 0x10, 0x00, 0x80])) (slots [(.r0, 0xFFFF)]) = true := by decide
theorem test_sub_A2 : holds (step (code (State.reset.set .r1 1) [0x0C, 0x10, 0x11])) (slots [(.r0, 0xFFFF), (.fl, 0)]) = true := by decide
theorem test_not_B2 : holds (step (code (State.reset.set .r0 0xF00FF) [0x0D, 0x10])) (slots [(.r0, 0x0FF00), (.pc, 0x1002)]) = true := by decide
theorem test_and_B3 : holds (step (code ((State.reset.set .r0 0xF0F0).set .r1 0x3C3C) [0x0E, 0x10, 0x11])) (slots [(.r0, 0x3030)]) = true := by decide
theorem test_andiB_B4 : holds (step (code (State.reset.set .r0 0xABCD) [0x0F, 0x10, 0x0F])) (slots [(.r0, 0x000D)]) = true := by decide
theorem test_andiW_B5 : holds (step (code (State.reset.set .r0 0xABCD) [0x10, 0x10, 0x00, 0xFF])) (slots [(.r0, 0xAB00)]) = true := by decide
theorem test_orr_B6 : holds (step (code ((State.reset.set .r0 0xF0F0).set .r1 0x3C3C) [0x11, 0x10, 0x11])) (slots [(.r0, 0xFCFC)]) = true := by decide
theorem test_xor_B7 : holds (step (code ((State.reset.set .r0 0xF0F0).set .r1 0x3C3C) [0x12, 0x10, 0x11])) (slots [(.r0, 0xCCCC)]) = true := by decide
theorem test_shl_B9 : holds (step (code ((State.reset.set .r0 0x8001).set .r1 1) [0x13, 0x10, 0x11])) (slots [(.r0, 2)]) = true := by decide
theorem test_shl_B13_amount_not_reduced :
    holds (step (code ((State.reset.set .r0 0xFFFF).set .r1 0x100) [0x13, 0x10, 0x11])) (slots [(.r0, 0)]) = true := by decide
theorem test_shliB_B14 : holds (step (code (State.reset.set .r0 0x1234) [0x14, 0x10, 0x04])) (slots [(.r0, 0x2340)]) = true := by decide
theorem test_shr_B15_logical : holds (step (code ((State.reset.set .r0 0x8001).set .r1 1) [0x15, 0x10, 0x11])) (slots [(.r0, 0x4000)]) = true := by decide
theorem test_shriB_B16 : holds (step (code (State.reset.set .r0 0xABCD) [0x16, 0x10, 0x0C])) (slots [(.r0, 0x000A)]) = true := by decide
theorem test_shriB_B17_by_16 : holds (step (code (State.reset.set .r0 0xABCD) [0x16, 0x10, 0x10])) (slots [(.r0, 0)]) = true := by decide
theorem test_clr_G1 : holds (step (code (State.reset.set .r0 0xFFFFF) [0x17, 0x10])) (slots [(.r0, 0)]) = true := by decide
theorem test_sl4_G4 : holds (step (code (State.reset.set .r0 0xFABCD) [0x18, 0x10])) (slots [(.r0, 0x0BCD0)]) = true := by decide
theorem test_sr4_G5 : holds (step (code (State.reset.set .r0 0xABCD) [0x19, 0x10])) (slots [(.r0, 0x0ABC)]) = true := by decide
theorem test_sez_G7 : holds (step (code (State.reset.set .fl 6) [0x1A])) (slots [(.fl, 7), (.pc, 0x1001)]) = true := by decide
theorem test_clz_G8 : holds (step (code (State.reset.set .fl 7) [0x1B])) (slots [(.fl, 6)]) = true := by decide
theorem test_inz_G9 : holds (step (code State.reset [0x1C])) (slots [(.fl, 1)]) = true := by decide

/-- X3: each reserved opcode, and X2: an undefined one, moves PC by 1 and does nothing else. -/
theorem test_reserved_X3 :
    ([0x1D, 0x1E, 0x1F, 0x20, 0x21, 0x22, 0x23, 0x24].all fun op =>
      holds (step (code State.reset [op])) fun t => t == (code State.reset [op]).set .pc 0x1001) = true ∧
    ([0x25, 0x26, 0x27, 0x28, 0x29, 0x2A, 0x2B, 0x2C, 0xFF].all fun op =>
      holds (step (code State.reset [op])) fun t => t == (code State.reset [op]).set .pc 0x1001) = true := by decide

/-- X4: PC wraps inside the bank while an instruction is fetched. -/
theorem test_pc_wraps_X4 :
    holds (step (at0 ((State.reset.set .pc 0xFFFF).set .r1 0x77) 0 [0x10, 0x11])) (slots [(.r0, 0x77), (.pc, 2), (.pcb, 0)]) = true := by decide

/-! ### The MMU, faults and dispatch (95_test_vectors.md section 2.7) -/

/-- The common start of the fault vectors, page table entries 0 and 1 given. -/
def mmu (pte0 pte1 : Byte) : State :=
  at0 (at0 ((((State.reset.set .mmup 0x100).set .mmue 1).set .intp 0x200).set .intl 1) 0x100 [pte0, pte1]) 0x200 [0x00, 0x18, 0x10]

theorem test_fault_F1_word_load_high_byte :
    holds (step (code (at0 ((mmu 4 1).set .r2 0x9999) 0xFFF [0x11]) [0x04, 0x12, 0x80, 0xFF, 0x0F]))
      (slots [(.pc, 0x1800), (.exc, 2), (.mmue, 0), (.intl, 1), (.r0, 0x1000), (.r1, 0), (.rtip, 0x1005), (.r2, 0x9999)]) = true := by decide
theorem test_fault_F2_word_store_high_byte :
    holds (step (code ((mmu 2 1).set .r2 0xABCD) [0x06, 0x80, 0xFF, 0x0F, 0x12]))
      (fun t => t.memRead (addr0 0xFFF) == 0xCD && t.memRead (addr0 0x1000) == 0x06 && slots [(.r0, 0x1000), (.rtip, 0x1005)] t) = true := by decide
theorem test_fault_F3_fetch :
    holds (step (at0 (((mmu 0 1).set .pc 0x1FFE).set .r2 0x9999) 0x1FFE [0x02, 0x12]))
      (slots [(.r0, 0x2000), (.rtip, 0x2000), (.r2, 0x9999), (.pc, 0x1800), (.exc, 2)]) = true := by decide
theorem test_fault_F4_locked_destination : holds (step (code (mmu 0 1) [0x03, 0x06, 0x80, 0x2A, 0x00])) (slots [(.r0, 0x2A), (.exc, 2)]) = true := by decide
theorem test_fault_F6_reserved_permission_bits :
    holds (step (code (at0 (mmu 0xF8 0xF9) 0x2A [0x7F]) [0x03, 0x12, 0x80, 0x2A, 0x00])) (slots [(.r0, 0x2A), (.exc, 2)]) = true ∧
    holds (step (code (at0 (mmu 0xFC 0xF9) 0x2A [0x7F]) [0x03, 0x12, 0x80, 0x2A, 0x00])) (slots [(.r2, 0x7F), (.exc, 0)]) = true := by decide
theorem test_trigger_F10_sentinel_falls_back :
    slots [(.mmue, 0), (.exc, 1), (.pc, 0x1800), (.rtip, 0x1000), (.intl, 1)] (State.trigger 1 (at0 (mmu 0 1) 0x203 [0, 0, 0x10])) = true := by decide
theorem test_trigger_F11_guard :
    slots [(.pc, 0x1000), (.exc, 1), (.mmue, 0), (.intl, 0), (.rtip, 0x1000), (.mmup, 0x100)]
      (State.trigger 0 (at0 (mmu 0 1) 0x200 [0, 0, 0xC0])) = true := by decide
theorem test_trigger_F12_entry_fields :
    slots [(.pcb, 0xA), (.pc, 0x1234), (.mmue, 0), (.intl, 0), (.exc, 0), (.rtip, 0x1000)]
      (State.trigger 85 (at0 (mmu 0 1) 0x2FF [0x34, 0x12, 0x3A])) = true := by decide
theorem test_trigger_S5 :
    slots [(.pc, 0x1000), (.exc, 1), (.mmue, 0), (.fl, 0), (.sp, 0x1F00), (.mmup, 0x100), (.r0, 0xAAAA)]
      (State.trigger 7 ((((((State.reset.set .sp 0x1F00).set .fl 5).set .mmup 0x100).set .mmue 1).set .r0 0xAAAA))) = true := by decide
theorem test_stepTrace_F4b :
    (code (at0 (mmu 4 1) 0x2A [0x55]) [0x03, 0x06, 0x80, 0x2A, 0x00]).stepTrace =
      [0x101, 0x1000, 0x101, 0x1001, 0x101, 0x1002, 0x101, 0x1003, 0x101, 0x1004, 0x100, 0x2A].map fun o => .read (addr0 o) := by decide

/-! ### The assembler (30_encoding.md R103; 95_test_vectors.md S8) -/

theorem test_assemble : Asm.assemble "lod.b r4, [r7 + r0]" = some [0x03, 0x14, 0x57, 0x10] ∧ Asm.assemble "sez" = some [0x1A] := by decide
theorem test_assemble_rejects : Asm.assemble "MOV r0, r1" = none ∧ Asm.assemble "lod.b r0, [42" = none ∧ Asm.assemble "rsv.jmp" = none := by decide

/-- The index form's `r` and digit stand joined (log entry 16). -/
theorem test_assemble_index_joined :
    Asm.assemble "sto.b [r2 + 512], r0" = some [0x05, 0xD2, 0x00, 0x02, 0x10] ∧ Asm.assemble "sto.b [r 2 + 512], r0" = none := by decide

/-! ### Witnesses: concrete inputs that meet the hypotheses of each statement, clause by clause, at the ends of their ranges -/

theorem isNext_of_holds {o : Outcome} {p : State → Bool} (h : holds o p = true) : ∃ t, o = .next t :=
  let ⟨t, e, _⟩ := exists_of_holds h
  ⟨t, e⟩

/-- An address in the last page of RAM's first half: page 0 of bank 0. -/
def a42 : Addr := addr0 0x2A

/-- `lod.b r2, [42]` and `sto.b [42], r2` as terms. -/
def m42 : MemOperand := ⟨.absolute, 0, .imm 0x2A⟩

theorem witness_DecodeOfEncode : (Instr.stoW ⟨.indexed, 7, .imm 0xFFFF⟩ .r7).wellFormed = true ∧ (Instr.rsvJmpf).wellFormed = true := by decide

theorem witness_EncodeOfDecode : decode [0x06, 0xD7, 0xFF, 0xFF, 0x17, 0xEE] = some (.instr (.stoW ⟨.indexed, 7, .imm 0xFFFF⟩ .r7), [0xEE]) := by decide

theorem witness_FiveBytesAlwaysDecode : 5 ≤ ([0x06, 0xF0, 0x00, 0x00, 0xFF] : List Byte).length := by decide

theorem witness_EncodingsWithoutMeaning_first_register :
    ((0x00 : Byte).toNat < 5 ∧ 24 ≤ (24 : Byte).toNat ∧ decode [0x00, 24] = some (.reject .slotOutOfFile, [])) ∧
    ((0x04 : Byte).toNat < 5 ∧ 24 ≤ (255 : Byte).toNat ∧ decode [0x04, 255] = some (.reject .slotOutOfFile, [])) ∧
    ((7 ≤ (0x07 : Byte).toNat ∧ (0x07 : Byte).toNat ≤ 0x19) ∧ decode [0x07, 24] = some (.reject .slotOutOfFile, [])) ∧
    ((7 ≤ (0x19 : Byte).toNat ∧ (0x19 : Byte).toNat ≤ 0x19) ∧ decode [0x19, 24] = some (.reject .slotOutOfFile, [])) := by decide

theorem witness_EncodingsWithoutMeaning_second_register :
    ((0x15 : Byte).toNat ∈ [0x00, 0x09, 0x0C, 0x0E, 0x11, 0x12, 0x13, 0x15] ∧ (23 : Byte).toNat < 24 ∧ 24 ≤ (24 : Byte).toNat) ∧
    decode [0x15, 23, 24] = some (.reject .slotOutOfFile, []) := by decide

theorem witness_EncodingsWithoutMeaning_source_register :
    (23 : Byte).toNat < 24 ∧ (0x7F : Byte).toNat < 128 ∧ 24 ≤ (24 : Byte).toNat ∧ decode [0x04, 23, 0x7F, 24] = some (.reject .slotOutOfFile, []) ∧
    decode [0x05, 0x00, 255] = some (.reject .slotOutOfFile, []) := by decide

theorem witness_SourceBytes : SourceBytes 0x7F [23] ∧ SourceBytes 0x00 [0] ∧ SourceBytes 0x80 [0, 0] ∧ SourceBytes 0xFF [0xFF, 0xFF] :=
  ⟨.inl ⟨by decide, 23, by decide, rfl⟩, .inl ⟨by decide, 0, by decide, rfl⟩, .inr ⟨by decide, 0, 0, rfl⟩, .inr ⟨by decide, 0xFF, 0xFF, rfl⟩⟩

theorem witness_EncodingsWithoutMeaning_last_register :
    (SourceBytes 0xD7 [0, 0] ∧ (0xD7 : Byte).toNat / 16 % 8 < 6 ∧ (0xD7 : Byte).toNat % 16 < 8 ∧ 24 ≤ (24 : Byte).toNat) ∧
    decode [0x06, 0xD7, 0, 0, 24] = some (.reject .slotOutOfFile, []) :=
  ⟨⟨.inr ⟨by decide, 0, 0, rfl⟩, by decide⟩, by decide⟩

theorem witness_EncodingsWithoutMeaning_mode :
    (SourceBytes 0x60 [23] ∧ 6 ≤ (0x60 : Byte).toNat / 16 % 8 ∧ SourceBytes 0xFF [0, 0] ∧ 6 ≤ (0xFF : Byte).toNat / 16 % 8) ∧
    decode [0x03, 23, 0x60, 23] = some (.reject .reservedMode, []) ∧ decode [0x05, 0xFF, 0, 0] = some (.reject .reservedMode, []) :=
  ⟨⟨.inl ⟨by decide, 23, by decide, rfl⟩, by decide, .inr ⟨by decide, 0, 0, rfl⟩, by decide⟩, by decide⟩

theorem witness_EncodingsWithoutMeaning_index :
    (SourceBytes 0x58 [0] ∧ (0x58 : Byte).toNat / 16 % 8 = 5 ∧ 8 ≤ (0x58 : Byte).toNat % 16) ∧
    decode [0x04, 0, 0x58, 0] = some (.reject .indexOutOfFile, []) ∧ decode [0x06, 0xDF, 0, 0] = some (.reject .indexOutOfFile, []) :=
  ⟨⟨.inl ⟨by decide, 0, by decide, rfl⟩, by decide⟩, by decide⟩

theorem witness_StepRunsTheDecodedInstruction :
    ((code State.reset [0x1A]).MayFetch 1 ∧ decode ((code State.reset [0x1A]).codeBytes 1) = some (.instr .sez, [])) ∧
    ((code (mmu 0 1) [0x03, 0x12, 0x80, 0x2A, 0x00]).MayFetch 5 ∧
      decode ((code (mmu 0 1) [0x03, 0x12, 0x80, 0x2A, 0x00]).codeBytes 5) = some (.instr (.lodB .r2 m42), [])) := by decide

theorem witness_StepRefusesEncodingsWithoutMeaning :
    ((code State.reset [0x17, 24]).MayFetch 2 ∧ decode ((code State.reset [0x17, 24]).codeBytes 2) = some (.reject .slotOutOfFile, [])) ∧
    ((code State.reset [0x05, 0x60, 0]).MayFetch 3 ∧ decode ((code State.reset [0x05, 0x60, 0]).codeBytes 3) = some (.reject .reservedMode, [])) ∧
    ((code State.reset [0x05, 0x58, 0]).MayFetch 3 ∧ decode ((code State.reset [0x05, 0x58, 0]).codeBytes 3) = some (.reject .indexOutOfFile, [])) := by
  decide

theorem witness_ReservedAndUndefinedOpcodesAdvanceByOne :
    ((code (mmu 0 1) [0x1D]).MayFetch 1 ∧ 0x1D ≤ ((code (mmu 0 1) [0x1D]).memRead ((code (mmu 0 1) [0x1D]).codeAddr 0)).toNat) ∧
    ((code State.reset [0x2C]).MayFetch 1 ∧ 0x1D ≤ ((code State.reset [0x2C]).memRead ((code State.reset [0x2C]).codeAddr 0)).toNat) ∧
    ((code State.reset [0x2D]).MayFetch 1 ∧ 0x1D ≤ ((code State.reset [0x2D]).memRead ((code State.reset [0x2D]).codeAddr 0)).toNat) := by decide

theorem witness_SpinIsAFixedPoint :
    (code (mmu 0 1) [0x0A, 0x00, 0x03]).MayFetch 3 ∧ (code (mmu 0 1) [0x0A, 0x00, 0x03]).codeBytes 3 = [0x0A, 0x00, 0x03] ∧
    ((code (mmu 0 1) [0x0A, 0x00, 0x03]).get .pc).toNat < 65536 := by decide

/-- F3's state: two bytes fetched, the third lies in a page without X. -/
def fetchDenied : State := at0 ((mmu 0 1).set .pc 0x1FFE) 0x1FFE [0x02, 0x12]

theorem witness_Abandoned_fetch :
    (fetchDenied.MayFetch 2 ∧ decode (fetchDenied.codeBytes 2) = none ∧ fetchDenied.perm (fetchDenied.codeAddr 2) .exec = false) ∧
    ((mmu 0 0).MayFetch 0 ∧ decode ((mmu 0 0).codeBytes 0) = none ∧ (mmu 0 0).perm ((mmu 0 0).codeAddr 0) .exec = false) := by decide

/-- A word operand at (0, 0x0FFF): its high byte lies in the next page. -/
def mFFF : MemOperand := ⟨.absolute, 0, .imm 0xFFF⟩

theorem witness_Abandoned_load :
    ((mmu 0 1).resolve m42 = .ok a42 ∧ (mmu 0 1).perm a42 .read = false) ∧
    ((mmu 4 1).resolve mFFF = .ok (addr0 0xFFF) ∧ (mmu 4 1).perm (addr0 0xFFF) .read = true ∧
      (mmu 4 1).perm (addrPlus (addr0 0xFFF) 1) .read = false) := by
  refine ⟨⟨rfl, by decide⟩, rfl, by decide, by decide⟩

theorem witness_Abandoned_store :
    ((mmu 4 1).beforeRsByte.resolve m42 = .ok a42 ∧ (mmu 4 1).perm a42 .write = false) ∧
    ((mmu 2 1).beforeRsByte.resolve mFFF = .ok (addr0 0xFFF) ∧ (mmu 2 1).perm (addr0 0xFFF) .write = true ∧
      (0 : Byte).toNat = ((mmu 2 1).get .r2).toNat % 256 ∧
      ((mmu 2 1).memWrite (addr0 0xFFF) 0).perm (addrPlus (addr0 0xFFF) 1) .write = false) := by
  refine ⟨⟨rfl, by decide⟩, rfl, by decide, by decide, by decide⟩

theorem witness_ReservedOpcodesChangeNothing : Instr.rsvSext ∈ reservedInstrs ∧ Instr.rsvJmpf ∈ reservedInstrs ∧ reservedInstrs.length = 16 := by decide

theorem witness_ResolverAddresses_index : (Slot.r0).val = 16 + (0 : BitVec 4).toNat ∧ (Slot.r7).val = 16 + (7 : BitVec 4).toNat := by decide

theorem witness_IllFormedIndexStops :
    ((⟨.indexed, 8, .imm 0⟩ : MemOperand).mode = .indexed ∧ 8 ≤ (8 : BitVec 4).toNat) ∧
    ((⟨.indexed, 15, .reg .r0⟩ : MemOperand).mode = .indexed ∧ 8 ≤ (15 : BitVec 4).toNat) := by decide

theorem witness_loads :
    ((mmu 4 1).resolve m42 = .ok a42 ∧ (mmu 4 1).perm a42 .read = true) ∧
    (State.reset.resolve ⟨.absolute, 0, .imm 0xFFFF⟩ = .ok (addr0 0xFFFF) ∧ State.reset.perm (addr0 0xFFFF) .read = true ∧
      State.reset.perm (addrPlus (addr0 0xFFFF) 1) .read = true) := by
  refine ⟨⟨rfl, by decide⟩, rfl, by decide, by decide⟩

theorem witness_StoreByteStoresTheLowByte :
    ((mmu 2 1).beforeRsByte.resolve m42 = .ok a42 ∧ (mmu 2 1).perm a42 .write = true) ∧
    (State.reset.beforeRsByte.resolve ⟨.pcRel, 0, .imm 1⟩ = .ok (addr0 0x1000) ∧ State.reset.perm (addr0 0x1000) .write = true) := by
  refine ⟨⟨rfl, by decide⟩, rfl, by decide⟩

theorem witness_StoreWordStoresLowThenHigh :
    State.reset.beforeRsByte.resolve ⟨.absolute, 0, .imm 0x1FFE⟩ = .ok (addr0 0x1FFE) ∧ State.reset.perm (addr0 0x1FFE) .write = true ∧
    (0 : Byte).toNat = (State.reset.get .r0).toNat % 256 ∧ (State.reset.memWrite (addr0 0x1FFE) 0).perm (addrPlus (addr0 0x1FFE) 1) .write = true := by
  refine ⟨rfl, by decide, by decide, by decide⟩

theorem witness_the_map :
    (InRam (addr0 0) ∧ InRam (addr0 0x1FFF)) ∧ (InAudio (addr0 0x2000) ∧ InAudio (addr0 0x2FFF)) ∧ (InTimer (addr0 0x3000) ∧ InTimer (addr0 0x3FFF)) ∧
    (IsUnmapped (addr0 0x4000) ∧ IsUnmapped (addr0 0xFFFF) ∧ IsUnmapped { bank := 1, offset := 0 } ∧ IsUnmapped { bank := 15, offset := 0xFFFF }) := by
  unfold InRam InAudio InTimer IsUnmapped; decide

theorem witness_ByteStored_at_the_ends : State.reset.Canonical ∧ (mmu 0 1).Canonical ∧ InRam (addr0 0x1FFE) ∧ InRam (addrPlus (addr0 0x1FFE) 1) := by
  unfold InRam; decide

theorem witness_WordStoredIsLoadedBack :
    State.reset.Canonical ∧ State.reset.flagOf .mmue = false ∧ InRam (addr0 0x1FFE) ∧ InRam (addrPlus (addr0 0x1FFE) 1) := by
  unfold InRam; decide

theorem witness_StoreIsSeenByTheNextFetch : State.reset.Canonical ∧ State.reset.flagOf .mmue = false ∧ InRam (State.reset.codeAddr 0) := by
  unfold InRam; decide

theorem witness_LockRule :
    (State.reset.locked .intl = true ∧ State.reset.locked .mmup = false ∧ State.reset.locked .intp = false) ∧
    ((mmu 0 1).locked .mmub = true ∧ (mmu 0 1).locked .mmue = true ∧ (mmu 0 1).locked .intb = true ∧ (mmu 0 1).locked .pc = false) := by decide

theorem witness_LockedWriteIsDropped :
    (destOf (.lodB .mmup m42) = some .mmup ∧ (mmu 0 1).locked .mmup = true ∧ ∃ t, exec (.lodB .mmup m42) (mmu 0 1) = .next t) ∧
    (destOf (.not .intl) = some .intl ∧ State.reset.locked .intl = true ∧ ∃ t, exec (.not .intl) State.reset = .next t) :=
  ⟨⟨rfl, by decide, isNext_of_holds (p := fun _ => true) (by decide)⟩, rfl, by decide, isNext_of_holds (p := fun _ => true) (by decide)⟩

theorem witness_PermissionFunction :
    State.reset.get .mmue = 0 ∧
    ((mmu 0 1).get .mmue ≠ 0 ∧ (addr0 0x101).bank.toNat = ((mmu 0 1).get .mmub).toNat % 16 ∧
      (addr0 0x101).offset.toNat = (low16 (mmu 0 1) .mmup + ((addr0 0x1FFF).bank.toNat * 16 + (addr0 0x1FFF).offset.toNat / 4096)) % 65536) := by
  unfold low16; decide

theorem witness_UnmappedPlaces :
    IsUnmapped (addr0 0x4000) ∧ State.reset.resolve ⟨.absolute, 0, .imm 0x4000⟩ = .ok (addr0 0x4000) ∧ State.reset.perm (addr0 0x4000) .read = true ∧
    State.reset.beforeRsByte.resolve ⟨.absolute, 0, .imm 0x4000⟩ = .ok (addr0 0x4000) ∧ State.reset.perm (addr0 0x4000) .write = true := by
  refine ⟨.inr (by decide), rfl, by decide, rfl, by decide⟩

theorem witness_RamReturnsTheLastByteWritten : State.reset.Canonical ∧ InRam (addr0 0) ∧ InRam (addr0 0x1FFF) := by unfold InRam; decide

theorem witness_TriggerWithInterruptsDisabledResets : State.reset.get .intl = 0 := by decide

theorem witness_TriggerDispatchesThroughTheTable :
    (mmu 0 1).get .intl ≠ 0 ∧ ¬ IsSentinel (entryValue (mmu 0 1) 0) ∧
    ¬ IsSentinel (entryValue (at0 (mmu 0 1) 0x2FF [0, 0, 0x01]) 85) ∧ ¬ IsSentinel (entryValue (at0 (mmu 0 1) 0x4FD [1, 0, 0]) 255) := by
  unfold IsSentinel; decide

theorem witness_SentinelEntryFallsBack :
    ((mmu 0 1).get .intl ≠ 0 ∧ IsSentinel (entryValue (mmu 0 1) 1) ∧ (1 : Kind).toNat ≠ 0) ∧
    ((at0 (mmu 0 1) 0x200 [0, 0, 0xF0]).get .intl ≠ 0 ∧ IsSentinel (entryValue (at0 (mmu 0 1) 0x200 [0, 0, 0xF0]) 0) ∧ (0 : Kind).toNat = 0) := by
  unfold IsSentinel; decide

theorem witness_PageAccessViolation :
    (State.reset.get .intl = 0) ∧ ((mmu 0 1).get .intl ≠ 0 ∧ ¬ IsSentinel (entryValue (mmu 0 1) 0)) ∧
    ((at0 (mmu 0 1) 0x200 [0, 0, 0xC0]).get .intl ≠ 0 ∧ IsSentinel (entryValue (at0 (mmu 0 1) 0x200 [0, 0, 0xC0]) 0)) := by
  unfold IsSentinel; decide

theorem witness_SoftwareReturnRestoresPc :
    (mmu 0 1).get .intl ≠ 0 ∧ ¬ IsSentinel (entryValue (mmu 0 1) 0) ∧ ((mmu 0 1).get .pcb).toNat = entryValue (mmu 0 1) 0 / 65536 % 16 := by
  unfold IsSentinel; decide

/-- Every kind of move has a next state from a canonical 16-bit state. -/
theorem witness_moves :
    (mmu 0 1).Canonical ∧ (mmu 0 1).SixteenBit ∧
    ([Move.step, .trigger 255, .reset, .hostSet .intl 0xFFFFF, .hostPoke (addr0 0x1FFF) 0xFF].all fun m => holds (m.apply (mmu 0 1)) fun _ => true) = true := by
  decide

theorem witness_EveryMoveKeepsMemoryCanonical : State.reset.Canonical ∧ ∃ t, (Move.hostPoke (addr0 0x1FFF) 0xFF).apply State.reset = .next t :=
  ⟨by decide, isNext_of_holds (p := fun _ => true) (by decide)⟩

theorem witness_SlotsStaySixteenBit :
    (mmu 0 1).SixteenBit ∧ (∀ i v, Move.step ≠ .hostSet i v) ∧ ∃ t, Move.step.apply (mmu 0 1) = .next t :=
  ⟨by decide, by simp, isNext_of_holds (p := fun _ => true) (by decide)⟩

theorem witness_OnlyTheHostSetsIntl :
    (∀ v, Move.trigger 85 ≠ .hostSet .intl v) ∧
    ∃ t, (Move.trigger 85).apply (at0 (mmu 0 1) 0x2FF [0x34, 0x12, 0x3A]) = .next t ∧ (t.get .intl == 0) = true :=
  ⟨by simp, exists_of_holds (p := fun t => t.get .intl == 0) (by decide)⟩

theorem witness_frozen_registers :
    (mmu 0 1).get .mmue ≠ 0 ∧ (mmu 0 1).get .intl ≠ 0 ∧ (∀ i v, Move.step ≠ .hostSet i v) ∧
    ∃ t, Move.step.apply (code (mmu 0 1) [0x02, 0x06, 0, 0]) = .next t ∧ slots [(.mmup, 0x100), (.pc, 0x1004)] t = true :=
  ⟨by decide, by decide, by simp, exists_of_holds (by decide)⟩

theorem witness_WritersOfTheFlags :
    (∃ t, Move.step.apply (code State.reset [0x1A]) = .next t ∧ (t.get .fl != (code State.reset [0x1A]).get .fl) = true) ∧
    (∃ t, Move.step.apply (code State.reset [0x01, 0x05, 0x09]) = .next t ∧ (t.get .fl != (code State.reset [0x01, 0x05, 0x09]).get .fl) = true) ∧
    (∃ t, Move.reset.apply (State.reset.set .fl 1) = .next t ∧ (t.get .fl != (State.reset.set .fl 1).get .fl) = true) ∧
    (∃ t, (Move.hostSet .fl 1).apply State.reset = .next t ∧ (t.get .fl != State.reset.get .fl) = true) :=
  ⟨exists_of_holds (p := fun t => t.get .fl != _) (by decide), exists_of_holds (p := fun t => t.get .fl != _) (by decide),
    exists_of_holds (p := fun t => t.get .fl != _) (by decide), exists_of_holds (p := fun t => t.get .fl != _) (by decide)⟩

/-- From reset, with RAM all 0, the instruction is `mov pc, pc`, which names neither FL nor BP. -/
theorem reset_runs_mov_pc_pc : ∀ n i, decode (State.reset.codeBytes n) = some (.instr i, []) → i = .mov .pc .pc := by
  intro n i h
  have hz (a : Addr) : State.reset.memRead a = 0 := by unfold State.memRead; split <;> rfl
  have hb : State.reset.codeBytes n = List.replicate n 0 := by simp [State.codeBytes, hz, List.map_const']
  rw [hb] at h
  match n with
  | 0 | 1 | 2 => cases h
  | 3 => cases h; rfl
  | n + 4 => exact absurd (congrArg (fun x => x.map Prod.snd) h) (by simp only [List.replicate_succ]; intro e; cases e)

theorem witness_FlagsAreNeverRead :
    (∀ n i, decode (State.reset.codeBytes n) = some (.instr i, []) → instrReads .fl i = false) ∧ ∃ t, step State.reset = .next t :=
  ⟨fun n i h => by rw [reset_runs_mov_pc_pc n i h]; rfl, isNext_of_holds (p := fun _ => true) (by decide)⟩

theorem witness_BasePointerIsPlainStorage :
    ((∀ n i, decode (State.reset.codeBytes n) = some (.instr i, []) → instrReads .bp i = false) ∧ ∃ t, step State.reset = .next t) ∧
    (∃ t, Move.step.apply (code State.reset [0x01, 0x03, 0x09]) = .next t ∧ (t.get .bp != (code State.reset [0x01, 0x03, 0x09]).get .bp) = true) ∧
    (∃ t, (Move.hostSet .bp 1).apply State.reset = .next t ∧ (t.get .bp != State.reset.get .bp) = true) :=
  ⟨⟨fun n i h => by rw [reset_runs_mov_pc_pc n i h]; rfl, isNext_of_holds (p := fun _ => true) (by decide)⟩,
    exists_of_holds (p := fun t => t.get .bp != _) (by decide), exists_of_holds (p := fun t => t.get .bp != _) (by decide)⟩

/-- No access denied: a destination, the flag, nothing. -/
theorem witness_EveryInstructionHasItsFrame :
    (∃ t, exec (.lodB .r2 m42) (at0 (mmu 4 1) 0x2A [0x5A]) = .next t ∧ slots [(.r2, 0x5A), (.pc, 0x1000)] t = true) ∧
    (∃ t, exec .sez (State.reset.set .fl 6) = .next t ∧ slots [(.fl, 7)] t = true) ∧
    (∃ t, exec (.add .r0 .pc) State.reset = .next t ∧ slots [(.r0, 0x1000)] t = true) :=
  ⟨exists_of_holds (by decide), exists_of_holds (by decide), exists_of_holds (by decide)⟩

/-- The low or the high byte of a load denied. -/
theorem witness_Frame_load_denied :
    (State.resolve (mmu 0 1) m42 = .ok a42 ∧ (mmu 0 1).perm a42 .read = false ∧
      ∃ t, exec (.lodB .r2 m42) (mmu 0 1) = .next t ∧ slots [(.exc, 2), (.r2, 0)] t = true) ∧
    (State.resolve (mmu 4 1) mFFF = .ok (addr0 0xFFF) ∧ (mmu 4 1).perm (addr0 0xFFF) .read = true ∧
      (mmu 4 1).perm (addrPlus (addr0 0xFFF) 1) .read = false ∧
      ∃ t, exec (.lodW .r2 mFFF) (mmu 4 1) = .next t ∧ slots [(.exc, 2), (.r2, 0), (.r0, 0x1000)] t = true) :=
  ⟨⟨rfl, by decide, exists_of_holds (by decide)⟩, rfl, by decide, by decide, exists_of_holds (by decide)⟩

/-- Permitted stores up to the last bytes of RAM, outside the device windows. -/
theorem witness_Frame_store :
    let m : MemOperand := ⟨.absolute, 0, .imm 0x1FFF⟩
    let n : MemOperand := ⟨.absolute, 0, .imm 0x1FFE⟩
    let s := State.reset.set .r3 0xABCD
    (s.beforeRsByte.resolve m = .ok (addr0 0x1FFF) ∧ ¬ InAudio (addr0 0x1FFF) ∧ ¬ InTimer (addr0 0x1FFF) ∧
      ∃ t, exec (.stoB m .r3) s = .next t ∧ (t.memRead (addr0 0x1FFF) == 0xCD) = true) ∧
    (s.beforeRsByte.resolve n = .ok (addr0 0x1FFE) ∧ ¬ InAudio (addr0 0x1FFE) ∧ ¬ InTimer (addr0 0x1FFE) ∧
      ¬ InAudio (addrPlus (addr0 0x1FFE) 1) ∧ ¬ InTimer (addrPlus (addr0 0x1FFE) 1) ∧
      ∃ t, exec (.stoW n .r3) s = .next t ∧ (t.memRead (addr0 0x1FFE) == 0xCD && t.memRead (addr0 0x1FFF) == 0xAB) = true) := by
  unfold InAudio InTimer
  refine ⟨⟨rfl, by decide, by decide, exists_of_holds (p := fun t => t.memRead _ == _) (by decide)⟩, rfl, by decide, by decide, by decide, by decide,
    exists_of_holds (p := fun t => t.memRead _ == _ && t.memRead _ == _) (by decide)⟩

/-- The low or the high byte of a store denied; in the second case the low byte stays stored. -/
theorem witness_Frame_store_denied :
    let s := (mmu 2 1).set .r3 0xABCD
    ((mmu 1 1).beforeRsByte.resolve m42 = .ok a42 ∧ (mmu 1 1).perm a42 .write = false ∧
      ∃ t, exec (.stoB m42 .r3) (mmu 1 1) = .next t ∧ slots [(.exc, 2), (.r0, 0x2A)] t = true) ∧
    (s.beforeRsByte.resolve mFFF = .ok (addr0 0xFFF) ∧ s.perm (addr0 0xFFF) .write = true ∧ (0xCD : Byte).toNat = (s.get .r3).toNat % 256 ∧
      (s.memWrite (addr0 0xFFF) 0xCD).perm (addrPlus (addr0 0xFFF) 1) .write = false ∧
      ∃ t, exec (.stoW mFFF .r3) s = .next t ∧ (t.memRead (addr0 0xFFF) == 0xCD && slots [(.exc, 2), (.r0, 0x1000)] t) = true) :=
  ⟨⟨rfl, by decide, exists_of_holds (by decide)⟩, rfl, by decide, by decide, by decide,
    exists_of_holds (p := fun t => t.memRead _ == _ && slots _ t) (by decide)⟩

theorem witness_EveryWellFormedInstructionCompletes : (Instr.lodW .r0 ⟨.indexed, 7, .reg .r7⟩).wellFormed = true := by decide

theorem witness_WithTheMmuOffNothingTraps : State.reset.get .mmue = 0 ∧ (Instr.stoW ⟨.absolute, 15, .imm 0xFFFF⟩ .r0).wellFormed = true := by decide

theorem witness_PageWithoutWritePermissionIsUnchanged :
    (mmu 5 1).get .mmue ≠ 0 ∧ (mmu 5 1).perm a42 .write = false ∧ (mmu 5 1).perm ((mmu 5 1).pteAddr a42) .write = false ∧
    ∃ t, step (code (mmu 5 1) [0x05, 0x80, 0x2A, 0x00, 0x12]) = .next t ∧ slots [(.exc, 2)] t = true :=
  ⟨by decide, by decide, by decide, exists_of_holds (by decide)⟩

/-- Two states that differ in the byte at 0x2A, in a page with W but neither R nor X. -/
theorem witness_UnreadableByteDoesNotLeak :
    let s := mmu 2 1
    let s' := s.memWrite a42 0x55
    s.Canonical ∧ s'.Canonical ∧ s.regs = s'.regs ∧ s.devices = s'.devices ∧ ReadsAlikeExcept a42 s s' ∧ s.memRead a42 ≠ s'.memRead a42 ∧
    s.get .mmue ≠ 0 ∧ s.perm a42 .read = false ∧ s.perm a42 .exec = false ∧ (∀ b, s.pteAddr b ≠ a42) ∧
    (∀ j : Half, j.toNat < 3 → s.entryAddr 0 j ≠ a42) ∧ ∃ t, step s = .next t := by
  refine ⟨by decide, by decide, by decide, by decide, fun b hb => ?_, by decide, by decide, by decide, by decide, fun b hb => ?_, fun j hj hb => ?_,
    isNext_of_holds (p := fun _ => true) (by decide)⟩
  · exact (State.memRead_memWrite_ne _ _ hb).symm
  · have h := congrArg (fun x : Addr => x.offset.toNat) hb
    have hp : (mmu 2 1).offOf .mmup = 0x100 := by decide
    simp only [State.pteAddr, hp, BitVec.toNat_add, toNat_zext16] at h
    have := (pageIndex b).isLt
    have e1 : (0x100 : Half).toNat = 0x100 := rfl
    have e2 : a42.offset.toNat = 0x2A := rfl
    omega
  · have h := congrArg (fun x : Addr => x.offset.toNat) hb
    have hp : (mmu 2 1).offOf .intp = 0x200 := by decide
    have e3 : (0 : Kind).toNat = 0 := rfl
    simp only [State.entryAddr, hp, BitVec.toNat_add, BitVec.toNat_mul, toNat_zext16, e3, Nat.mul_zero] at h
    have e1 : (0x200 : Half).toNat = 0x200 := rfl
    have e2 : a42.offset.toNat = 0x2A := rfl
    omega

theorem witness_StepTraceReplaysToTheState : ∃ t, step (code (mmu 2 1) [0x05, 0x80, 0x2A, 0x00, 0x12]) = .next t :=
  isNext_of_holds (p := fun _ => true) (by decide)

/-- The longest trace: a word store whose high byte is denied makes 16 accesses, one of them a write; with the MMU off it makes two writes. -/
theorem witness_StepTraceIsBounded :
    (code (mmu 2 1) [0x06, 0x80, 0xFF, 0x0F, 0x12]).stepTrace.length = 16 ∧ writeCount (code (mmu 2 1) [0x06, 0x80, 0xFF, 0x0F, 0x12]).stepTrace = 1 ∧
    writeCount (code State.reset [0x06, 0x80, 0xFF, 0x0F, 0x12]).stepTrace = 2 ∧ (State.triggerTrace 1 (mmu 0 1)).length = 6 := by decide

theorem witness_FetchesGoOutInAddressOrder :
    (code State.reset [0xFF]).MayFetch 1 ∧ decode ((code State.reset [0xFF]).codeBytes 1) = some (.undefinedOpcode 0xFF, []) ∧
    (code (mmu 0 1) [0x0D, 0x10]).MayFetch 2 ∧ decode ((code (mmu 0 1) [0x0D, 0x10]).codeBytes 2) = some (.instr (.not .r0), []) := by decide

theorem witness_AssemblerEmitsWhatTheDecoderReads : Asm.assemble "sto.b [7: 1], r0" = some [0x05, 0x87, 0x01, 0x00, 0x10] := by decide

end Sys2Proof.Machine.Tests
end

section
/-! SUPPORT. What changes a given slot: the lock rule (10_state.md R30), the traps, and every move sorted by how it can write the slot. -/

namespace Sys2Proof.Machine

/-! ### The lock rule -/

theorem State.locked_iff (s : State) (i : Slot) :
    s.locked i = true ↔
      i = .intl ∨ (s.get .mmue ≠ 0 ∧ (i = .mmub ∨ i = .mmup ∨ i = .mmue)) ∨
      (s.get .intl ≠ 0 ∧ (i = .intb ∨ i = .intp ∨ i = .intl)) := by
  simp only [State.locked, State.flagOf, Bool.or_eq_true, Bool.and_eq_true, beq_iff_eq, flag_eq_true_iff, or_assoc]

/-- The slots the lock can ever hold. -/
def lockableSlots : List Slot := [.mmub, .mmup, .mmue, .intb, .intp, .intl]

/-- Every other slot is never locked. -/
theorem State.locked_eq_false {i : Slot} (hi : i ∉ lockableSlots) (s : State) : s.locked i = false := by
  rw [← Bool.not_eq_true, State.locked_iff]
  simp only [lockableSlots, List.mem_cons, List.not_mem_nil, or_false, not_or] at hi
  simp [hi]

/-! ### The three ways the hardware writes slots that no instruction names -/

/-- `t` is what a page-access violation, a trigger or a reset makes of `u`. -/
inductive Trap (u : State) : State → Prop where
  | violation (a : Addr) : Trap u (u.pageAV a)
  | trigger (kind : Kind) : Trap u (State.trigger kind u)
  | reset : Trap u u.hardReset

/-- A trap keeps every slot but its own and the two a violation reports in. -/
theorem Trap.get_eq {u t : State} (h : Trap u t) {j : Slot} (hj : j ∉ trapSlots) (h0 : j ≠ .r0) (h1 : j ≠ .r1) : t.get j = u.get j := by
  cases h with
  | violation a => exact (u.pageAV_frame a).slots j hj h0 h1
  | trigger kind => exact (u.trigger_frame kind).slots j hj
  | reset => exact u.hardReset_frame.slots j hj

/-! ### A trap writes FL only by a reset -/

/-- The slots a reset leaves at fixed values whether or not EXC is set after it (70_reset_and_hazards.md R240). -/
structure ShowsReset (t : State) : Prop where
  fl : t.get .fl = 0
  pcb : t.get .pcb = 0
  pc : (t.get .pc).toNat = 4096
  mmue : t.get .mmue = 0
  intl : t.get .intl = 0

theorem State.hardReset_showsReset (s : State) : ShowsReset s.hardReset := by
  constructor <;> simp +decide [State.get_hardReset]

theorem ShowsReset.set_exc {t : State} (h : ShowsReset t) (v : SlotVal) : ShowsReset (t.set .exc v) := by
  obtain ⟨hfl, hpcb, hpc, hmmue, hintl⟩ := h
  constructor <;> rw [State.get_set_ne (by decide)] <;> assumption

theorem State.fatal_showsReset (s : State) : ShowsReset s.fatal := s.hardReset_showsReset.set_exc _

/-- The way to an entry's target writes no FL. -/
theorem State.get_fl_entryClears_saveReturn (s : State) (e : BitVec 24) : (s.saveReturn.entryClears e).get .fl = s.get .fl := by
  simp +decide [State.get_entryClears, State.get_saveReturn]

/-- One round of `Trigger` keeps FL or resets, if its fallback does. -/
theorem State.triggerRound_fl {fallback : State → State} (hf : ∀ s, (fallback s).get .fl = s.get .fl ∨ ShowsReset (fallback s))
    (kind : Kind) (s : State) :
    (State.triggerRound fallback kind s).get .fl = s.get .fl ∨ ShowsReset (State.triggerRound fallback kind s) := by
  unfold State.triggerRound
  split
  · dsimp only
    have hs := s.get_fl_entryClears_saveReturn (s.saveReturn.readEntry kind)
    split
    · refine (hf _).imp_left fun e => e.trans ?_
      rw [State.get_set_ne (by decide), hs]
    · left
      rw [State.get_entryJump, if_neg (by decide), if_neg (by decide), hs]
  · exact .inr s.fatal_showsReset

theorem State.trigger_fl (kind : Kind) (s : State) :
    (State.trigger kind s).get .fl = s.get .fl ∨ ShowsReset (State.trigger kind s) := by
  have hfatal (u : State) : u.fatal.get .fl = u.get .fl ∨ ShowsReset u.fatal := .inr u.fatal_showsReset
  unfold State.trigger
  refine State.triggerRound_fl ?_ kind s
  split
  · exact hfatal
  · exact State.triggerRound_fl hfatal _

/-- A trap keeps FL, unless it is or ends in a reset. -/
theorem Trap.fl {u t : State} (h : Trap u t) : t.get .fl = u.get .fl ∨ ShowsReset t := by
  cases h with
  | violation a =>
    have hfl : (u.faultInfo a).get .fl = u.get .fl := by simp +decide [State.get_faultInfo]
    exact (State.trigger_fl Config.kindExcept (u.faultInfo a)).imp_left fun e => e.trans hfl
  | trigger kind => exact u.trigger_fl kind
  | reset => exact .inr u.hardReset_showsReset

/-! ### Every move, by how it can write a slot -/

/-- An instruction's own write reaches slot `j`: its destination, or FL for a flag instruction. -/
def WritesSlot (i : Instr) (j : Slot) : Prop := destOf i = some j ∨ (j = .fl ∧ (i = .sez ∨ i = .clz ∨ i = .inz))

/-- An effect leaves a slot alone, unless the instruction writes it or the violation is taken. -/
theorem Effect.slot_cases {i : Instr} {s t : State} (h : Effect i s t) (j : Slot) :
    t.get j = s.get j ∨ WritesSlot i j ∨ ∃ u, u.get j = s.get j ∧ Trap u t := by
  cases h with
  | dest rd v hd hv =>
    by_cases e : j = rd
    · exact .inr (.inl (.inl (e ▸ hd)))
    · exact .inl (State.get_writeDest_ne s v e)
  | flags v hi hv =>
    by_cases e : j = .fl
    · exact .inr (.inl (.inr ⟨e, hi⟩))
    · exact .inl (State.get_set_ne (Ne.symm e))
  | nothing hd => exact .inl rfl
  | byte a v hd ha => exact .inl (State.get_memWrite s j a v)
  | word a lo hi hd ha hb => left; simp
  | violation a need ha => exact .inr (.inr ⟨s, rfl, .violation a⟩)
  | halfStored a lo hd ha hb => exact .inr (.inr ⟨s.memWrite a lo, State.get_memWrite s j a lo, .violation _⟩)

/-- A step leaves a slot other than PC alone, unless its instruction writes it or a violation is taken. -/
theorem step_slot_cases {s t : State} (h : step s = .next t) {j : Slot} (hj : j ≠ .pc) :
    t.get j = s.get j ∨
    (∃ n i, s.MayFetch n ∧ decode (s.codeBytes n) = some (.instr i, []) ∧ WritesSlot i j) ∨
    (∃ u, u.get j = s.get j ∧ Trap u t) := by
  have hfetch (n : Nat) : (s.afterBytes n).get j = s.get j := s.get_afterBytes_ne n hj
  rcases step_next h with ⟨n, i, hf, hd, he⟩ | ⟨n, rfl⟩ | ⟨n, _, rfl⟩
  · rcases he.slot_cases j with hk | hw | ⟨u, hu, ht⟩
    · exact .inl (hk.trans (hfetch n))
    · exact .inr (.inl ⟨n, i, hf, hd, hw⟩)
    · exact .inr (.inr ⟨u, hu.trans (hfetch n), ht⟩)
  · exact .inl (hfetch n)
  · exact .inr (.inr ⟨s.afterBytes n, hfetch n, .violation _⟩)

@[simp] theorem State.get_hostPoke (s : State) (a : Addr) (v : Byte) (j : Slot) : (s.hostPoke a v).get j = s.get j := by
  unfold State.hostPoke; split <;> rfl

/-- A move that changes a slot other than PC is a step of an instruction that writes it, a trap, or the host's write to it. -/
theorem Move.changes_slot {m : Move} {s t : State} (h : m.apply s = .next t) {j : Slot} (hj : j ≠ .pc) (hne : t.get j ≠ s.get j) :
    (m = .step ∧ ∃ n i, s.MayFetch n ∧ decode (s.codeBytes n) = some (.instr i, []) ∧ WritesSlot i j) ∨
    (∃ u, u.get j = s.get j ∧ Trap u t) ∨
    (∃ v, m = .hostSet j v) := by
  cases m with
  | step =>
    rcases step_slot_cases h hj with hk | hw | ht
    · exact absurd hk hne
    · exact .inl ⟨rfl, hw⟩
    · exact .inr (.inl ht)
  | trigger kind => cases h; exact .inr (.inl ⟨s, rfl, .trigger kind⟩)
  | reset => cases h; exact .inr (.inl ⟨s, rfl, .reset⟩)
  | hostSet i v =>
    cases h
    by_cases e : i = j
    · exact .inr (.inr ⟨v, by rw [e]⟩)
    · exact absurd (State.get_set_ne e) hne
  | hostPoke a v => cases h; exact absurd (s.get_hostPoke a v j) hne

end Sys2Proof.Machine
end

section
/-! SUPPORT. A slot the hardware does not read by itself is not observed: two states that differ only in it go the same way, operation by
operation, up to a whole step (10_state.md R18, R21). -/

namespace Sys2Proof.Machine

/-- The slots some rule reads without an instruction naming them: fetching, the resolver's bases and index registers, the MMU's check, the lock
and the interrupt table. -/
def hardwareReads : List Slot :=
  [.pc, .pcb, .sp, .mmup, .mmub, .mmue, .intp, .intb, .intl, .r0, .r1, .r2, .r3, .r4, .r5, .r6, .r7]

/-- The index field selects one of them. -/
theorem generalSlot_mem_hardwareReads {f : BitVec 4} {j : Slot} (h : Config.generalSlot f = some j) : j ∈ hardwareReads := by
  revert f j; decide

/-- `s` and `t` differ at most in the slot `r`, and the hardware does not read `r` by itself. -/
structure UnseenBut (r : Slot) (s t : State) : Prop where
  unread : r ∉ hardwareReads
  slots : ∀ j, j ≠ r → t.get j = s.get j
  mem : t.mem = s.mem
  devices : t.devices = s.devices

/-- Two answers that are alike: next states that differ at most in `r`, or the same refusal. -/
inductive AlikeBut (r : Slot) : Outcome → Outcome → Prop where
  | next {s t : State} (h : UnseenBut r s t) : AlikeBut r (.next s) (.next t)
  | refused (e : Refusal) : AlikeBut r (.refused e) (.refused e)

namespace UnseenBut

variable {r : Slot} {s t : State}

theorem of_set (hr : r ∉ hardwareReads) (s : State) (v : SlotVal) : UnseenBut r s (s.set r v) :=
  ⟨hr, fun _ hj => State.get_set_ne (Ne.symm hj), rfl, rfl⟩

theorem sameBut (h : UnseenBut r s t) : SameBut r s t := ⟨h.slots, h.mem, h.devices⟩

/-! ### What both states read alike -/

theorem get_read (h : UnseenBut r s t) {j : Slot} (hj : j ∈ hardwareReads) : t.get j = s.get j :=
  h.slots j fun e => h.unread (e ▸ hj)

theorem offOf (h : UnseenBut r s t) {j : Slot} (hj : j ≠ r) : t.offOf j = s.offOf j := congrArg off (h.slots j hj)

theorem offOf_read (h : UnseenBut r s t) {j : Slot} (hj : j ∈ hardwareReads) : t.offOf j = s.offOf j := congrArg off (h.get_read hj)

theorem bankOf_read (h : UnseenBut r s t) {j : Slot} (hj : j ∈ hardwareReads) : t.bankOf j = s.bankOf j := congrArg bnk (h.get_read hj)

theorem flagOf_read (h : UnseenBut r s t) {j : Slot} (hj : j ∈ hardwareReads) : t.flagOf j = s.flagOf j := congrArg flag (h.get_read hj)

theorem memRead (h : UnseenBut r s t) (a : Addr) : t.memRead a = s.memRead a := State.memRead_congr h.mem a

theorem locked (h : UnseenBut r s t) (j : Slot) : t.locked j = s.locked j := by
  simp only [State.locked, h.flagOf_read (j := .mmue) (by decide), h.flagOf_read (j := .intl) (by decide)]

theorem perm (h : UnseenBut r s t) (a : Addr) (need : Access) : t.perm a need = s.perm a need :=
  State.perm_congr (h.get_read (by decide)) (h.get_read (by decide)) (h.get_read (by decide)) (State.memRead_congr h.mem _) need

theorem readEntry (h : UnseenBut r s t) (kind : Kind) : t.readEntry kind = s.readEntry kind :=
  State.readEntry_congr (h.get_read (by decide)) (h.get_read (by decide)) h.mem

theorem codeAddr (h : UnseenBut r s t) (n : Half) : t.codeAddr n = s.codeAddr n := by
  simp only [State.codeAddr, h.bankOf_read (j := .pcb) (by decide), h.offOf_read (j := .pc) (by decide)]

theorem codeBytes (h : UnseenBut r s t) (n : Nat) : t.codeBytes n = s.codeBytes n := by
  simp only [State.codeBytes, h.memRead, h.codeAddr]

theorem mayFetch (h : UnseenBut r s t) {n : Nat} (hf : s.MayFetch n) : t.MayFetch n := fun j hj => by
  rw [h.perm, h.codeAddr]; exact hf j hj

theorem readProt (h : UnseenBut r s t) (a : Addr) : t.readProt a = s.readProt a := by
  simp only [State.readProt, h.perm, h.memRead]

theorem readProt16 (h : UnseenBut r s t) (a : Addr) : t.readProt16 a = s.readProt16 a := by
  simp only [State.readProt16, h.readProt]

theorem sourceValue (h : UnseenBut r s t) {m : MemOperand} (hm : memNames r m = false) : t.sourceValue m.src = s.sourceValue m.src := by
  unfold memNames at hm
  split at hm
  · next j e => rw [e]; exact h.offOf (by simpa using hm)
  · next v e => rw [e]; rfl

/-- The resolver observes `r` only when the operand names it. -/
theorem resolve (h : UnseenBut r s t) {m : MemOperand} (hm : memNames r m = false) : t.resolve m = s.resolve m := by
  have hsrc := h.sourceValue hm
  have hoff : ∀ {j}, j ∈ hardwareReads → t.offOf j = s.offOf j := h.offOf_read
  have hbank : ∀ {j}, j ∈ hardwareReads → t.bankOf j = s.bankOf j := h.bankOf_read
  unfold State.resolve
  rcases m.mode with _ | _ | _ | _ | _ | _
  case absolute => simp only [hsrc]
  case pcRel => simp only [hsrc, hbank (j := .pcb) (by decide), hoff (j := .pc) (by decide)]
  case spRel => simp only [hsrc, hoff (j := .sp) (by decide)]
  case ptRel => simp only [hsrc, hbank (j := .mmub) (by decide), hoff (j := .mmup) (by decide)]
  case itRel => simp only [hsrc, hbank (j := .intb) (by decide), hoff (j := .intp) (by decide)]
  case indexed =>
    rcases e : Config.generalSlot m.f with _ | j
    · rfl
    · simp only [hsrc, hoff (generalSlot_mem_hardwareReads e)]

/-! ### The state operations -/

/-- A slot write with the same value, or to `r` itself with any. -/
theorem set (h : UnseenBut r s t) {i : Slot} {v w : SlotVal} (hv : i ≠ r → w = v) : UnseenBut r (s.set i v) (t.set i w) where
  unread := h.unread
  slots j hj := by
    rw [State.get_set, State.get_set]
    split
    · next e => exact hv (e ▸ hj)
    · exact h.slots j hj
  mem := h.mem
  devices := h.devices

theorem writeDest (h : UnseenBut r s t) (i : Slot) {v w : SlotVal} (hv : w = v) : UnseenBut r (s.writeDest i v) (t.writeDest i w) := by
  unfold State.writeDest
  rw [h.locked]
  split
  · exact h
  · exact h.set fun _ => hv

theorem advance (h : UnseenBut r s t) (n : Half) : UnseenBut r (s.advance n) (t.advance n) :=
  h.set fun _ => by rw [h.offOf_read (by decide)]

theorem afterBytes (h : UnseenBut r s t) (n : Nat) : UnseenBut r (s.afterBytes n) (t.afterBytes n) := by
  cases n with
  | zero => exact h
  | succ n => exact h.advance _

theorem forward (h : UnseenBut r s t) (d : DeviceWrite) : UnseenBut r (s.forward d) (t.forward d) :=
  ⟨h.unread, h.slots, h.mem, by simp only [State.forward_devices, h.devices]⟩

theorem memWrite (h : UnseenBut r s t) (a : Addr) (v : Byte) : UnseenBut r (s.memWrite a v) (t.memWrite a v) := by
  unfold State.memWrite
  split
  · exact ⟨h.unread, h.slots, by simp only [h.mem], h.devices⟩
  · exact h.forward _
  · exact h.forward _
  · exact h

/-! ### Reset and the traps -/

theorem hardReset (h : UnseenBut r s t) : UnseenBut r s.hardReset t.hardReset :=
  (((((h.set fun _ => rfl).set fun _ => rfl).set fun _ => rfl).set fun _ => rfl).set fun _ => rfl).set fun _ => rfl

theorem fatal (h : UnseenBut r s t) : UnseenBut r s.fatal t.fatal := h.hardReset.set fun _ => rfl

theorem saveReturn (h : UnseenBut r s t) : UnseenBut r s.saveReturn t.saveReturn :=
  (h.set fun _ => h.get_read (by decide)).set fun _ => h.get_read (by decide)

theorem entryClears (h : UnseenBut r s t) (e : BitVec 24) : UnseenBut r (s.entryClears e) (t.entryClears e) := by
  have h1 : UnseenBut r (if Config.entryClrMmu e then s.set .mmue 0 else s) (if Config.entryClrMmu e then t.set .mmue 0 else t) := by
    split
    · exact h.set fun _ => rfl
    · exact h
  unfold State.entryClears
  dsimp only
  split
  · exact h1.set fun _ => rfl
  · exact h1

theorem entryJump (h : UnseenBut r s t) (e : BitVec 24) : UnseenBut r (s.entryJump e) (t.entryJump e) :=
  (h.set fun _ => rfl).set fun _ => rfl

theorem triggerRound (h : UnseenBut r s t) {fallback : State → State}
    (hf : ∀ {s t : State}, UnseenBut r s t → UnseenBut r (fallback s) (fallback t)) (kind : Kind) :
    UnseenBut r (State.triggerRound fallback kind s) (State.triggerRound fallback kind t) := by
  unfold State.triggerRound
  rw [h.flagOf_read (by decide)]
  split
  · dsimp only
    rw [h.saveReturn.readEntry]
    have hc := h.saveReturn.entryClears (s.saveReturn.readEntry kind)
    split
    · exact hf (hc.set fun _ => rfl)
    · exact hc.entryJump _
  · exact h.fatal

theorem trigger (h : UnseenBut r s t) (kind : Kind) : UnseenBut r (State.trigger kind s) (State.trigger kind t) := by
  unfold State.trigger
  refine h.triggerRound (fun h => ?_) kind
  split
  · exact h.fatal
  · exact h.triggerRound fatal _

theorem pageAV (h : UnseenBut r s t) (a : Addr) : UnseenBut r (s.pageAV a) (t.pageAV a) :=
  UnseenBut.trigger (((h.set fun _ => rfl).set fun _ => rfl).set fun _ => rfl) _

/-! ### The shapes of the instructions -/

theorem alu1 (h : UnseenBut r s t) (f : Half → Half) {rd : Slot} (hd : rd ≠ r) : UnseenBut r (s.alu1 f rd) (t.alu1 f rd) :=
  h.writeDest rd (by rw [h.offOf hd])

theorem aluImm (h : UnseenBut r s t) (f : Half → Half → Half) {rd : Slot} (hd : rd ≠ r) (v : Half) :
    UnseenBut r (s.aluImm f rd v) (t.aluImm f rd v) :=
  h.writeDest rd (by rw [h.offOf hd])

theorem alu2 (h : UnseenBut r s t) (f : Half → Half → Half) {rd rs : Slot} (hd : rd ≠ r) (hs : rs ≠ r) :
    UnseenBut r (s.alu2 f rd rs) (t.alu2 f rd rs) :=
  h.writeDest rd (by rw [h.offOf hd, h.offOf hs])

theorem updateFl (h : UnseenBut r s t) (f : SlotVal → SlotVal) : UnseenBut r (s.updateFl f) (t.updateFl f) :=
  h.set fun hr => by rw [h.slots .fl hr]

theorem load (h : UnseenBut r s t) {m : MemOperand} (hm : memNames r m = false) (rd : Slot) {read : State → Addr → Except Addr SlotVal}
    (hread : ∀ a, read t a = read s a) : AlikeBut r (s.load m rd read) (t.load m rd read) := by
  unfold State.load
  rw [h.resolve hm]
  split
  · exact .refused _
  · rw [hread]
    split
    · exact .next (h.pageAV _)
    · exact .next (h.writeDest rd rfl)

theorem store8 (h : UnseenBut r s t) (a : Addr) (v : Byte) : UnseenBut r (s.store8 a v) (t.store8 a v) := by
  rcases hp : s.perm a .write with _ | _
  · rw [State.store8_of_denied hp, State.store8_of_denied (h.perm a .write ▸ hp)]
    exact h.pageAV a
  · rw [State.store8_of_perm hp, State.store8_of_perm (h.perm a .write ▸ hp)]
    exact h.memWrite a v

theorem store16 (h : UnseenBut r s t) (a : Addr) (v : Half) : UnseenBut r (s.store16 a v) (t.store16 a v) := by
  rcases hp : s.perm a .write with _ | _
  · rw [State.store16_of_low_denied hp, State.store16_of_low_denied (h.perm a .write ▸ hp)]
    exact h.pageAV a
  · simp only [State.store16, State.writeProt_ok hp, State.writeProt_ok (h.perm a .write ▸ hp)]
    exact (h.memWrite a _).store8 _ _

theorem store (h : UnseenBut r s t) {m : MemOperand} (hm : memNames r m = false) {write : State → Addr → State}
    (hwrite : ∀ a, UnseenBut r (write s a) (write t a)) : AlikeBut r (s.store m write) (t.store m write) := by
  unfold State.store State.beforeRsByte
  rw [(h.advance (-1)).resolve hm]
  split
  · exact .refused _
  · exact .next (hwrite _)

/-! ### exec and step -/

/-- An instruction that does not name `r` as a source goes the same way in both states. -/
theorem exec (h : UnseenBut r s t) {i : Instr} (hi : instrReads r i = false) :
    AlikeBut r (Machine.exec i s) (Machine.exec i t) := by
  cases i with
  | mov rd rs => exact .next (h.writeDest rd (h.slots rs (by simpa [instrReads] using hi)))
  | immB rd k => exact .next (h.writeDest rd rfl)
  | immW rd k => exact .next (h.writeDest rd rfl)
  | clr rd => exact .next (h.writeDest rd rfl)
  | lodB rd m => exact h.load (read := fun s a => (s.readProt a).map ofByte) hi rd fun a => by rw [h.readProt]
  | lodW rd m => exact h.load (read := fun s a => (s.readProt16 a).map ofHalf) hi rd fun a => by rw [h.readProt16]
  | stoB m rs =>
    obtain ⟨hm, hs⟩ : memNames r m = false ∧ rs ≠ r := by simpa [instrReads] using hi
    refine h.store (write := fun s a => s.store8 a ((s.get rs).extractLsb' 0 8)) hm fun a => ?_
    rw [h.slots rs hs]; exact h.store8 a _
  | stoW m rs =>
    obtain ⟨hm, hs⟩ : memNames r m = false ∧ rs ≠ r := by simpa [instrReads] using hi
    refine h.store (write := fun s a => s.store16 a (s.offOf rs)) hm fun a => ?_
    rw [h.offOf hs]; exact h.store16 a _
  | not rd | sl4 rd | sr4 rd => exact .next (h.alu1 _ (by simpa [instrReads] using hi))
  | addiB rd k | subiB rd k | andiB rd k | shliB rd k | shriB rd k => exact .next (h.aluImm _ (by simpa [instrReads] using hi) _)
  | addiW rd k | subiW rd k | andiW rd k => exact .next (h.aluImm _ (by simpa [instrReads] using hi) _)
  | add rd rs | sub rd rs | and rd rs | orr rd rs | xor rd rs | shl rd rs | shr rd rs =>
    obtain ⟨hd, hs⟩ : rd ≠ r ∧ rs ≠ r := by simpa [instrReads] using hi
    exact .next (h.alu2 _ hd hs)
  | sez | clz | inz => exact .next (h.updateFl _)
  | rsvSext | rsvBtst | rsvBset | rsvCmpeq | rsvCmplt | rsvCmpgt | rsvPush | rsvPull => exact .next h
  | rsvJmp | rsvJz | rsvJnz | rsvCall | rsvRet | rsvSwi | rsvRti | rsvJmpf => exact .next h

/-- Both states fetch the same bytes, and are alike after them. -/
theorem fetchInstr (h : UnseenBut r s t) :
    (∃ n d, decode (s.codeBytes n) = some (d, []) ∧
      s.fetchInstr = .got d (s.afterBytes n) ∧ t.fetchInstr = .got d (t.afterBytes n)) ∨
    (∃ n bad, s.fetchInstr = .denied bad (s.afterBytes n) ∧ t.fetchInstr = .denied bad (t.afterBytes n)) := by
  rcases Decoder.fetchFrom_cases decoder s with ⟨n, d, hf, hd, hs⟩ | ⟨n, hf, hd, hp, hs⟩
  · refine .inl ⟨n, d, hd, hs, Decoder.fetchFrom_of_feed (h.mayFetch hf) ?_⟩
    rw [h.codeBytes]; exact hd
  · refine .inr ⟨n, _, hs, ?_⟩
    rw [← h.codeAddr]
    refine Decoder.fetchFrom_of_denied (h.mayFetch hf) ?_ ?_
    · rw [h.codeBytes]; exact hd
    · rw [h.codeAddr, h.perm]; exact hp

/-- THE STEP LEMMA: a step whose instruction does not name `r` as a source goes the same way in both states. -/
theorem step (h : UnseenBut r s t) (hi : ∀ n i, decode (s.codeBytes n) = some (.instr i, []) → instrReads r i = false) :
    AlikeBut r (Machine.step s) (Machine.step t) := by
  rcases h.fetchInstr with ⟨n, d, hd, hs, ht⟩ | ⟨n, bad, hs, ht⟩
  · cases d with
    | instr i =>
      simp only [Machine.step, hs, ht]
      exact (h.afterBytes n).exec (hi n i hd)
    | undefinedOpcode op =>
      simp only [Machine.step, hs, ht]
      exact .next (h.afterBytes n)
    | reject e =>
      simp only [Machine.step, hs, ht]
      exact .refused _
  · simp only [Machine.step, hs, ht]
    exact .next ((h.afterBytes n).pageAV bad)

end UnseenBut

theorem AlikeBut.of_next {r : Slot} {s : State} {o : Outcome} (h : AlikeBut r (.next s) o) : ∃ t, o = .next t ∧ SameBut r s t := by
  cases h with
  | next h => exact ⟨_, rfl, h.sameBut⟩

theorem AlikeBut.of_refused {r : Slot} {e : Refusal} {o : Outcome} (h : AlikeBut r (.refused e) o) : o = .refused e := by
  cases h; rfl

/-- A slot the hardware does not read by itself is observed only by an instruction that names it as a source. -/
theorem unread_slot_not_observed {r : Slot} (hr : r ∉ hardwareReads) (s : State) (v : SlotVal) :
    ((∀ n i, decode (s.codeBytes n) = some (.instr i, []) → instrReads r i = false) →
      (∀ t, step s = .next t → ∃ t', step (s.set r v) = .next t' ∧ SameBut r t t') ∧
      (∀ e, step s = .refused e → step (s.set r v) = .refused e)) ∧
    (∀ kind, SameBut r (State.trigger kind s) (State.trigger kind (s.set r v))) ∧
    SameBut r s.hardReset (s.set r v).hardReset := by
  have h := UnseenBut.of_set hr s v
  refine ⟨fun hi => ⟨fun t ht => ?_, fun e he => ?_⟩, fun kind => (h.trigger kind).sameBut, h.hardReset.sameBut⟩
  · exact AlikeBut.of_next (ht ▸ h.step hi)
  · exact AlikeBut.of_refused (he ▸ h.step hi)

end Sys2Proof.Machine
end

section
/-! CERTIFICATE. The statements about FL, BP and the lock (10_state.md R17, R18, R21, R30). -/

namespace Sys2Proof.Machine

/-- Settles O26: the lock read off its definition. -/
theorem lockRule : Obligations.LockRule := State.locked_iff

/-- Settles O46: no rule of the hardware reads FL by itself, so two states that differ only in it go the same way. -/
theorem flagsAreNeverRead : Obligations.FlagsAreNeverRead := fun s v => unread_slot_not_observed (r := .fl) (by decide) s v

/-- Settles O45: a trap that writes FL ends in a reset; every other write to FL is an instruction's own or the host's. -/
theorem writersOfTheFlags : Obligations.WritersOfTheFlags := by
  refine ⟨State.locked_eq_false (by decide), fun m s t h hne => ?_⟩
  rcases Move.changes_slot h (by decide) hne with ⟨hm, n, i, hf, hd, hw⟩ | ⟨u, hu, ht⟩ | hhost
  · refine .inl ⟨hm, n, i, hf, hd, ?_⟩
    rcases hw with hdest | ⟨_, hsez | hclz | hinz⟩
    · exact .inr (.inr (.inr hdest))
    · exact .inl hsez
    · exact .inr (.inl hclz)
    · exact .inr (.inr (.inl hinz))
  · rcases ht.fl with hkept | ⟨hfl, hpcb, hpc, hmmue, hintl⟩
    · exact absurd (hkept.trans hu) hne
    · exact .inr (.inl ⟨hfl, hpcb, hpc, hmmue, hintl⟩)
  · exact .inr (.inr hhost)

/-- Settles O47: BP is never locked, no trap writes it, and no rule of the hardware reads it by itself. -/
theorem basePointerIsPlainStorage : Obligations.BasePointerIsPlainStorage := by
  have htrap {u t : State} (h : Trap u t) : t.get .bp = u.get .bp := h.get_eq (by decide) (by decide) (by decide)
  refine ⟨fun s => ⟨State.locked_eq_false (by decide) s, htrap .reset⟩, fun m s t h hne => ?_,
    fun s v => unread_slot_not_observed (r := .bp) (by decide) s v⟩
  rcases Move.changes_slot h (by decide) hne with ⟨hm, n, i, hf, hd, hw⟩ | ⟨u, hu, ht⟩ | hhost
  · refine .inl ⟨hm, n, i, hf, hd, ?_⟩
    rcases hw with hdest | ⟨hbp, _⟩
    · exact hdest
    · exact absurd hbp (by decide)
  · exact absurd ((htrap ht).trans hu) hne
  · exact .inr hhost

end Sys2Proof.Machine
end

section
/-! CERTIFICATE. The statement about Reset (70_reset_and_hazards.md R240). -/

namespace Sys2Proof.Machine

/-- `Reset` clears EXC, before a fatal trap reports in it. -/
theorem State.get_exc_hardReset (s : State) : s.hardReset.get .exc = 0 := by
  rw [State.get_hardReset, if_neg (by decide), if_pos (by decide)]

/-- The frame of `Reset` over the slots. -/
theorem State.get_hardReset_of_notMem (s : State) {j : Slot} (hj : j ∉ [Slot.pcb, .pc, .exc, .mmue, .intl, .fl]) :
    s.hardReset.get j = s.get j := by
  obtain ⟨hpcb, hpc, hrest⟩ : j ≠ .pcb ∧ j ≠ .pc ∧ ¬ (j = .exc ∨ j = .mmue ∨ j = .intl ∨ j = .fl) := by simpa using hj
  rw [State.get_hardReset, if_neg hpc, if_neg (not_or_intro hpcb hrest)]

/-- Settles O31: five slots are those every reset leaves at fixed values, EXC is the sixth; memory is not written. -/
theorem resetWritesSixSlots : Obligations.ResetWritesSixSlots := by
  intro s
  obtain ⟨hfl, hpcb, hpc, hmmue, hintl⟩ := s.hardReset_showsReset
  have hexc : (s.hardReset.get .exc).toNat = 0 := congrArg BitVec.toNat s.get_exc_hardReset
  exact ⟨hpcb, hpc, hexc, hmmue, hintl, hfl, fun _ => s.get_hardReset_of_notMem,
    State.memRead_congr s.hardReset_mem, s.hardReset_devices⟩

end Sys2Proof.Machine
end

section
/-! SUPPORT. The decoder, shape by shape: what an encoding decodes to, and what a decoded byte string encodes. -/

namespace Sys2Proof

/-! ### From the encoding to the term -/

section
variable {op : Byte}

theorem decode_N {i : Instr} (h : Decode.shapeOf op = some (.N i)) (rest : List Byte) :
    decode (op :: rest) = some (.instr i, rest) :=
  decode_of_shape h rest

theorem decode_R {mk : Slot → Instr} (h : Decode.shapeOf op = some (.R mk)) (rd : Slot) (rest : List Byte) :
    decode (op :: Encode.slot rd :: rest) = some (.instr (mk rd), rest) := by
  rw [decode_of_shape h, Decode.operands, feed_slot]; rfl

theorem decode_RR {mk : Slot → Slot → Instr} (h : Decode.shapeOf op = some (.RR mk)) (rd rs : Slot) (rest : List Byte) :
    decode (op :: Encode.slot rd :: Encode.slot rs :: rest) = some (.instr (mk rd rs), rest) := by
  rw [decode_of_shape h, Decode.operands, feed_slot, feed_slot]; rfl

theorem decode_RI8 {mk : Slot → Byte → Instr} (h : Decode.shapeOf op = some (.RI8 mk)) (rd : Slot) (k : Byte) (rest : List Byte) :
    decode (op :: Encode.slot rd :: k :: rest) = some (.instr (mk rd k), rest) := by
  rw [decode_of_shape h, Decode.operands, feed_slot]; rfl

theorem decode_RI16 {mk : Slot → Half → Instr} (h : Decode.shapeOf op = some (.RI16 mk)) (rd : Slot) (k : Half) (rest : List Byte) :
    decode (op :: Encode.slot rd :: (Encode.imm16 k ++ rest)) = some (.instr (mk rd k), rest) := by
  rw [decode_of_shape h, Decode.operands, feed_slot, feed_imm16]; rfl

theorem decode_RM {mk : Slot → MemOperand → Instr} (h : Decode.shapeOf op = some (.RM mk)) (rd : Slot) {m : MemOperand}
    (hm : m.wellFormed = true) (rest : List Byte) :
    decode (op :: Encode.slot rd :: (Encode.mem m ++ rest)) = some (.instr (mk rd m), rest) := by
  rw [decode_of_shape h, Decode.operands, feed_slot, feed_mem _ hm]; rfl

theorem decode_MR {mk : MemOperand → Slot → Instr} (h : Decode.shapeOf op = some (.MR mk)) {m : MemOperand}
    (hm : m.wellFormed = true) (rs : Slot) (rest : List Byte) :
    decode (op :: ((Encode.mem m ++ [Encode.slot rs]) ++ rest)) = some (.instr (mk m rs), rest) := by
  rw [decode_of_shape h, Decode.operands, List.append_assoc, feed_mem _ hm, List.singleton_append, feed_slot]; rfl

end

theorem decode_encode {i : Instr} (hw : i.wellFormed = true) (rest : List Byte) : decode (encode i ++ rest) = some (.instr i, rest) := by
  cases i with
  | mov rd rs | add rd rs | sub rd rs | and rd rs | orr rd rs | xor rd rs | shl rd rs | shr rd rs => exact decode_RR rfl rd rs rest
  | immB rd k | addiB rd k | subiB rd k | andiB rd k | shliB rd k | shriB rd k => exact decode_RI8 rfl rd k rest
  | immW rd k | addiW rd k | subiW rd k | andiW rd k => exact decode_RI16 rfl rd k rest
  | lodB rd m | lodW rd m => exact decode_RM rfl rd hw rest
  | stoB m rs | stoW m rs => exact decode_MR rfl hw rs rest
  | not rd | clr rd | sl4 rd | sr4 rd => exact decode_R rfl rd rest
  | sez | clz | inz => exact decode_N rfl rest
  | rsvSext | rsvBtst | rsvBset | rsvCmpeq | rsvCmplt | rsvCmpgt | rsvPush | rsvPull => exact decode_N rfl rest
  | rsvJmp | rsvJz | rsvJnz | rsvCall | rsvRet | rsvSwi | rsvRti | rsvJmpf => exact decode_N rfl rest

/-! ### From the term back to the bytes -/

/-- A register byte inside bytes that decode to an instruction is a slot's. -/
theorem feed_slot_instr {k : Slot → Decoder} {bytes rest : List Byte} {i : Instr} (h : (Decode.slot k).feed bytes = some (.instr i, rest)) :
    ∃ r more, bytes = Encode.slot r :: more ∧ (k r).feed more = some (.instr i, rest) := by
  rcases feed_slot_cases h with hslot | ⟨b, more, _, _, e⟩
  · exact hslot
  · cases e

theorem feed_got {i j : Instr} {bytes rest : List Byte} (h : (Decode.got j).feed bytes = some (.instr i, rest)) : i = j ∧ bytes = rest := by
  cases h; exact ⟨rfl, rfl⟩

/-- Operand bytes that a shape reads as an instruction are the operand bytes of that instruction. -/
theorem Shape.Encodes.of_feed {op : Byte} {shape : Shape} (he : Shape.Encodes op shape) {bytes rest : List Byte} {i : Instr}
    (h : (Decode.operands shape).feed bytes = some (.instr i, rest)) :
    i.wellFormed = true ∧ Encode.opcode i = op ∧ bytes = Encode.operands i ++ rest := by
  cases shape with
  | N j =>
    obtain ⟨rfl, rfl⟩ := feed_got h
    obtain ⟨hop, hargs, hw⟩ := he
    exact ⟨hw, hop, by rw [hargs]; rfl⟩
  | R mk =>
    obtain ⟨rd, _, rfl, hrd⟩ := feed_slot_instr h
    obtain ⟨rfl, rfl⟩ := feed_got hrd
    obtain ⟨hop, hargs, hw⟩ := he rd
    exact ⟨hw, hop, by rw [hargs]; rfl⟩
  | RR mk =>
    obtain ⟨rd, _, rfl, hrd⟩ := feed_slot_instr h
    obtain ⟨rs, _, rfl, hrs⟩ := feed_slot_instr hrd
    obtain ⟨rfl, rfl⟩ := feed_got hrs
    obtain ⟨hop, hargs, hw⟩ := he rd rs
    exact ⟨hw, hop, by rw [hargs]; rfl⟩
  | RI8 mk =>
    obtain ⟨rd, _, rfl, hrd⟩ := feed_slot_instr h
    obtain ⟨k, _, rfl, hk⟩ := feed_imm8_cases hrd
    obtain ⟨rfl, rfl⟩ := feed_got hk
    obtain ⟨hop, hargs, hw⟩ := he rd k
    exact ⟨hw, hop, by rw [hargs]; rfl⟩
  | RI16 mk =>
    obtain ⟨rd, _, rfl, hrd⟩ := feed_slot_instr h
    obtain ⟨k, _, rfl, hk⟩ := feed_imm16_cases hrd
    obtain ⟨rfl, rfl⟩ := feed_got hk
    obtain ⟨hop, hargs, hw⟩ := he rd k
    exact ⟨hw, hop, by rw [hargs]; rfl⟩
  | RM mk =>
    obtain ⟨rd, _, rfl, hrd⟩ := feed_slot_instr h
    obtain ⟨m, _, rfl, hm, hk⟩ := feed_mem_instr hrd
    obtain ⟨rfl, rfl⟩ := feed_got hk
    obtain ⟨hop, hargs, hw⟩ := he rd m
    exact ⟨hw.trans hm, hop, by rw [hargs]; rfl⟩
  | MR mk =>
    rw [Decode.operands] at h
    obtain ⟨m, _, rfl, hm, hk⟩ := feed_mem_instr h
    obtain ⟨rs, _, rfl, hrs⟩ := feed_slot_instr hk
    obtain ⟨rfl, rfl⟩ := feed_got hrs
    obtain ⟨hop, hargs, hw⟩ := he m rs
    exact ⟨hw.trans hm, hop, by rw [hargs, List.append_assoc]; rfl⟩

/-- Bytes that decode to an instruction begin with an opcode byte of the table and go on with the operands of its shape. -/
theorem decode_instr_cases {bytes rest : List Byte} {i : Instr} (h : decode bytes = some (.instr i, rest)) :
    ∃ op more shape, bytes = op :: more ∧ Decode.shapeOf op = some shape ∧ (Decode.operands shape).feed more = some (.instr i, rest) := by
  cases bytes with
  | nil => cases h
  | cons op more =>
    rcases hs : Decode.shapeOf op with _ | shape
    · simp [decode_cons, hs] at h
    · exact ⟨op, more, shape, rfl, hs, decode_of_shape hs more ▸ h⟩

/-! ### How many bytes the decoder asks for -/

/-- The decoder has its answer after at most `n` more bytes, whatever they are. -/
def Decoder.AsksAtMost : Nat → Decoder → Prop
  | _, .done _ => True
  | 0, .next _ => False
  | n + 1, .next k => ∀ b, Decoder.AsksAtMost n (k b)

theorem Decoder.AsksAtMost.done (n : Nat) (d : Decoded) : Decoder.AsksAtMost n (.done d) := by cases n <;> trivial

theorem asksAtMost_slot {n : Nat} {k : Slot → Decoder} (hk : ∀ r, (k r).AsksAtMost n) : (Decode.slot k).AsksAtMost (n + 1) := fun b => by
  dsimp only
  split
  · exact hk _
  · exact .done n _

theorem asksAtMost_imm16 {n : Nat} {k : Half → Decoder} (hk : ∀ v, (k v).AsksAtMost n) : (Decode.imm16 k).AsksAtMost (n + 2) :=
  fun _ _ => hk _

theorem Decoder.AsksAtMost.succ {n : Nat} {d : Decoder} (h : d.AsksAtMost n) : d.AsksAtMost (n + 1) := by
  induction d generalizing n with
  | done d => exact .done _ d
  | next k ih =>
    cases n with
    | zero => exact h.elim
    | succ n => exact fun b => ih b (h b)

theorem asksAtMost_mem {n : Nat} {k : MemOperand → Decoder} (hk : ∀ m, (k m).AsksAtMost n) : (Decode.mem k).AsksAtMost (n + 3) := fun h => by
  have judged (src : Source) : Decoder.AsksAtMost n
      (match Config.modeOfNumber (Config.hdrMode h) with
        | none => .done (.reject .reservedMode)
        | some mode =>
          let m : MemOperand := { mode := mode, f := Config.hdrField h, src := src }
          if m.wellFormed then k m else .done (.reject .indexOutOfFile)) := by
    split
    · exact .done n _
    · dsimp only
      split
      · exact hk _
      · exact .done n _
  dsimp only [Decode.source]
  split
  · exact asksAtMost_imm16 fun v => judged (.imm v)
  · exact (asksAtMost_slot fun r => judged (.reg r)).succ

theorem asksAtMost_operands (shape : Shape) : (Decode.operands shape).AsksAtMost 4 := by
  have got (n : Nat) (i : Instr) : (Decode.got i).AsksAtMost n := .done n _
  cases shape with
  | N i => exact got 4 i
  | R mk => exact asksAtMost_slot fun rd => got 3 _
  | RR mk => exact asksAtMost_slot fun rd => asksAtMost_slot fun rs => got 2 _
  | RI8 mk => exact asksAtMost_slot fun rd _ => got 2 _
  | RI16 mk => exact asksAtMost_slot fun rd => asksAtMost_imm16 fun v => got 1 _
  | RM mk => exact asksAtMost_slot fun rd => asksAtMost_mem fun m => got 0 _
  | MR mk => exact asksAtMost_mem fun m => asksAtMost_slot fun rs => got 0 _

/-- An instruction has at most five bytes (30_encoding.md R71). -/
theorem asksAtMost_decoder : decoder.AsksAtMost 5 := fun op => by
  dsimp only
  split
  · exact asksAtMost_operands _
  · exact .done 4 _

/-- Given as many bytes as it may ask for, a decoder answers, and leaves what it did not ask for. -/
theorem Decoder.AsksAtMost.feed {n : Nat} {d : Decoder} (h : d.AsksAtMost n) {bytes : List Byte} (hb : n ≤ bytes.length) :
    ∃ r rest, d.feed bytes = some (r, rest) ∧ rest.length ≤ bytes.length ∧ bytes.length ≤ rest.length + n := by
  induction d generalizing n bytes with
  | done r => exact ⟨r, bytes, rfl, le_rfl, Nat.le_add_right _ _⟩
  | next k ih =>
    obtain _ | n := n
    · exact h.elim
    obtain _ | ⟨b, bs⟩ := bytes
    · simp at hb
    simp only [List.length_cons, Nat.add_le_add_iff_right] at hb
    obtain ⟨r, rest, hr, hlen, hmin⟩ := ih b (h b) hb
    exact ⟨r, rest, hr, by simp only [List.length_cons]; omega, by simp only [List.length_cons]; omega⟩

end Sys2Proof
end

section
/-! CERTIFICATE. The statements about the round trip and the totality of the decoder (30_encoding.md R71, R80, R81, R104). -/

namespace Sys2Proof

/-- Settles O2: shape by shape, the decoder reads back the operands the encoder wrote. -/
theorem decodeOfEncode : Obligations.DecodeOfEncode := fun _ rest hw => decode_encode hw rest

/-- Settles O3: the opcode table is read the same way by the decoder and the encoder. -/
theorem encodeOfDecode : Obligations.EncodeOfDecode := by
  intro bytes rest i h
  obtain ⟨op, more, shape, rfl, hs, hf⟩ := decode_instr_cases h
  obtain ⟨hw, hop, hargs⟩ := (shapeOf_encodes hs).of_feed hf
  exact ⟨hw, by rw [encode, hop, hargs]; rfl⟩

/-- Settles O4: the decoder asks for one byte, and then for at most four more. -/
theorem fiveBytesAlwaysDecode : Obligations.FiveBytesAlwaysDecode := by
  intro bytes hb
  obtain _ | ⟨op, more⟩ := bytes
  · simp at hb
  simp only [List.length_cons] at hb
  obtain ⟨d, rest, hd, hlen, hmin⟩ := Decoder.AsksAtMost.feed (n := 4) (asksAtMost_decoder op) (by omega : 4 ≤ more.length)
  exact ⟨d, rest, hd, by simp only [List.length_cons]; omega, by simp only [List.length_cons]; omega⟩

end Sys2Proof
end

section
/-! SUPPORT. Encodings without a meaning: what the decoder's pieces answer to them (30_encoding.md R93). -/

namespace Sys2Proof

/-! ### The fields of a header byte as numbers (30_encoding.md R76) -/

theorem hdrImmediate_eq (h : Byte) : Config.hdrImmediate h = decide (128 ≤ h.toNat) := by revert h; decide

theorem toNat_hdrField (h : Byte) : (Config.hdrField h).toNat = h.toNat % 16 := by simp [Config.hdrField]

theorem toNat_hdrMode (h : Byte) : (Config.hdrMode h).toNat = h.toNat / 16 % 8 := by
  simp [Config.hdrMode, Nat.shiftRight_eq_div_pow]

theorem modeOfNumber_eq_none {n : BitVec 3} : Config.modeOfNumber n = none ↔ 6 ≤ n.toNat := by revert n; decide

theorem modeOfNumber_eq_indexed {n : BitVec 3} : Config.modeOfNumber n = some .indexed ↔ n.toNat = 5 := by revert n; decide

theorem wellFormed_of_index {m : MemOperand} (h : m.mode = .indexed → m.f.toNat < 8) : m.wellFormed = true := by
  obtain ⟨mode, f, src⟩ := m
  cases mode with
  | indexed => exact decide_eq_true (h rfl)
  | absolute | pcRel | spRel | ptRel | itRel => rfl

theorem wellFormed_indexed {m : MemOperand} (h : m.mode = .indexed) : m.wellFormed = decide (m.f.toNat < 8) := by
  simp only [MemOperand.wellFormed, h]

/-! ### Register bytes -/

/-- A byte below 24 is a slot's register byte. -/
theorem exists_slot_of_lt {b : Byte} (h : b.toNat < 24) : ∃ r, Encode.slot r = b := by
  rcases e : Decode.slotOfByte b with _ | r
  · have := slotOfByte_eq_none.1 e
    omega
  · exact ⟨r, slot_of_slotOfByte e⟩

/-- A register byte of 24 or more is rejected as soon as it is read. -/
theorem feed_slot_outOfFile (k : Slot → Decoder) {b : Byte} (hb : 24 ≤ b.toNat) (rest : List Byte) :
    (Decode.slot k).feed (b :: rest) = some (.reject .slotOutOfFile, rest) := by
  simp only [Decode.slot, Decoder.feed, slotOfByte_eq_none.2 hb]

/-! ### Memory operands -/

/-- The inline source a header asks for is read as one source, which does not depend on what follows it. -/
theorem feed_source {h : Byte} {src : List Byte} (hs : Machine.SourceBytes h src) :
    ∃ v, ∀ (k : Source → Decoder) (rest : List Byte), (Decode.source (Config.hdrImmediate h) k).feed (src ++ rest) = (k v).feed rest := by
  rw [hdrImmediate_eq]
  rcases hs with ⟨hlt, r, hr, rfl⟩ | ⟨hge, lo, hi, rfl⟩
  · obtain ⟨r, rfl⟩ := exists_slot_of_lt hr
    refine ⟨.reg r, fun k rest => ?_⟩
    simp only [Nat.not_le.2 hlt, decide_false, Decode.source, List.singleton_append]
    exact feed_slot _ r rest
  · refine ⟨.imm (hi ++ lo), fun k rest => ?_⟩
    simp only [hge, decide_true, Decode.source]
    rfl

theorem feed_mem_slotOutOfFile (k : MemOperand → Decoder) {h b : Byte} (hh : h.toNat < 128) (hb : 24 ≤ b.toNat) (rest : List Byte) :
    (Decode.mem k).feed (h :: b :: rest) = some (.reject .slotOutOfFile, rest) := by
  simp only [Decode.mem, Decoder.feed, hdrImmediate_eq, Nat.not_le.2 hh, decide_false, Decode.source]
  exact feed_slot_outOfFile _ hb rest

theorem feed_mem_reservedMode (k : MemOperand → Decoder) {h : Byte} {src : List Byte} (hs : Machine.SourceBytes h src)
    (hm : 6 ≤ h.toNat / 16 % 8) (rest : List Byte) :
    (Decode.mem k).feed (h :: (src ++ rest)) = some (.reject .reservedMode, rest) := by
  obtain ⟨v, hv⟩ := feed_source hs
  have hmode : Config.modeOfNumber (Config.hdrMode h) = none := modeOfNumber_eq_none.2 (by rwa [toNat_hdrMode])
  simp only [Decode.mem, Decoder.feed, hv, hmode]

theorem feed_mem_indexOutOfFile (k : MemOperand → Decoder) {h : Byte} {src : List Byte} (hs : Machine.SourceBytes h src)
    (hm : h.toNat / 16 % 8 = 5) (hf : 8 ≤ h.toNat % 16) (rest : List Byte) :
    (Decode.mem k).feed (h :: (src ++ rest)) = some (.reject .indexOutOfFile, rest) := by
  obtain ⟨v, hv⟩ := feed_source hs
  have hmode : Config.modeOfNumber (Config.hdrMode h) = some .indexed := modeOfNumber_eq_indexed.2 (by rwa [toNat_hdrMode])
  have hw : (⟨.indexed, Config.hdrField h, v⟩ : MemOperand).wellFormed = false := by
    rw [wellFormed_indexed rfl, toNat_hdrField]
    exact decide_eq_false (Nat.not_lt.2 hf)
  simp only [Decode.mem, Decoder.feed, hv, hmode, hw, Bool.false_eq_true, if_false]

/-- A header with a meaning, and its source, are read as one operand, which does not depend on what follows it. -/
theorem feed_mem_of_header {h : Byte} {src : List Byte} (hs : Machine.SourceBytes h src) (hm : h.toNat / 16 % 8 < 6)
    (hf : h.toNat / 16 % 8 = 5 → h.toNat % 16 < 8) :
    ∃ m, ∀ (k : MemOperand → Decoder) (rest : List Byte), (Decode.mem k).feed (h :: (src ++ rest)) = (k m).feed rest := by
  obtain ⟨v, hv⟩ := feed_source hs
  rw [← toNat_hdrMode] at hm hf
  rcases hmode : Config.modeOfNumber (Config.hdrMode h) with _ | mode
  · have := modeOfNumber_eq_none.1 hmode
    omega
  · have hw : (⟨mode, Config.hdrField h, v⟩ : MemOperand).wellFormed = true := wellFormed_of_index fun e => by
      rw [toNat_hdrField]
      exact hf (modeOfNumber_eq_indexed.1 (hmode.trans (congrArg some e)))
    refine ⟨⟨mode, Config.hdrField h, v⟩, fun k rest => ?_⟩
    simp only [Decode.mem, Decoder.feed, hv, hmode, hw, if_true]

/-! ### The formats that begin with a register byte, and those of two -/

/-- A byte with a known value. -/
theorem eq_ofNat_of_toNat {b : Byte} {n : Nat} (h : b.toNat = n) : b = BitVec.ofNat 8 n := by
  rw [← h, BitVec.ofNat_toNat, BitVec.setWidth_eq]

/-- An opcode whose format is not N, MR or undefined begins its operands with a register byte. -/
theorem operands_begin_with_slot {op : Byte} (h : op.toNat < 5 ∨ (7 ≤ op.toNat ∧ op.toNat ≤ 0x19)) :
    ∃ shape k, Decode.shapeOf op = some shape ∧ Decode.operands shape = Decode.slot k := by
  rcases h with h | ⟨h7, h19⟩ <;> interval_cases e : op.toNat
  all_goals
    obtain rfl := eq_ofNat_of_toNat e
    exact ⟨_, _, rfl, rfl⟩

/-- The opcodes of format RR. -/
theorem shapeOf_RR {op : Byte} (h : op.toNat ∈ [0x00, 0x09, 0x0C, 0x0E, 0x11, 0x12, 0x13, 0x15]) :
    ∃ mk, Decode.shapeOf op = some (.RR mk) := by
  simp only [List.mem_cons, List.not_mem_nil, or_false] at h
  rcases h with e | e | e | e | e | e | e | e
  all_goals
    obtain rfl := eq_ofNat_of_toNat e
    exact ⟨_, rfl⟩

/-- A load reads its register byte, then its memory operand. -/
theorem decode_load {op rd : Byte} (hop : op = 3 ∨ op = 4) (hrd : rd.toNat < 24) :
    ∃ k, ∀ bytes, decode (op :: rd :: bytes) = (Decode.mem k).feed bytes := by
  obtain ⟨mk, hshape⟩ : ∃ mk, Decode.shapeOf op = some (.RM mk) := by
    rcases hop with rfl | rfl <;> exact ⟨_, rfl⟩
  obtain ⟨r, rfl⟩ := exists_slot_of_lt hrd
  exact ⟨_, fun bytes => by rw [decode_of_shape hshape, Decode.operands, feed_slot]⟩

/-- A store reads its memory operand, then its register byte. -/
theorem decode_store {op : Byte} (hop : op = 5 ∨ op = 6) :
    ∃ k : MemOperand → Slot → Decoder, ∀ bytes, decode (op :: bytes) = (Decode.mem fun m => Decode.slot (k m)).feed bytes := by
  obtain ⟨mk, hshape⟩ : ∃ mk, Decode.shapeOf op = some (.MR mk) := by
    rcases hop with rfl | rfl <;> exact ⟨_, rfl⟩
  exact ⟨_, fun bytes => by rw [decode_of_shape hshape, Decode.operands]⟩

end Sys2Proof
end

section
/-! CERTIFICATE. The statements about words of the spec and about encodings without a meaning (30_encoding.md R90 to R103). -/

namespace Sys2Proof

/-- Settles O1: closed words, read by the decoder. -/
theorem specWordsDecode : Obligations.SpecWordsDecode := by
  unfold Obligations.SpecWordsDecode; decide

/-- Settles O5: a register byte is judged when it is read, a header when its source has been read. -/
theorem encodingsWithoutMeaning : Obligations.EncodingsWithoutMeaning := by
  refine ⟨fun op b rest hop hb => ?_, fun op rd b rest hop hrd hb => ?_, fun op rd h b rest hrd hh hb => ⟨fun hop => ?_, fun hop => ?_⟩,
    fun op h b src rest hop hs hm hf hb => ?_, fun op rd h src rest hrd hs hm => ⟨fun hop => ?_, fun hop => ?_⟩,
    fun op rd h src rest hrd hs hm hf => ⟨fun hop => ?_, fun hop => ?_⟩⟩
  · obtain ⟨shape, k, hshape, hk⟩ := operands_begin_with_slot hop
    rw [decode_of_shape hshape, hk, feed_slot_outOfFile k hb]
  · obtain ⟨mk, hshape⟩ := shapeOf_RR hop
    obtain ⟨r, rfl⟩ := exists_slot_of_lt hrd
    rw [decode_of_shape hshape, Decode.operands, feed_slot, feed_slot_outOfFile _ hb]
  · obtain ⟨k, hk⟩ := decode_load hop hrd
    rw [hk, feed_mem_slotOutOfFile k hh hb]
  · obtain ⟨k, hk⟩ := decode_store hop
    rw [hk, feed_mem_slotOutOfFile _ hh hb]
  · obtain ⟨k, hk⟩ := decode_store hop
    obtain ⟨m, hm⟩ := feed_mem_of_header hs hm hf
    rw [hk, hm, feed_slot_outOfFile _ hb]
  · obtain ⟨k, hk⟩ := decode_load hop hrd
    rw [hk, feed_mem_reservedMode k hs hm]
  · obtain ⟨k, hk⟩ := decode_store hop
    rw [hk, feed_mem_reservedMode _ hs hm]
  · obtain ⟨k, hk⟩ := decode_load hop hrd
    rw [hk, feed_mem_indexOutOfFile k hs hm hf]
  · obtain ⟨k, hk⟩ := decode_store hop
    rw [hk, feed_mem_indexOutOfFile _ hs hm hf]

end Sys2Proof
end

section
/-! SUPPORT. What every move keeps: the RAM's canonical form, the width of the slots, and a locked slot (10_state.md R13, R30; 20_memory.md section 6). -/

namespace Sys2Proof.Machine

/-! ### One raw write, by what stands behind the address (20_memory.md R57, R58) -/

theorem State.memWrite_of_ram {a : Addr} (h : Config.region (key a) = .ram) (s : State) (v : Byte) :
    s.memWrite a v = { s with mem := Memory.write s.mem (key a) v } := by
  simpa [h] using s.memWrite_cases a v

theorem State.memWrite_of_audio {a : Addr} (h : Config.region (key a) = .audio) (s : State) (v : Byte) :
    s.memWrite a v = s.forward { chip := .audio, offset := a.offset - Config.audioBase, value := v } := by
  simpa [h] using s.memWrite_cases a v

theorem State.memWrite_of_timer {a : Addr} (h : Config.region (key a) = .timer) (s : State) (v : Byte) :
    s.memWrite a v = s.forward { chip := .timer, offset := a.offset - Config.timerBase, value := v } := by
  simpa [h] using s.memWrite_cases a v

theorem State.memWrite_of_unmapped {a : Addr} (h : Config.region (key a) = .unmapped) (s : State) (v : Byte) : s.memWrite a v = s := by
  simpa [h] using s.memWrite_cases a v

/-! ### The canonical form of the RAM -/

theorem Effect.canonical {i : Instr} {s t : State} (h : Effect i s t) (hs : s.Canonical) : t.Canonical := by
  cases h with
  | dest rd v hd hv => rw [State.Canonical, State.writeDest_mem]; exact hs
  | flags v hi hv => exact hs
  | nothing hd => exact hs
  | byte a v hd ha => exact State.memWrite_wf hs a v
  | word a lo hi hd ha hb => exact State.memWrite_wf (State.memWrite_wf hs a lo) _ hi
  | violation a need ha => rw [State.Canonical, (s.pageAV_frame a).mem]; exact hs
  | halfStored a lo hd ha hb => rw [State.Canonical, (State.pageAV_frame _ _).mem]; exact State.memWrite_wf hs a lo

theorem step_canonical {s t : State} (h : step s = .next t) (hs : s.Canonical) : t.Canonical := by
  have hfetch (n : Nat) : (s.afterBytes n).Canonical := by rw [State.Canonical, State.afterBytes_mem]; exact hs
  rcases step_next h with ⟨n, i, _, _, he⟩ | ⟨n, rfl⟩ | ⟨n, _, rfl⟩
  · exact he.canonical (hfetch n)
  · exact hfetch n
  · rw [State.Canonical, (State.pageAV_frame _ _).mem]; exact hfetch n

theorem State.hostPoke_canonical {s : State} (hs : s.Canonical) (a : Addr) (v : Byte) : (s.hostPoke a v).Canonical := by
  unfold State.hostPoke
  split
  · next h => exact Memory.wf_write hs h v
  all_goals exact hs

/-! ### Slots of sixteen bits -/

theorem Effect.sixteenBit {i : Instr} {s t : State} (h : Effect i s t) (hs : s.SixteenBit) : t.SixteenBit := by
  have hset (j : Slot) {v : SlotVal} (hv : v.toNat < 65536) : (s.set j v).SixteenBit := fun k => by
    rw [State.get_set]
    split
    · exact hv
    · exact hs k
  have hstored (a : Addr) (v : Byte) {u : State} (hu : u.SixteenBit) : (u.memWrite a v).SixteenBit := fun k => by
    rw [State.get_memWrite]; exact hu k
  cases h with
  | dest rd v hd hv =>
    unfold State.writeDest
    split
    · exact hs
    · exact hset rd (hv hs)
  | flags v hi hv => exact hset .fl (hv hs)
  | nothing hd => exact hs
  | byte a v hd ha => exact hstored a v hs
  | word a lo hi hd ha hb => exact hstored _ hi (hstored a lo hs)
  | violation a need ha => exact (s.pageAV_frame a).sixteen hs
  | halfStored a lo hd ha hb => exact (State.pageAV_frame _ _).sixteen (hstored a lo hs)

theorem step_sixteenBit {s t : State} (h : step s = .next t) (hs : s.SixteenBit) : t.SixteenBit := by
  rcases step_next h with ⟨n, i, _, _, he⟩ | ⟨n, rfl⟩ | ⟨n, _, rfl⟩
  · exact he.sixteenBit (State.afterBytes_sixteenBit hs n)
  · exact State.afterBytes_sixteenBit hs n
  · exact (State.pageAV_frame _ _).sixteen (State.afterBytes_sixteenBit hs n)

/-! ### A locked slot -/

/-- Slots outside PC, the enables among them, are as they were while an instruction is fetched, and so is the lock. -/
theorem State.locked_afterBytes (s : State) (n : Nat) (j : Slot) : (s.afterBytes n).locked j = s.locked j := by
  simp only [State.locked, State.flagOf, State.get_afterBytes_ne s n (i := .mmue) (by decide),
    State.get_afterBytes_ne s n (i := .intl) (by decide)]

/-- No instruction writes a locked slot, unless it ends in a violation. -/
theorem Effect.locked_slot_cases {i : Instr} {s t : State} (h : Effect i s t) {j : Slot} (hj : s.locked j = true) :
    t.get j = s.get j ∨ ∃ u, u.get j = s.get j ∧ Trap u t := by
  cases h with
  | dest rd v hd hv =>
    left
    by_cases e : j = rd
    · rw [← e, State.writeDest_of_locked hj]
    · exact State.get_writeDest_ne s v e
  | flags v hi hv =>
    refine .inl (State.get_set_ne ?_)
    rintro rfl
    exact absurd (State.locked_eq_false (i := .fl) (by decide) s) (ne_false_of_eq_true hj)
  | nothing hd => exact .inl rfl
  | byte a v hd ha => exact .inl (State.get_memWrite s j a v)
  | word a lo hi hd ha hb => left; simp only [State.get_memWrite]
  | violation a need ha => exact .inr ⟨s, rfl, .violation a⟩
  | halfStored a lo hd ha hb => exact .inr ⟨s.memWrite a lo, State.get_memWrite s j a lo, .violation _⟩

/-- A move that is no host write to it leaves a locked slot alone, or takes a trap. -/
theorem Move.locked_slot_cases {m : Move} {s t : State} (h : m.apply s = .next t) {j : Slot} (hj : s.locked j = true)
    (hm : ∀ v, m ≠ .hostSet j v) : t.get j = s.get j ∨ ∃ u, u.get j = s.get j ∧ Trap u t := by
  cases m with
  | step =>
    have hpc : j ≠ .pc := by
      rintro rfl
      exact absurd (State.locked_eq_false (i := .pc) (by decide) s) (ne_false_of_eq_true hj)
    have hfetch (n : Nat) : (s.afterBytes n).get j = s.get j := s.get_afterBytes_ne n hpc
    rcases step_next h with ⟨n, i, _, _, he⟩ | ⟨n, rfl⟩ | ⟨n, _, rfl⟩
    · rcases he.locked_slot_cases ((s.locked_afterBytes n j).trans hj) with hk | ⟨u, hu, ht⟩
      · exact .inl (hk.trans (hfetch n))
      · exact .inr ⟨u, hu.trans (hfetch n), ht⟩
    · exact .inl (hfetch n)
    · exact .inr ⟨_, hfetch n, .violation _⟩
  | trigger kind => cases h; exact .inr ⟨s, rfl, .trigger kind⟩
  | reset => cases h; exact .inr ⟨s, rfl, .reset⟩
  | hostSet i v =>
    cases h
    exact .inl (State.get_set_ne fun e => hm v (by rw [e]))
  | hostPoke a v => cases h; exact .inl (s.get_hostPoke a v j)

/-- A trap keeps or clears an enable. -/
theorem Trap.enable {u t : State} (h : Trap u t) :
    (t.get .mmue = u.get .mmue ∨ t.get .mmue = 0) ∧ (t.get .intl = u.get .intl ∨ t.get .intl = 0) := by
  cases h with
  | violation a => exact ⟨(u.pageAV_frame a).mmue, (u.pageAV_frame a).intl⟩
  | trigger kind => exact ⟨(u.trigger_frame kind).mmue, (u.trigger_frame kind).intl⟩
  | reset => exact ⟨u.hardReset_frame.mmue, u.hardReset_frame.intl⟩

/-- A locked slot that no trap writes is kept by every move but a host write to it. -/
theorem Move.locked_slot_kept {m : Move} {s t : State} (h : m.apply s = .next t) {j : Slot} (hj : s.locked j = true)
    (hm : ∀ v, m ≠ .hostSet j v) (hn : j ∉ trapSlots ∧ j ≠ .r0 ∧ j ≠ .r1) : t.get j = s.get j := by
  rcases Move.locked_slot_cases h hj hm with hk | ⟨u, hu, ht⟩
  · exact hk
  · obtain ⟨htrap, h0, h1⟩ := hn
    exact (ht.get_eq htrap h0 h1).trans hu

end Sys2Proof.Machine
end

section
/-! CERTIFICATE. The invariants of the moves (10_state.md section 4, 60_exceptions.md section 7). -/

namespace Sys2Proof.Machine

/-- Settles O39: memory changes by raw writes alone, and each keeps the form. -/
theorem everyMoveKeepsMemoryCanonical : Obligations.EveryMoveKeepsMemoryCanonical := by
  intro m s t hs h
  cases m with
  | step => exact step_canonical h hs
  | trigger kind => cases h; rw [State.Canonical, (s.trigger_frame kind).mem]; exact hs
  | reset => cases h; exact hs
  | hostSet i v => cases h; exact hs
  | hostPoke a v => cases h; exact State.hostPoke_canonical hs a v

/-- Settles O40: a closed state. -/
theorem resetStateMeetsTheInvariants : Obligations.ResetStateMeetsTheInvariants := by
  unfold Obligations.ResetStateMeetsTheInvariants; decide

/-- Settles O41: every value the hardware writes to a slot has 16 bits, or was in a slot before. -/
theorem slotsStaySixteenBit : Obligations.SlotsStaySixteenBit := by
  intro m s t hs hm h
  cases m with
  | step => exact step_sixteenBit h hs
  | trigger kind => cases h; exact (s.trigger_frame kind).sixteen hs
  | reset => cases h; exact s.hardReset_frame.sixteen hs
  | hostSet i v => exact absurd rfl (hm i v)
  | hostPoke a v => cases h; intro j; rw [State.get_hostPoke]; exact hs j

/-- Settles O42: INTl is always locked, and a trap only clears it. -/
theorem onlyTheHostSetsIntl : Obligations.OnlyTheHostSetsIntl := by
  intro m s t hm h
  rcases Move.locked_slot_cases h s.locked_intl hm with hk | ⟨u, hu, ht⟩
  · exact .inl hk
  · exact ht.enable.2.imp_left fun e => e.trans hu

/-- Settles O43: the MMU's registers are locked while MMUe is set, and of them a trap writes MMUe alone. -/
theorem mmuRegistersAreFrozenWhileEnabled : Obligations.MmuRegistersAreFrozenWhileEnabled := by
  intro m s t hs hm h
  have hlock {j : Slot} (hj : j = .mmub ∨ j = .mmup ∨ j = .mmue) : s.locked j = true :=
    State.locked_of_mmue ((flag_eq_true_iff _).2 hs) hj
  refine ⟨Move.locked_slot_kept h (hlock (.inr (.inl rfl))) (hm _) (by decide),
    Move.locked_slot_kept h (hlock (.inl rfl)) (hm _) (by decide), ?_⟩
  rcases Move.locked_slot_cases h (hlock (.inr (.inr rfl))) (hm _) with hk | ⟨u, hu, ht⟩
  · exact .inl hk
  · exact ht.enable.1.imp_left fun e => e.trans hu

/-- Settles O44: the interrupt table's registers are locked while INTl is set, and no trap writes them. -/
theorem interruptTableIsFrozenWhileEnabled : Obligations.InterruptTableIsFrozenWhileEnabled := by
  intro m s t hs hm h
  have hlock {j : Slot} (hj : j = .intb ∨ j = .intp ∨ j = .intl) : s.locked j = true :=
    State.locked_of_intl ((flag_eq_true_iff _).2 hs) hj
  exact ⟨Move.locked_slot_kept h (hlock (.inr (.inl rfl))) (hm _) (by decide),
    Move.locked_slot_kept h (hlock (.inl rfl)) (hm _) (by decide)⟩

end Sys2Proof.Machine
end

section
/-! CERTIFICATE. The isolation of a page without W (20_memory.md section 5). -/

namespace Sys2Proof.Machine

/-- A raw write away from the entry of its page changes no permission of an address. -/
theorem State.perm_memWrite_of_ne (s : State) {a b : Addr} (v : Byte) (h : s.pteAddr b ≠ a) (need : Access) :
    (s.memWrite a v).perm b need = s.perm b need :=
  State.perm_congr (by simp) (by simp) (by simp) (by rw [State.pteAddr_memWrite, State.memRead_memWrite_ne s v h]) need

/-- Two addresses of which one has a permission the other lacks. -/
theorem State.ne_of_perm {s : State} {a b : Addr} {need : Access} (ha : s.perm a need = true) (hb : s.perm b need = false) : b ≠ a := by
  rintro rfl
  exact absurd ha (ne_true_of_eq_false hb)

/-- A byte without W, whose entry has no W either, is not written. -/
theorem Effect.memRead_of_no_write {i : Instr} {s t : State} (h : Effect i s t) {a : Addr} (ha : s.perm a .write = false)
    (hpte : s.perm (s.pteAddr a) .write = false) : t.memRead a = s.memRead a := by
  have hlow {b : Addr} (v : Byte) (hb : s.perm b .write = true) : (s.memWrite b v).memRead a = s.memRead a :=
    State.memRead_memWrite_ne s v (State.ne_of_perm hb ha)
  cases h with
  | dest rd v hd hv => rw [State.memRead_writeDest]
  | flags v hi hv => exact s.memRead_set .fl v a
  | nothing hd => rfl
  | byte b v hd hb => exact hlow v hb
  | word b lo hi hd hb hc =>
    -- the low byte did not reach the entry of `a`, so `a` lacks W for the high byte too
    have hkept : (s.memWrite b lo).perm a .write = false := by
      rw [State.perm_memWrite_of_ne s lo (State.ne_of_perm hb hpte), ha]
    rw [State.memRead_memWrite_ne _ hi (State.ne_of_perm hc hkept), hlow lo hb]
  | violation b need hb => rw [State.memRead_congr (s.pageAV_frame b).mem]
  | halfStored b lo hd hb hc => rw [State.memRead_congr (State.pageAV_frame _ _).mem, hlow lo hb]

theorem State.pteAddr_afterBytes (s : State) (n : Nat) (a : Addr) : (s.afterBytes n).pteAddr a = s.pteAddr a := by
  simp only [State.pteAddr, State.bankOf, State.offOf, State.get_afterBytes_ne s n (i := .mmub) (by decide),
    State.get_afterBytes_ne s n (i := .mmup) (by decide)]

/-- Settles O51: a store reaches only bytes with W, and the first byte of a word does not reach the entry that guards the second. -/
theorem pageWithoutWritePermissionIsUnchanged : Obligations.PageWithoutWritePermissionIsUnchanged := by
  intro s t a _ ha hpte h
  rcases step_next h with ⟨n, i, _, _, he⟩ | ⟨n, rfl⟩ | ⟨n, _, rfl⟩
  · rw [he.memRead_of_no_write (by rw [State.perm_afterBytes, ha]) (by rw [State.pteAddr_afterBytes, State.perm_afterBytes, hpte]),
      State.memRead_afterBytes]
  · exact s.memRead_afterBytes n a
  · rw [State.memRead_congr (State.pageAV_frame _ _).mem, State.memRead_afterBytes]

end Sys2Proof.Machine
end

section
/-! SUPPORT. A byte that may be neither read nor fetched is not observed: two states that differ only in it go the same way, operation by operation,
up to a whole step (20_memory.md section 5). -/

namespace Sys2Proof.Machine

/-- `a` is no byte the hardware reads without a check: none of the page table, none of the EXCEPT entry. -/
structure OffTables (s : State) (a : Addr) : Prop where
  pte : ∀ b, s.pteAddr b ≠ a
  entry : ∀ j : Half, j.toNat < 3 → s.entryAddr Config.kindExcept j ≠ a

/-- Nothing in `s` can read `a`: it has neither R nor X, and lies in no table. -/
structure Hidden (s : State) (a : Addr) : Prop extends OffTables s a where
  unreadable : s.perm a .read = false
  unfetchable : s.perm a .exec = false

/-- `s` and `t` are canonical and differ at most in what `a` reads. -/
structure AlikeExcept (a : Addr) (s t : State) : Prop where
  canonical : s.Canonical
  canonical' : t.Canonical
  regs : s.regs = t.regs
  devices : s.devices = t.devices
  reads : ReadsAlikeExcept a s t

/-- Two answers that are alike: next states that differ at most in what `a` reads, or the same refusal. -/
inductive AnswersAlikeExcept (a : Addr) : Outcome → Outcome → Prop where
  | next {s t : State} (h : AlikeExcept a s t) : AnswersAlikeExcept a (.next s) (.next t)
  | refused (e : Refusal) : AnswersAlikeExcept a (.refused e) (.refused e)

/-! ### The tables stay where they are -/

theorem State.entryAddr_congr {s t : State} (hb : t.get .intb = s.get .intb) (hp : t.get .intp = s.get .intp) (kind : Kind) (j : Half) :
    t.entryAddr kind j = s.entryAddr kind j := by
  simp only [State.entryAddr, State.bankOf, State.offOf, hb, hp]

/-- What a violation reports moves no interrupt-table entry. -/
theorem State.readEntry_faultInfo (s : State) (b : Addr) (kind : Kind) :
    (s.faultInfo b).readEntry kind = s.readEntry kind :=
  State.readEntry_congr (by simp +decide [State.get_faultInfo]) (by simp +decide [State.get_faultInfo]) rfl

theorem OffTables.memWrite {s : State} {a : Addr} (h : OffTables s a) (b : Addr) (v : Byte) : OffTables (s.memWrite b v) a where
  pte c := by rw [State.pteAddr_memWrite]; exact h.pte c
  entry j hj := by rw [State.entryAddr_memWrite]; exact h.entry j hj

theorem Hidden.afterBytes {s : State} {a : Addr} (h : Hidden s a) (n : Nat) : Hidden (s.afterBytes n) a where
  pte b := by rw [State.pteAddr_afterBytes]; exact h.pte b
  entry j hj := by
    rw [State.entryAddr_congr (s.get_afterBytes_ne n (by decide)) (s.get_afterBytes_ne n (by decide))]
    exact h.entry j hj
  unreadable := by rw [State.perm_afterBytes, h.unreadable]
  unfetchable := by rw [State.perm_afterBytes, h.unfetchable]

namespace AlikeExcept

variable {a : Addr} {s t : State}

/-! ### What both states read alike -/

theorem get (h : AlikeExcept a s t) (i : Slot) : t.get i = s.get i := ((State.regs_eq_iff s t).1 h.regs i).symm

theorem offOf (h : AlikeExcept a s t) (i : Slot) : t.offOf i = s.offOf i := congrArg off (h.get i)

theorem bankOf (h : AlikeExcept a s t) (i : Slot) : t.bankOf i = s.bankOf i := congrArg bnk (h.get i)

theorem flagOf (h : AlikeExcept a s t) (i : Slot) : t.flagOf i = s.flagOf i := congrArg flag (h.get i)

theorem locked (h : AlikeExcept a s t) (i : Slot) : t.locked i = s.locked i := by
  simp only [State.locked, h.flagOf]

theorem codeAddr (h : AlikeExcept a s t) (n : Half) : t.codeAddr n = s.codeAddr n := by
  simp only [State.codeAddr, h.bankOf, h.offOf]

theorem resolve (h : AlikeExcept a s t) (m : MemOperand) : t.resolve m = s.resolve m := (State.resolve_congr h.regs m).symm

theorem perm (h : AlikeExcept a s t) (ho : OffTables s a) (b : Addr) (need : Access) : t.perm b need = s.perm b need :=
  (State.perm_congr (h.get _).symm (h.get _).symm (h.get _).symm (h.reads _ (ho.pte b)) need).symm

theorem readEntry (h : AlikeExcept a s t) (ho : OffTables s a) : t.readEntry Config.kindExcept = s.readEntry Config.kindExcept := by
  have hbyte (j : Half) (hj : j.toNat < 3) : t.memRead (t.entryAddr Config.kindExcept j) = s.memRead (s.entryAddr Config.kindExcept j) := by
    rw [State.entryAddr_congr (h.get _) (h.get _)]
    exact (h.reads _ (ho.entry j hj)).symm
  simp only [State.readEntry, hbyte 0 (by decide), hbyte 1 (by decide), hbyte 2 (by decide)]

/-- A byte that may be fetched is another byte than `a`. -/
theorem memRead_of_exec (h : AlikeExcept a s t) (hh : Hidden s a) {b : Addr} (hb : s.perm b .exec = true) : t.memRead b = s.memRead b :=
  (h.reads b (State.ne_of_perm hb hh.unfetchable).symm).symm

theorem readProt (h : AlikeExcept a s t) (hh : Hidden s a) (b : Addr) : t.readProt b = s.readProt b := by
  have hp := h.perm hh.toOffTables b .read
  rcases hb : s.perm b .read with _ | _
  · rw [State.readProt_error hb, State.readProt_error (hp.trans hb)]
  · rw [State.readProt_ok hb, State.readProt_ok (hp.trans hb), h.reads b (State.ne_of_perm hb hh.unreadable).symm]

theorem readProt16 (h : AlikeExcept a s t) (hh : Hidden s a) (b : Addr) : t.readProt16 b = s.readProt16 b := by
  simp only [State.readProt16, h.readProt hh]

/-! ### The state operations -/

theorem set (h : AlikeExcept a s t) (i : Slot) {v w : SlotVal} (hv : w = v) : AlikeExcept a (s.set i v) (t.set i w) where
  canonical := h.canonical
  canonical' := h.canonical'
  regs := by simp only [State.set, h.regs, hv]
  devices := h.devices
  reads := h.reads

theorem writeDest (h : AlikeExcept a s t) (i : Slot) {v w : SlotVal} (hv : w = v) : AlikeExcept a (s.writeDest i v) (t.writeDest i w) := by
  unfold State.writeDest
  rw [h.locked]
  split
  · exact h
  · exact h.set i hv

theorem advance (h : AlikeExcept a s t) (n : Half) : AlikeExcept a (s.advance n) (t.advance n) := h.set .pc (by rw [h.offOf])

theorem afterBytes (h : AlikeExcept a s t) (n : Nat) : AlikeExcept a (s.afterBytes n) (t.afterBytes n) := by
  cases n with
  | zero => exact h
  | succ n => exact h.advance _

/-- The same raw write in both states: even at `a` itself they still differ at most there. -/
theorem memWrite (h : AlikeExcept a s t) (b : Addr) (v : Byte) : AlikeExcept a (s.memWrite b v) (t.memWrite b v) where
  canonical := State.memWrite_wf h.canonical b v
  canonical' := State.memWrite_wf h.canonical' b v
  regs := by rw [State.memWrite_regs, State.memWrite_regs, h.regs]
  devices := by
    rcases hr : Config.region (key b) with _ | _ | _ | _
    · rw [State.memWrite_of_ram hr, State.memWrite_of_ram hr]; exact h.devices
    · rw [State.memWrite_of_audio hr, State.memWrite_of_audio hr, State.forward_devices, State.forward_devices, h.devices]
    · rw [State.memWrite_of_timer hr, State.memWrite_of_timer hr, State.forward_devices, State.forward_devices, h.devices]
    · rw [State.memWrite_of_unmapped hr, State.memWrite_of_unmapped hr]; exact h.devices
  reads c hc := by
    by_cases e : c = b
    · rw [e, State.memRead_memWrite_self h.canonical, State.memRead_memWrite_self h.canonical']
    · rw [State.memRead_memWrite_ne s v e, State.memRead_memWrite_ne t v e, h.reads c hc]

/-! ### Reset and the violation -/

theorem hardReset (h : AlikeExcept a s t) : AlikeExcept a s.hardReset t.hardReset :=
  (((((h.set .pcb rfl).set .pc rfl).set .exc rfl).set .mmue rfl).set .intl rfl).set .fl rfl

theorem fatal (h : AlikeExcept a s t) : AlikeExcept a s.fatal t.fatal := h.hardReset.set .exc rfl

theorem saveReturn (h : AlikeExcept a s t) : AlikeExcept a s.saveReturn t.saveReturn :=
  have hs := h.set .rtib (h.get .pcb)
  hs.set .rtip (h.get .pc)

theorem entryClears (h : AlikeExcept a s t) (e : BitVec 24) : AlikeExcept a (s.entryClears e) (t.entryClears e) := by
  have hmmu : AlikeExcept a (if Config.entryClrMmu e then s.set .mmue 0 else s) (if Config.entryClrMmu e then t.set .mmue 0 else t) := by
    split
    · exact h.set .mmue rfl
    · exact h
  unfold State.entryClears
  dsimp only
  split
  · exact hmmu.set .intl rfl
  · exact hmmu

theorem entryJump (h : AlikeExcept a s t) (e : BitVec 24) : AlikeExcept a (s.entryJump e) (t.entryJump e) :=
  (h.set .pcb rfl).set .pc rfl

/-- `Trigger` of the EXCEPT kind, when both states read the same entry. -/
theorem triggerExcept (h : AlikeExcept a s t) (he : t.readEntry Config.kindExcept = s.readEntry Config.kindExcept) :
    AlikeExcept a (State.trigger Config.kindExcept s) (State.trigger Config.kindExcept t) := by
  simp only [State.trigger, if_true, State.triggerRound, State.readEntry_saveReturn, he, h.flagOf]
  split
  · split
    · exact ((h.saveReturn.entryClears _).set .exc rfl).fatal
    · exact (h.saveReturn.entryClears _).entryJump _
  · exact h.fatal

theorem pageAV (h : AlikeExcept a s t) (ho : OffTables s a) (b : Addr) : AlikeExcept a (s.pageAV b) (t.pageAV b) := by
  have hinfo : AlikeExcept a (s.faultInfo b) (t.faultInfo b) := ((h.set .exc rfl).set .r0 rfl).set .r1 rfl
  refine hinfo.triggerExcept ?_
  rw [State.readEntry_faultInfo, State.readEntry_faultInfo, h.readEntry ho]

/-! ### The shapes of the instructions -/

theorem alu1 (h : AlikeExcept a s t) (f : Half → Half) (rd : Slot) : AlikeExcept a (s.alu1 f rd) (t.alu1 f rd) :=
  h.writeDest rd (by rw [h.offOf])

theorem aluImm (h : AlikeExcept a s t) (f : Half → Half → Half) (rd : Slot) (v : Half) : AlikeExcept a (s.aluImm f rd v) (t.aluImm f rd v) :=
  h.writeDest rd (by rw [h.offOf])

theorem alu2 (h : AlikeExcept a s t) (f : Half → Half → Half) (rd rs : Slot) : AlikeExcept a (s.alu2 f rd rs) (t.alu2 f rd rs) :=
  h.writeDest rd (by rw [h.offOf, h.offOf])

theorem load (h : AlikeExcept a s t) (ho : OffTables s a) (m : MemOperand) (rd : Slot) {read : State → Addr → Except Addr SlotVal}
    (hread : ∀ b, read t b = read s b) : AnswersAlikeExcept a (s.load m rd read) (t.load m rd read) := by
  unfold State.load
  rw [h.resolve]
  split
  · exact .refused _
  · rw [hread]
    split
    · exact .next (h.pageAV ho _)
    · exact .next (h.writeDest rd rfl)

theorem store8 (h : AlikeExcept a s t) (ho : OffTables s a) (b : Addr) (v : Byte) : AlikeExcept a (s.store8 b v) (t.store8 b v) := by
  have hp := h.perm ho b .write
  rcases hb : s.perm b .write with _ | _
  · rw [State.store8_of_denied hb, State.store8_of_denied (hp.trans hb)]
    exact h.pageAV ho b
  · rw [State.store8_of_perm hb, State.store8_of_perm (hp.trans hb)]
    exact h.memWrite b v

theorem store16 (h : AlikeExcept a s t) (ho : OffTables s a) (b : Addr) (v : Half) : AlikeExcept a (s.store16 b v) (t.store16 b v) := by
  have hp := h.perm ho b .write
  rcases hb : s.perm b .write with _ | _
  · rw [State.store16_of_low_denied hb, State.store16_of_low_denied (hp.trans hb)]
    exact h.pageAV ho b
  · simp only [State.store16, State.writeProt_ok hb, State.writeProt_ok (hp.trans hb)]
    exact (h.memWrite b _).store8 (ho.memWrite b _) _ _

theorem store (h : AlikeExcept a s t) (m : MemOperand) {write : State → Addr → State}
    (hwrite : ∀ b, AlikeExcept a (write s b) (write t b)) : AnswersAlikeExcept a (s.store m write) (t.store m write) := by
  unfold State.store State.beforeRsByte
  rw [(h.advance (-1)).resolve]
  split
  · exact .refused _
  · exact .next (hwrite _)

/-! ### exec and step -/

/-- Every instruction goes the same way in both states. -/
theorem exec (h : AlikeExcept a s t) (hh : Hidden s a) (i : Instr) : AnswersAlikeExcept a (Machine.exec i s) (Machine.exec i t) := by
  have ho := hh.toOffTables
  cases i with
  | mov rd rs => exact .next (h.writeDest rd (h.get rs))
  | immB rd k => exact .next (h.writeDest rd rfl)
  | immW rd k => exact .next (h.writeDest rd rfl)
  | clr rd => exact .next (h.writeDest rd rfl)
  | lodB rd m => exact h.load ho (read := fun s a => (s.readProt a).map ofByte) m rd fun b => by rw [h.readProt hh]
  | lodW rd m => exact h.load ho (read := fun s a => (s.readProt16 a).map ofHalf) m rd fun b => by rw [h.readProt16 hh]
  | stoB m rs =>
    refine h.store (write := fun s a => s.store8 a ((s.get rs).extractLsb' 0 8)) m fun b => ?_
    rw [h.get]; exact h.store8 ho b _
  | stoW m rs =>
    refine h.store (write := fun s a => s.store16 a (s.offOf rs)) m fun b => ?_
    rw [h.offOf]; exact h.store16 ho b _
  | not rd | sl4 rd | sr4 rd => exact .next (h.alu1 _ rd)
  | addiB rd k | subiB rd k | andiB rd k | shliB rd k | shriB rd k => exact .next (h.aluImm _ rd _)
  | addiW rd k | subiW rd k | andiW rd k => exact .next (h.aluImm _ rd _)
  | add rd rs | sub rd rs | and rd rs | orr rd rs | xor rd rs | shl rd rs | shr rd rs => exact .next (h.alu2 _ rd rs)
  | sez | clz | inz => exact .next (h.set .fl (by rw [h.get]))
  | rsvSext | rsvBtst | rsvBset | rsvCmpeq | rsvCmplt | rsvCmpgt | rsvPush | rsvPull => exact .next h
  | rsvJmp | rsvJz | rsvJnz | rsvCall | rsvRet | rsvSwi | rsvRti | rsvJmpf => exact .next h

/-- The bytes that may be fetched are the same in both states. -/
theorem codeBytes (h : AlikeExcept a s t) (hh : Hidden s a) {n : Nat} (hf : s.MayFetch n) : t.codeBytes n = s.codeBytes n := by
  refine List.map_congr_left fun j hj => ?_
  rw [h.codeAddr]
  exact h.memRead_of_exec hh (hf j (List.mem_range.1 hj))

theorem mayFetch (h : AlikeExcept a s t) (hh : Hidden s a) {n : Nat} (hf : s.MayFetch n) : t.MayFetch n := fun j hj => by
  rw [h.perm hh.toOffTables, h.codeAddr]; exact hf j hj

/-- THE STEP LEMMA: a step goes the same way in both states. -/
theorem step (h : AlikeExcept a s t) (hh : Hidden s a) : AnswersAlikeExcept a (Machine.step s) (Machine.step t) := by
  rcases Decoder.fetchFrom_cases decoder s with ⟨n, d, hf, hd, hs⟩ | ⟨n, hf, hd, hp, hs⟩
  · have ht : t.fetchInstr = .got d (t.afterBytes n) :=
      Decoder.fetchFrom_of_feed (h.mayFetch hh hf) ((h.codeBytes hh hf).symm ▸ hd)
    simp only [Machine.step, State.fetchInstr] at hs ht ⊢
    cases d with
    | instr i =>
      simp only [hs, ht]
      exact (h.afterBytes n).exec (hh.afterBytes n) i
    | undefinedOpcode op =>
      simp only [hs, ht]
      exact .next (h.afterBytes n)
    | reject e =>
      simp only [hs, ht]
      exact .refused _
  · have ht : t.fetchInstr = .denied (t.codeAddr (BitVec.ofNat 16 n)) (t.afterBytes n) :=
      Decoder.fetchFrom_of_denied (h.mayFetch hh hf) ((h.codeBytes hh hf).symm ▸ hd) (by rw [h.codeAddr, h.perm hh.toOffTables, hp])
    rw [h.codeAddr] at ht
    simp only [Machine.step, State.fetchInstr] at hs ht ⊢
    simp only [hs, ht]
    exact .next ((h.afterBytes n).pageAV (hh.afterBytes n).toOffTables _)

end AlikeExcept

theorem AnswersAlikeExcept.of_next {a : Addr} {s : State} {o : Outcome} (h : AnswersAlikeExcept a (.next s) o) :
    ∃ t, o = .next t ∧ AlikeExcept a s t := by
  cases h with
  | next h => exact ⟨_, rfl, h⟩

theorem AnswersAlikeExcept.of_refused {a : Addr} {e : Refusal} {o : Outcome} (h : AnswersAlikeExcept a (.refused e) o) : o = .refused e := by
  cases h; rfl

end Sys2Proof.Machine
end

section
/-! CERTIFICATE. The noninterference of a hidden byte (20_memory.md section 5). -/

namespace Sys2Proof.Machine

/-- Settles O52: every read the machine makes is checked, or is of the page table or the EXCEPT entry. -/
theorem unreadableByteDoesNotLeak : Obligations.UnreadableByteDoesNotLeak := by
  intro s s' a hc hc' hregs hdev hreads _ hr hx hpte hentry
  have h : AlikeExcept a s s' := ⟨hc, hc', hregs, hdev, hreads⟩
  have hh : Hidden s a := ⟨⟨hpte, hentry⟩, hr, hx⟩
  refine ⟨fun t ht => ?_, fun r hr => AnswersAlikeExcept.of_refused (hr ▸ h.step hh)⟩
  obtain ⟨t', ht', halike⟩ := AnswersAlikeExcept.of_next (ht ▸ h.step hh)
  exact ⟨t', ht', halike.regs, halike.devices, halike.reads⟩

end Sys2Proof.Machine
end

section
/-! SUPPORT. The instructions that make no data access, and what each of them answers. -/

namespace Sys2Proof.Machine

/-- The loads and the stores: the instructions that access memory after their fetches (20_memory.md R43). -/
def accessesMemory : Instr → Bool
  | .lodB _ _ | .lodW _ _ | .stoB _ _ | .stoW _ _ => true
  | _ => false

/-- A computation on FL that keeps every bit but Z (45_register_utility_flags.md R168 to R170). -/
def KeepsOtherFlags (f : SlotVal → SlotVal) : Prop := ∀ fl n, n ≠ 0 → (f fl).getLsbD n = fl.getLsbD n

theorem setZ_keepsOtherFlags : KeepsOtherFlags setZ := fun fl n hn => by
  simp [setZ, getLsbD_zMask, hn]

theorem toggleZ_keepsOtherFlags : KeepsOtherFlags toggleZ := fun fl n hn => by
  simp [toggleZ, getLsbD_zMask, hn]

theorem clearZ_keepsOtherFlags : KeepsOtherFlags clearZ := fun fl n hn => by
  rw [clearZ, BitVec.getLsbD_and, BitVec.getLsbD_not, getLsbD_zMask]
  rcases Nat.lt_or_ge n 20 with h | h
  · simp [hn, h]
  · simp [BitVec.getLsbD_of_ge fl n h]

/-- Without a data access an instruction always completes, in one of three ways: it writes its destination, it computes Z, or it does nothing. -/
theorem exec_of_no_access {i : Instr} (hi : accessesMemory i = false) (s : State) :
    (∃ rd v, destOf i = some rd ∧ exec i s = .next (s.writeDest rd v)) ∨
    (∃ f, (i = .sez ∨ i = .clz ∨ i = .inz) ∧ KeepsOtherFlags f ∧ exec i s = .next (s.updateFl f)) ∨
    exec i s = .next s := by
  cases i with
  | lodB | lodW | stoB | stoW => cases hi
  | sez => exact .inr (.inl ⟨setZ, .inl rfl, setZ_keepsOtherFlags, rfl⟩)
  | clz => exact .inr (.inl ⟨clearZ, .inr (.inl rfl), clearZ_keepsOtherFlags, rfl⟩)
  | inz => exact .inr (.inl ⟨toggleZ, .inr (.inr rfl), toggleZ_keepsOtherFlags, rfl⟩)
  | rsvSext | rsvBtst | rsvBset | rsvCmpeq | rsvCmplt | rsvCmpgt | rsvPush | rsvPull => exact .inr (.inr rfl)
  | rsvJmp | rsvJz | rsvJnz | rsvCall | rsvRet | rsvSwi | rsvRti | rsvJmpf => exact .inr (.inr rfl)
  | _ => exact .inl ⟨_, _, rfl, rfl⟩

/-- The state and the chips behind the port, as `s` and `t` hold them, are the same. -/
structure SameBehindPort (s t : State) : Prop where
  mem : t.mem = s.mem
  devices : t.devices = s.devices

theorem SameBehindPort.of_pageAV (s : State) (a : Addr) : SameBehindPort s (s.pageAV a) := ⟨(s.pageAV_frame a).mem, (s.pageAV_frame a).devices⟩

theorem SameBehindPort.of_writeDest (s : State) (rd : Slot) (v : SlotVal) : SameBehindPort s (s.writeDest rd v) :=
  ⟨s.writeDest_mem rd v, s.writeDest_devices rd v⟩

theorem SameBehindPort.of_afterBytes (s : State) (n : Nat) : SameBehindPort s (s.afterBytes n) := ⟨s.afterBytes_mem n, s.afterBytes_devices n⟩

theorem SameBehindPort.trans {s t u : State} (h : SameBehindPort s t) (k : SameBehindPort t u) : SameBehindPort s u :=
  ⟨k.mem.trans h.mem, k.devices.trans h.devices⟩

/-- The same write in both states. -/
theorem SameBehindPort.memWrite {s t : State} (h : SameBehindPort s t) (a : Addr) (v : Byte) : SameBehindPort (s.memWrite a v) (t.memWrite a v) := by
  rcases hr : Config.region (key a) with _ | _ | _ | _
  · rw [State.memWrite_of_ram hr, State.memWrite_of_ram hr]
    exact ⟨by simp only [h.mem], h.devices⟩
  · rw [State.memWrite_of_audio hr, State.memWrite_of_audio hr]
    exact ⟨h.mem, by rw [State.forward_devices, State.forward_devices, h.devices]⟩
  · rw [State.memWrite_of_timer hr, State.memWrite_of_timer hr]
    exact ⟨h.mem, by rw [State.forward_devices, State.forward_devices, h.devices]⟩
  · rw [State.memWrite_of_unmapped hr, State.memWrite_of_unmapped hr]
    exact h

/-- Without a data access nothing behind the port changes. -/
theorem sameBehindPort_of_no_access {i : Instr} (hi : accessesMemory i = false) {s t : State} (h : exec i s = .next t) : SameBehindPort s t := by
  rcases exec_of_no_access hi s with ⟨rd, v, _, he⟩ | ⟨f, _, _, he⟩ | he <;> rw [he] at h <;> cases h
  · exact .of_writeDest s rd v
  · exact ⟨rfl, rfl⟩
  · exact ⟨rfl, rfl⟩

/-- Loads change nothing behind the port, whether they complete or not. -/
theorem sameBehindPort_of_load {i : Instr} {rd : Slot} {m : MemOperand} (hi : i = .lodB rd m ∨ i = .lodW rd m) {s t : State}
    (h : exec i s = .next t) : SameBehindPort s t := by
  rcases hi with rfl | rfl
  · obtain ⟨a, _, ⟨_, rfl⟩ | ⟨_, rfl⟩⟩ := execLodB_next h
    · exact .of_writeDest s rd _
    · exact .of_pageAV s a
  · obtain ⟨a, _, ⟨_, _, rfl⟩ | ⟨_, rfl⟩ | ⟨_, _, rfl⟩⟩ := execLodW_next h
    · exact .of_writeDest s rd _
    · exact .of_pageAV s a
    · exact .of_pageAV s _

end Sys2Proof.Machine
end

section
/-! SUPPORT. The accesses on the memory port: how many, which of them write, and what they do to the memory behind it (20_memory.md R60, R65). -/

namespace Sys2Proof.Machine

/-! ### Lists of reads -/

/-- At most `n` accesses, all of them reads. -/
structure ReadsAtMost (n : Nat) (l : List PortAccess) : Prop where
  length : l.length ≤ n
  reads : ∀ p ∈ l, ∃ a, p = .read a

theorem ReadsAtMost.nil (n : Nat) : ReadsAtMost n [] := ⟨Nat.zero_le n, by simp⟩

theorem ReadsAtMost.cons {n : Nat} {l : List PortAccess} (a : Addr) (h : ReadsAtMost n l) : ReadsAtMost (n + 1) (.read a :: l) where
  length := Nat.succ_le_succ h.length
  reads p hp := by
    rcases List.mem_cons.1 hp with rfl | hp
    · exact ⟨a, rfl⟩
    · exact h.reads p hp

theorem ReadsAtMost.append {n k : Nat} {l r : List PortAccess} (h : ReadsAtMost n l) (h' : ReadsAtMost k r) : ReadsAtMost (n + k) (l ++ r) where
  length := by rw [List.length_append]; exact Nat.add_le_add h.length h'.length
  reads p hp := (List.mem_append.1 hp).elim (h.reads p) (h'.reads p)

theorem ReadsAtMost.mono {n k : Nat} {l : List PortAccess} (h : ReadsAtMost n l) (hk : n ≤ k) : ReadsAtMost k l :=
  ⟨h.length.trans hk, h.reads⟩

/-- Reads do nothing to the state behind the port (20_memory.md R45). -/
theorem ReadsAtMost.replay {n : Nat} {l : List PortAccess} (h : ReadsAtMost n l) (s : State) : l.foldl State.replay s = s := by
  have hr := h.reads
  clear h
  induction l with
  | nil => rfl
  | cons p l ih =>
    obtain ⟨a, rfl⟩ := hr p List.mem_cons_self
    exact ih fun q hq => hr q (List.mem_cons_of_mem _ hq)

theorem ReadsAtMost.writeCount {n : Nat} {l : List PortAccess} (h : ReadsAtMost n l) : writeCount l = 0 := by
  rw [Machine.writeCount, List.length_eq_zero_iff, List.filter_eq_nil_iff]
  intro p hp
  obtain ⟨a, rfl⟩ := h.reads p hp
  exact Bool.false_ne_true

theorem writeCount_append (l r : List PortAccess) : writeCount (l ++ r) = writeCount l + writeCount r := by
  simp only [writeCount, List.filter_append, List.length_append]

/-! ### The reads of a check and of a trap -/

theorem State.checkTrace_reads (s : State) (a : Addr) : ReadsAtMost 1 (s.checkTrace a) := by
  unfold State.checkTrace
  split
  · exact (ReadsAtMost.nil 0).cons _
  · exact .nil 1

theorem State.entryTrace_reads (s : State) (kind : Kind) : ReadsAtMost 3 (s.entryTrace kind) :=
  (((ReadsAtMost.nil 0).cons _).cons _).cons _

theorem State.roundTrace_reads {fallback : State → List PortAccess} {n : Nat} (hf : ∀ s, ReadsAtMost n (fallback s)) (kind : Kind) (s : State) :
    ReadsAtMost (3 + n) (State.roundTrace fallback kind s) := by
  unfold State.roundTrace
  split
  · refine (State.entryTrace_reads _ kind).append ?_
    split
    · exact hf _
    · exact .nil n
  · exact .nil _

/-- A trigger reads two entries at most, and that of the EXCEPT kind one (60_exceptions.md R211). -/
theorem State.triggerTrace_reads (kind : Kind) (s : State) : ReadsAtMost 6 (State.triggerTrace kind s) := by
  refine State.roundTrace_reads (n := 3) (fun u => ?_) kind s
  split
  · exact .nil 3
  · exact State.roundTrace_reads (n := 0) (fun _ => .nil 0) _ u

theorem State.pageAVTrace_reads (s : State) (a : Addr) : ReadsAtMost 3 (s.pageAVTrace a) :=
  State.roundTrace_reads (n := 0) (fun _ => .nil 0) _ _

/-- A denied access: the entry read, then the violation's reads. -/
theorem State.checkedTrace_denied {s : State} {a : Addr} {need : Access} (h : s.perm a need = false) (granted : List PortAccess) :
    ReadsAtMost 4 (s.checkedTrace a need granted) := by
  rw [State.checkedTrace, if_neg (ne_true_of_eq_false h)]
  exact (s.checkTrace_reads a).append (s.pageAVTrace_reads a)

theorem State.checkedTrace_granted {s : State} {a : Addr} {need : Access} (h : s.perm a need = true) (granted : List PortAccess) :
    s.checkedTrace a need granted = s.checkTrace a ++ granted := by
  rw [State.checkedTrace, if_pos h]

theorem State.checkedTrace_reads {n : Nat} (s : State) (a : Addr) (need : Access) {granted : List PortAccess} (h : ReadsAtMost (n + 3) granted) :
    ReadsAtMost (n + 4) (s.checkedTrace a need granted) := by
  rcases hp : s.perm a need with _ | _
  · exact (State.checkedTrace_denied hp granted).mono (Nat.le_add_left 4 n)
  · rw [State.checkedTrace_granted hp]
    exact ((s.checkTrace_reads a).append h).mono (by omega)

/-! ### The fetches -/

/-- Two reads for each byte fetched; a denied fetch is followed by the violation's reads. -/
theorem Decoder.fetchTrace_reads {n : Nat} {d : Decoder} (hn : d.AsksAtMost n) (s : State) :
    (∃ r t, Decoder.fetchFrom d s = .got r t ∧ ReadsAtMost (2 * n) (Decoder.fetchTrace d s)) ∨
    (∃ bad t, Decoder.fetchFrom d s = .denied bad t ∧ ReadsAtMost (2 * n + 2) (Decoder.fetchTrace d s)) := by
  induction d generalizing n s with
  | done r => exact .inl ⟨r, s, rfl, .nil _⟩
  | next k ih =>
    obtain _ | n := n
    · exact hn.elim
    rcases hp : s.perm (s.codeAddr 0) .exec with _ | _
    · refine .inr ⟨s.codeAddr 0, s, ?_, (State.checkedTrace_denied hp _).mono (by omega)⟩
      simp only [Decoder.fetchFrom, State.fetch_error hp]
    · have hfetch : Decoder.fetchFrom (.next k) s = Decoder.fetchFrom (k (s.memRead (s.codeAddr 0))) (s.advance 1) := by
        simp only [Decoder.fetchFrom, State.fetch_ok hp]
      rw [hfetch, Decoder.fetchTrace, State.checkedTrace_granted hp]
      rcases ih _ (hn _) (s.advance 1) with ⟨r, t, ht, htrace⟩ | ⟨bad, t, ht, htrace⟩
      · exact .inl ⟨r, t, ht, ((s.checkTrace_reads _).append (htrace.cons _)).mono (by omega)⟩
      · exact .inr ⟨bad, t, ht, ((s.checkTrace_reads _).append (htrace.cons _)).mono (by omega)⟩

/-! ### The data accesses -/

theorem State.dataTrace_of_no_access {i : Instr} (hi : accessesMemory i = false) (s : State) : s.dataTrace i = [] := by
  cases i with
  | lodB | lodW | stoB | stoW => cases hi
  | _ => rfl

/-- A load reads its one or two bytes, each after its entry. -/
theorem State.dataTrace_load {i : Instr} {rd : Slot} {m : MemOperand} (hi : i = .lodB rd m ∨ i = .lodW rd m) (s : State) :
    ReadsAtMost 6 (s.dataTrace i) := by
  have hbyte (a : Addr) : ReadsAtMost 4 (s.readTrace a) := s.checkedTrace_reads a .read (n := 0) (((ReadsAtMost.nil 0).cons a).mono (by omega))
  rcases hr : s.resolve m with r | a
  · rcases hi with rfl | rfl <;> simp only [State.dataTrace, hr, dataTraceAt] <;> exact .nil 6
  · rcases hi with rfl | rfl <;> simp only [State.dataTrace, hr, dataTraceAt]
    · exact (hbyte a).mono (by omega)
    · exact s.checkedTrace_reads a .read (n := 2) ((hbyte _).cons a)

/-- A trace of at most `n` accesses, `k` of them writes. -/
structure TraceAtMost (n k : Nat) (l : List PortAccess) : Prop where
  length : l.length ≤ n
  writes : writeCount l ≤ k

theorem ReadsAtMost.traceAtMost {n : Nat} {l : List PortAccess} (h : ReadsAtMost n l) (k : Nat) : TraceAtMost n k l :=
  ⟨h.length, by rw [h.writeCount]; exact Nat.zero_le k⟩

theorem TraceAtMost.append {n k n' k' : Nat} {l r : List PortAccess} (h : TraceAtMost n k l) (h' : TraceAtMost n' k' r) :
    TraceAtMost (n + n') (k + k') (l ++ r) where
  length := by rw [List.length_append]; exact Nat.add_le_add h.length h'.length
  writes := by rw [writeCount_append]; exact Nat.add_le_add h.writes h'.writes

theorem TraceAtMost.mono {n k n' k' : Nat} {l : List PortAccess} (h : TraceAtMost n k l) (hn : n ≤ n') (hk : k ≤ k') : TraceAtMost n' k' l :=
  ⟨h.length.trans hn, h.writes.trans hk⟩

theorem traceAtMost_write (a : Addr) (v : Byte) : TraceAtMost 1 1 [.write a v] := ⟨le_rfl, le_rfl⟩

/-- One checked access that is followed by at most `n + 3` others when it is granted. -/
theorem State.checkedTrace_atMost {n k : Nat} (s : State) (a : Addr) (need : Access) {granted : List PortAccess}
    (h : TraceAtMost (n + 3) k granted) : TraceAtMost (n + 4) k (s.checkedTrace a need granted) := by
  rcases hp : s.perm a need with _ | _
  · exact ((State.checkedTrace_denied hp granted).mono (Nat.le_add_left 4 n)).traceAtMost k
  · rw [State.checkedTrace_granted hp]
    exact (((s.checkTrace_reads a).traceAtMost 0).append h).mono (by omega) (by omega)

theorem State.writeTrace_atMost (s : State) (a : Addr) (v : Byte) : TraceAtMost 4 1 (s.writeTrace a v) :=
  s.checkedTrace_atMost a .write (n := 0) ((traceAtMost_write a v).mono (by omega) le_rfl)

/-- At most six data accesses, two of them writes. -/
theorem State.dataTrace_atMost (s : State) (i : Instr) : TraceAtMost 6 2 (s.dataTrace i) := by
  cases i with
  | lodB rd m => exact (s.dataTrace_load (.inl rfl)).traceAtMost 2
  | lodW rd m => exact (s.dataTrace_load (.inr rfl)).traceAtMost 2
  | stoB m rs =>
    rcases hr : s.beforeRsByte.resolve m with r | a <;> simp only [State.dataTrace, hr, dataTraceAt]
    · exact (ReadsAtMost.nil 6).traceAtMost 2
    · exact (s.writeTrace_atMost a _).mono (by omega) (by omega)
  | stoW m rs =>
    rcases hr : s.beforeRsByte.resolve m with r | a <;> simp only [State.dataTrace, hr, dataTraceAt]
    · exact (ReadsAtMost.nil 6).traceAtMost 2
    · exact s.checkedTrace_atMost a .write (n := 2) ((traceAtMost_write a _).append (State.writeTrace_atMost _ _ _))
  | _ => rw [State.dataTrace_of_no_access rfl]; exact (ReadsAtMost.nil 6).traceAtMost 2

/-! ### Replaying the data accesses -/

/-- Replaying a store's one byte does what the raw write does, if it is permitted. -/
theorem State.writeTrace_replay (s : State) (a : Addr) (v : Byte) (u : State) :
    (s.writeTrace a v).foldl State.replay u = if s.perm a .write then u.memWrite a v else u := by
  unfold State.writeTrace
  rcases hp : s.perm a .write with _ | _
  · rw [(State.checkedTrace_denied hp _).replay, if_neg Bool.false_ne_true]
  · rw [State.checkedTrace_granted hp, List.foldl_append, (s.checkTrace_reads a).replay, List.foldl_cons, List.foldl_nil, State.replay, if_pos rfl]

/-- Replaying the data accesses of an instruction leaves behind the port what the instruction leaves. -/
theorem dataTrace_replay {i : Instr} {s t : State} (h : exec i s = .next t) : SameBehindPort ((s.dataTrace i).foldl State.replay s) t := by
  cases i with
  | lodB rd m => rw [(s.dataTrace_load (.inl rfl)).replay]; exact sameBehindPort_of_load (.inl rfl) h
  | lodW rd m => rw [(s.dataTrace_load (.inr rfl)).replay]; exact sameBehindPort_of_load (.inr rfl) h
  | stoB m rs =>
    obtain ⟨a, hr, hcase⟩ := execStoB_next h
    simp only [State.dataTrace, hr, dataTraceAt, State.writeTrace_replay]
    rcases hcase with ⟨hp, rfl⟩ | ⟨hp, rfl⟩ <;> simp only [hp, if_true, Bool.false_eq_true, if_false]
    · exact ⟨rfl, rfl⟩
    · exact .of_pageAV s a
  | stoW m rs =>
    obtain ⟨a, lo, hi, hr, rfl, rfl, hcase⟩ := execStoW_next h
    simp only [State.dataTrace, hr, dataTraceAt]
    rcases hcase with ⟨hp, hq, rfl⟩ | ⟨hp, rfl⟩ | ⟨hp, hq, rfl⟩
    · rw [State.checkedTrace_granted hp, List.foldl_append, (s.checkTrace_reads a).replay, List.foldl_cons, State.writeTrace_replay, if_pos hq]
      exact ⟨rfl, rfl⟩
    · rw [(State.checkedTrace_denied hp _).replay]
      exact .of_pageAV s a
    · rw [State.checkedTrace_granted hp, List.foldl_append, (s.checkTrace_reads a).replay, List.foldl_cons, State.writeTrace_replay,
        if_neg (ne_true_of_eq_false hq)]
      exact .of_pageAV _ _
  | _ => rw [State.dataTrace_of_no_access rfl]; exact sameBehindPort_of_no_access rfl h

/-- Replaying does not look at the slots. -/
theorem SameBehindPort.replay {s t : State} (h : SameBehindPort s t) (l : List PortAccess) :
    SameBehindPort (l.foldl State.replay s) (l.foldl State.replay t) := by
  induction l generalizing s t with
  | nil => exact h
  | cons p l ih =>
    cases p with
    | read a => exact ih h
    | write a v => exact ih (h.memWrite a v)

/-- The two parts of a step's trace: the fetches, which only read, and, when they end in an instruction, its data accesses. -/
theorem State.stepTrace_cases (s : State) :
    (∃ i u, s.fetchInstr = .got (.instr i) u ∧ ∃ fetches, ReadsAtMost 10 fetches ∧ s.stepTrace = fetches ++ u.dataTrace i) ∨
    ((∀ i u, s.fetchInstr ≠ .got (.instr i) u) ∧ ReadsAtMost 12 s.stepTrace) := by
  rcases Decoder.fetchTrace_reads asksAtMost_decoder s with ⟨r, u, hu, htrace⟩ | ⟨bad, u, hu, htrace⟩
  all_goals change s.fetchInstr = _ at hu
  · cases r with
    | instr i => exact .inl ⟨i, u, hu, _, htrace, by simp only [State.stepTrace, hu]⟩
    | undefinedOpcode op =>
      refine .inr ⟨fun i v => by simp [hu], ?_⟩
      simp only [State.stepTrace, hu, List.append_nil]; exact htrace.mono (by omega)
    | reject e =>
      refine .inr ⟨fun i v => by simp [hu], ?_⟩
      simp only [State.stepTrace, hu, List.append_nil]; exact htrace.mono (by omega)
  · refine .inr ⟨fun i v => by simp [hu], ?_⟩
    simp only [State.stepTrace, hu, List.append_nil]; exact htrace

end Sys2Proof.Machine
end

section
/-! CERTIFICATE. The statements about the accesses on the port (20_memory.md section 7). -/

namespace Sys2Proof.Machine

/-- Settles O53: the fetches only read, and the data accesses write what the instruction writes. -/
theorem stepTraceReplaysToTheState : Obligations.StepTraceReplaysToTheState := by
  intro s t h
  suffices hsame : SameBehindPort (s.stepTrace.foldl State.replay s) t from ⟨hsame.mem.symm, hsame.devices.symm⟩
  rcases s.stepTrace_cases with ⟨i, u, hu, fetches, hf, htrace⟩ | ⟨hnone, htrace⟩
  · rw [htrace, List.foldl_append, hf.replay]
    rw [step, hu] at h
    have hfetched : SameBehindPort s u := by
      rcases Decoder.fetchFrom_cases decoder s with ⟨n, r, _, _, hn⟩ | ⟨n, _, _, _, hn⟩
      · cases hu.symm.trans hn; exact .of_afterBytes s n
      · cases hu.symm.trans hn
    exact (hfetched.replay _).trans (dataTrace_replay h)
  · rw [htrace.replay]
    rcases step_cases s with ⟨n, i, hf, hd, _⟩ | ⟨n, op, _, _, he⟩ | ⟨n, r, _, _, he⟩ | ⟨n, _, _, _, he⟩
    · exact absurd (Decoder.fetchFrom_of_feed hf hd) (hnone i _)
    · rw [he] at h; cases h; exact .of_afterBytes s n
    · rw [he] at h; cases h
    · rw [he] at h; cases h; exact (SameBehindPort.of_afterBytes s n).trans (.of_pageAV _ _)

/-- Settles O54: five bytes fetched with two accesses each, then six data accesses. -/
theorem stepTraceIsBounded : Obligations.StepTraceIsBounded := by
  refine ⟨fun s => ?_, fun kind s => (s.triggerTrace_reads kind).length⟩
  suffices h : TraceAtMost 16 2 s.stepTrace from ⟨h.length, h.writes⟩
  rcases s.stepTrace_cases with ⟨i, u, _, fetches, hf, htrace⟩ | ⟨_, htrace⟩
  · rw [htrace]
    exact (hf.traceAtMost 0).append (u.dataTrace_atMost i)
  · exact (htrace.mono (by omega)).traceAtMost 2

/-- The entry of a page is where it was after a fetch. -/
theorem State.pteAddr_advance (s : State) (n : Half) (a : Addr) : (s.advance n).pteAddr a = s.pteAddr a := by
  simp only [State.pteAddr, State.bankOf, State.offOf, State.get_advance_ne (s := s) (n := n) (j := .mmub) (by decide),
    State.get_advance_ne (s := s) (n := n) (j := .mmup) (by decide)]

/-- The accesses of the fetch of the byte at `a`, once it is permitted. -/
def State.fetchAccesses (s : State) (a : Addr) : List PortAccess :=
  if s.get .mmue = 0 then [.read a] else [.read (s.pteAddr a), .read a]

theorem State.checkTrace_append_read (s : State) (a : Addr) (l : List PortAccess) :
    s.checkTrace a ++ .read a :: l = s.fetchAccesses a ++ l := by
  unfold State.checkTrace State.fetchAccesses State.flagOf
  by_cases h : s.get .mmue = 0
  · rw [if_neg (by rw [h]; decide), if_pos h]; rfl
  · rw [if_pos ((flag_eq_true_iff _).2 h), if_neg h]; rfl

/-- What a decoder fetches when it is done with exactly the `n` bytes at PC. -/
theorem Decoder.fetchTrace_of_feed {d : Decoder} {s : State} {n : Nat} {r : Decoded} (hf : s.MayFetch n)
    (hd : d.feed (s.codeBytes n) = some (r, [])) :
    Decoder.fetchTrace d s = (List.range n).flatMap fun j => s.fetchAccesses (s.codeAddr (BitVec.ofNat 16 j)) := by
  induction d generalizing s n with
  | done d =>
    simp only [Decoder.feed, Option.some.injEq, Prod.mk.injEq] at hd
    obtain rfl : n = 0 := by rw [← State.codeBytes_length s n, hd.2]; rfl
    rfl
  | next k ih =>
    cases n with
    | zero => simp [State.codeBytes, Decoder.feed] at hd
    | succ n =>
      obtain ⟨h0, h1⟩ := State.mayFetch_succ.1 hf
      rw [State.codeBytes_succ, Decoder.feed] at hd
      have hlater (a : Addr) : (s.advance 1).fetchAccesses a = s.fetchAccesses a := by
        simp only [State.fetchAccesses, State.pteAddr_advance, State.get_advance_ne (s := s) (n := 1) (j := .mmue) (by decide)]
      rw [Decoder.fetchTrace, State.checkedTrace_granted h0, ih _ h1 hd, State.checkTrace_append_read, List.range_succ_eq_map,
        List.flatMap_cons, List.flatMap_map]
      simp only [hlater, State.codeAddr_advance_one]
      rfl

/-- Settles O55: each fetch is its check and its read, at the next address. -/
theorem fetchesGoOutInAddressOrder : Obligations.FetchesGoOutInAddressOrder := fun _ _ _ hf hd => Decoder.fetchTrace_of_feed hf hd

end Sys2Proof.Machine
end

section
/-! SUPPORT. One step from the bytes at PC. -/

namespace Sys2Proof.Machine

/-- A step whose bytes may be fetched runs the instruction they decode to. -/
theorem step_of_decode {s : State} {n : Nat} {i : Instr} (hf : s.MayFetch n) (hd : decode (s.codeBytes n) = some (.instr i, [])) :
    step s = exec i (s.afterBytes n) := by
  have hfetch : s.fetchInstr = .got (.instr i) (s.afterBytes n) := Decoder.fetchFrom_of_feed hf hd
  simp only [step, hfetch]

/-- No instruction has no bytes. -/
theorem afterBytes_of_decode {s : State} {n : Nat} {d : Decoded} (hd : decode (s.codeBytes n) = some (d, [])) :
    s.afterBytes n = s.advance (BitVec.ofNat 16 n) := by
  cases n with
  | zero => cases hd
  | succ n => rfl

theorem afterBytes_eq_ite (s : State) (n : Nat) : s.afterBytes n = if n = 0 then s else s.advance (BitVec.ofNat 16 n) := by
  cases n with
  | zero => rfl
  | succ n => rfl

/-- An opcode byte from 0x1D on is the whole of a reserved instruction, or of an undefined one. -/
theorem decode_reserved_or_undefined {op : Byte} (h : 0x1D ≤ op.toNat) :
    (∃ i ∈ reservedInstrs, decode [op] = some (.instr i, [])) ∨ decode [op] = some (.undefinedOpcode op, []) := by
  rcases Nat.lt_or_ge op.toNat 0x2D with hlt | hge
  · left
    interval_cases e : op.toNat
    all_goals
      obtain rfl := eq_ofNat_of_toNat e
      exact ⟨_, by decide, decode_N rfl []⟩
  · right
    rw [decode_cons, shapeOf_eq_none.2 hge]

theorem exec_reserved {i : Instr} (hi : i ∈ reservedInstrs) (s : State) : exec i s = .next s := by
  simp only [reservedInstrs, List.cons_append, List.nil_append, List.mem_cons, List.not_mem_nil, or_false] at hi
  rcases hi with rfl | rfl | rfl | rfl | rfl | rfl | rfl | rfl | rfl | rfl | rfl | rfl | rfl | rfl | rfl | rfl <;> rfl

/-- The value PC moves on to. -/
theorem toNat_get_pc_advance (s : State) (n : Half) : ((s.advance n).get .pc).toNat = (low16 s .pc + n.toNat) % 65536 := by
  rw [State.get_advance, if_pos rfl, toNat_ofHalf, BitVec.toNat_add, State.offOf, toNat_off]
  rfl

/-- A value of sixteen bits is its offset view, zero-extended. -/
theorem ofHalf_off {v : SlotVal} (h : v.toNat < 65536) : ofHalf (off v) = v := by
  apply BitVec.eq_of_toNat_eq
  rw [toNat_ofHalf, toNat_off, Nat.mod_eq_of_lt h]

end Sys2Proof.Machine
end

section
/-! SUPPORT. Loads and stores with the address their operand gives: what they answer, access by access. -/

namespace Sys2Proof.Machine

variable {s : State} {m : MemOperand} {a : Addr}

theorem exec_lodB_of_perm (hr : s.resolve m = .ok a) (hp : s.perm a .read = true) (rd : Slot) :
    exec (.lodB rd m) s = .next (s.writeDest rd (ofByte (s.memRead a))) := by
  simp only [exec, execLodB, State.load, hr, State.readProt_ok hp]; rfl

theorem exec_lodB_of_denied (hr : s.resolve m = .ok a) (hp : s.perm a .read = false) (rd : Slot) :
    exec (.lodB rd m) s = .next (s.pageAV a) := by
  simp only [exec, execLodB, State.load, hr, State.readProt_error hp]; rfl

theorem exec_lodW_of_ok (hr : s.resolve m = .ok a) {w : Half} (hw : s.readProt16 a = .ok w) (rd : Slot) :
    exec (.lodW rd m) s = .next (s.writeDest rd (ofHalf w)) := by
  simp only [exec, execLodW, State.load, hr, hw]; rfl

theorem exec_lodW_of_error (hr : s.resolve m = .ok a) {bad : Addr} (hw : s.readProt16 a = .error bad) (rd : Slot) :
    exec (.lodW rd m) s = .next (s.pageAV bad) := by
  simp only [exec, execLodW, State.load, hr, hw]; rfl

theorem exec_stoB (hr : s.beforeRsByte.resolve m = .ok a) (rs : Slot) :
    exec (.stoB m rs) s = .next (s.store8 a ((s.get rs).extractLsb' 0 8)) := by
  simp only [exec, execStoB, State.store, hr]

theorem exec_stoW (hr : s.beforeRsByte.resolve m = .ok a) (rs : Slot) : exec (.stoW m rs) s = .next (s.store16 a (s.offOf rs)) := by
  simp only [exec, execStoW, State.store, hr]

/-! ### The stored bytes as numbers -/

theorem toNat_low_byte (v : SlotVal) : (v.extractLsb' 0 8).toNat = v.toNat % 256 := by simp

theorem toNat_low_byte_of_half (v : SlotVal) : ((off v).extractLsb' 0 8).toNat = v.toNat % 256 := by
  rw [BitVec.extractLsb'_toNat, toNat_off, Nat.shiftRight_zero]
  omega

theorem toNat_high_byte_of_half (v : SlotVal) : ((off v).extractLsb' 8 8).toNat = v.toNat / 256 % 256 := by
  rw [BitVec.extractLsb'_toNat, toNat_off, Nat.shiftRight_eq_div_pow]
  omega

/-- The low byte a word store writes, told by its value. -/
theorem low_byte_eq {rs : Slot} {lo : Byte} (h : lo.toNat = (s.get rs).toNat % 256) : (s.offOf rs).extractLsb' 0 8 = lo :=
  BitVec.eq_of_toNat_eq ((toNat_low_byte_of_half _).trans h.symm)

/-- A permitted word store, with its low byte told by its value. -/
theorem exec_stoW_of_perm {rs : Slot} {lo : Byte} (hr : s.beforeRsByte.resolve m = .ok a) (hp : s.perm a .write = true)
    (hlo : lo.toNat = (s.get rs).toNat % 256) (hq : (s.memWrite a lo).perm (addrPlus a 1) .write = true) :
    exec (.stoW m rs) s = .next ((s.memWrite a lo).memWrite (addrPlus a 1) ((s.offOf rs).extractLsb' 8 8)) := by
  obtain rfl := low_byte_eq hlo
  rw [exec_stoW hr, State.store16_of_perm hp hq]

end Sys2Proof.Machine
end

section
/-! CERTIFICATE. The statements about a step (40_step_and_resolver.md section 1, 46_reserved_and_control_transfer.md). -/

namespace Sys2Proof.Machine

/-- Settles O6: fetching decodes the bytes at PC. -/
theorem stepRunsTheDecodedInstruction : Obligations.StepRunsTheDecodedInstruction := by
  intro s n i hf hd
  rw [step_of_decode hf hd, afterBytes_of_decode hd]

/-- Settles O7: a rejection becomes the refusal of the same name. -/
theorem stepRefusesEncodingsWithoutMeaning : Obligations.StepRefusesEncodingsWithoutMeaning := by
  intro s n r hf hd
  have hfetch : s.fetchInstr = .got (.reject r) (s.afterBytes n) := Decoder.fetchFrom_of_feed hf hd
  simp only [step, hfetch]
  cases r <;> rfl

/-- Settles O8: the opcode byte is the whole instruction, and nothing is done after its fetch. -/
theorem reservedAndUndefinedOpcodesAdvanceByOne : Obligations.ReservedAndUndefinedOpcodesAdvanceByOne := by
  intro s hf hop
  have hbytes : s.codeBytes 1 = [s.memRead (s.codeAddr 0)] := rfl
  have hstep : step s = .next (s.advance 1) := by
    rcases decode_reserved_or_undefined hop with ⟨i, hi, hd⟩ | hd <;> rw [← hbytes] at hd
    · rw [step_of_decode hf hd]
      exact exec_reserved hi _
    · have hfetch : s.fetchInstr = .got (.undefinedOpcode _) (s.afterBytes 1) := Decoder.fetchFrom_of_feed hf hd
      simp only [step, hfetch]
      rfl
  exact ⟨_, hstep, toNat_get_pc_advance s 1, fun j hj => State.get_advance_ne hj, rfl, rfl⟩

/-- Settles O9: the destination write takes PC back by the three bytes of the fetch. -/
theorem spinIsAFixedPoint : Obligations.SpinIsAFixedPoint := by
  intro s hf hb hpc
  have hd : decode (s.codeBytes 3) = some (.instr (.subiB .pc 3), []) := by rw [hb]; decide
  rw [step_of_decode hf hd]
  change (.next ((s.advance 3).writeDest .pc (ofHalf ((s.advance 3).offOf .pc - 3))) : Outcome) = _
  rw [State.writeDest_of_unlocked (State.locked_eq_false (by decide) _), State.offOf_pc_advance, BitVec.add_sub_cancel, State.advance,
    State.set_set, State.offOf, ofHalf_off hpc, State.set_get_self]

/-- Settles O10: each access is checked when it is made, in the state the accesses before it left. -/
theorem abandonedInstructionKeepsWhatItDid : Obligations.AbandonedInstructionKeepsWhatItDid := by
  refine ⟨fun s n hf hd hp => ?_, fun s rd m a hr hp => ⟨exec_lodB_of_denied hr hp rd, ?_⟩, fun s rd m a hr hp hq => ?_,
    fun s rs m a hr hp => ⟨?_, ?_⟩, fun s rs m a lo hr hp hlo hq => ?_⟩
  · have hfetch : s.fetchInstr = .denied (s.codeAddr (BitVec.ofNat 16 n)) (s.afterBytes n) := Decoder.fetchFrom_of_denied hf hd hp
    simp only [step, hfetch, afterBytes_eq_ite]
  · exact exec_lodW_of_error hr (State.readProt16_low hp) rd
  · exact exec_lodW_of_error hr (State.readProt16_high hp hq) rd
  · rw [exec_stoB hr, State.store8_of_denied hp]
  · rw [exec_stoW hr, State.store16_of_low_denied hp]
  · obtain rfl := low_byte_eq hlo
    rw [exec_stoW hr, State.store16_of_high_denied hp hq]

end Sys2Proof.Machine
end

section
/-! CERTIFICATE. The statements about the instructions that write a register or the flag (41, 43 to 46). -/

namespace Sys2Proof.Machine

/-- The low 16 bits of a slot are its offset view. -/
theorem low16_eq (s : State) (r : Slot) : low16 s r = (s.offOf r).toNat := (toNat_off _).symm

/-- A destination write has the effect `DestWrite` states. -/
theorem destWrite_writeDest (s : State) (rd : Slot) {v : SlotVal} {n : Nat} (h : v.toNat = n) : DestWrite rd n s (s.writeDest rd v) := by
  refine ⟨fun hl => ?_, fun hl => ?_, fun j hj => State.get_writeDest_ne s v hj, State.memRead_writeDest s rd v, State.writeDest_devices s rd v⟩
  · rw [State.writeDest_of_unlocked hl, State.get_set_self, h]
  · rw [State.writeDest_of_locked hl]

/-- An instruction that answers a destination write runs to its value. -/
theorem runsTo_of_exec {i : Instr} {s : State} {rd : Slot} {v : SlotVal} {n : Nat} (he : exec i s = .next (s.writeDest rd v))
    (h : v.toNat = n) : RunsTo i s rd n :=
  ⟨_, he, destWrite_writeDest s rd h⟩

/-- An instruction that answers a 16-bit result runs to its number. -/
theorem runsTo_of_half {i : Instr} {s : State} {rd : Slot} {v : Half} {n : Nat} (he : exec i s = .next (s.writeDest rd (ofHalf v)))
    (h : v.toNat = n) : RunsTo i s rd n :=
  runsTo_of_exec he ((toNat_ofHalf v).trans h)

/-- Settles O11: the value is written as it stands in the slot. -/
theorem movCopiesTheWholeSlot : Obligations.MovCopiesTheWholeSlot := fun _ _ _ => runsTo_of_exec rfl rfl

/-- Settles O12: zero-extension keeps the number. -/
theorem immediatesReplaceTheWholeSlot : Obligations.ImmediatesReplaceTheWholeSlot := fun _ _ =>
  ⟨fun k => runsTo_of_exec rfl (toNat_ofByte k), fun k => runsTo_of_exec rfl (toNat_ofHalf k)⟩

theorem toNat_sub_half (a b : Half) : (a - b).toNat = (a.toNat + 65536 - b.toNat) % 65536 := by
  rw [BitVec.toNat_sub]
  congr 1
  have := b.isLt
  omega

/-- Settles O13: sums and differences of halves, as numbers. -/
theorem arithmeticWrapsModulo65536 : Obligations.ArithmeticWrapsModulo65536 := by
  intro s rd rs k w
  simp only [low16_eq]
  refine ⟨runsTo_of_half rfl ?_, runsTo_of_half rfl (BitVec.toNat_add _ _), runsTo_of_half rfl (BitVec.toNat_add _ _),
    runsTo_of_half rfl ?_, runsTo_of_half rfl (toNat_sub_half _ _), runsTo_of_half rfl (toNat_sub_half _ _)⟩
  · rw [BitVec.toNat_add, toNat_zext16]
  · rw [toNat_sub_half, toNat_zext16]

/-- The complement over 16 bits, as a number. -/
theorem toNat_xor_allOnes (a : Half) : (a ^^^ 0xFFFF).toNat = 65535 - a.toNat := by
  rw [show (0xFFFF : Half) = BitVec.allOnes 16 from rfl, BitVec.xor_allOnes, BitVec.toNat_not]

/-- Settles O14: bitwise results of halves, as numbers. -/
theorem bitwiseResults : Obligations.BitwiseResults := by
  intro s rd rs k w
  simp only [low16_eq]
  refine ⟨runsTo_of_half rfl (toNat_xor_allOnes _), runsTo_of_half rfl (BitVec.toNat_and _ _), runsTo_of_half rfl ?_,
    runsTo_of_half rfl (BitVec.toNat_and _ _), runsTo_of_half rfl (BitVec.toNat_or _ _), runsTo_of_half rfl (BitVec.toNat_xor _ _)⟩
  rw [BitVec.toNat_and, toNat_zext16]

/-- Settles O15: shifts multiply and divide by powers of two. -/
theorem shiftResults : Obligations.ShiftResults := by
  intro s rd rs k
  simp only [low16_eq]
  refine ⟨runsTo_of_half rfl (toNat_shiftLeft _ _), runsTo_of_half rfl ?_, runsTo_of_half rfl (toNat_shiftRight _ _),
    runsTo_of_half rfl ?_, runsTo_of_half rfl ?_, runsTo_of_half rfl ?_⟩
  · rw [toNat_shiftLeft, toNat_zext16]
  · rw [toNat_shiftRight, toNat_zext16]
  · rw [BitVec.toNat_shiftLeft, Nat.shiftLeft_eq]
  · rw [BitVec.toNat_ushiftRight, Nat.shiftRight_eq_div_pow]

/-- Settles O16: the value written is 0. -/
theorem clrSetsTheSlotToZero : Obligations.ClrSetsTheSlotToZero := fun _ _ => runsTo_of_exec rfl rfl

/-- Settles O17: the mask is bit 0, and each computation keeps the other bits. -/
theorem flagInstructionsChangeOnlyZ : Obligations.FlagInstructionsChangeOnlyZ := by
  intro s keeps
  have hkeeps {f : SlotVal → SlotVal} (hf : KeepsOtherFlags f) : keeps (s.updateFl f) :=
    ⟨fun n hn => by rw [State.updateFl, State.get_set_self, hf _ n hn], fun j hj => State.get_set_ne (Ne.symm hj), State.memRead_set s .fl _, rfl⟩
  refine ⟨⟨_, rfl, ?_, hkeeps setZ_keepsOtherFlags⟩, ⟨_, rfl, ?_, hkeeps clearZ_keepsOtherFlags⟩, ⟨_, rfl, ?_, hkeeps toggleZ_keepsOtherFlags⟩⟩
  all_goals rw [State.updateFl, State.get_set_self]
  · simp [setZ, getLsbD_zMask]
  · simp [clearZ, getLsbD_zMask]
  · rw [toggleZ, BitVec.getLsbD_xor, getLsbD_zMask]; exact Bool.xor_true _

/-- Settles O18: every reserved row has the one no-op. -/
theorem reservedOpcodesChangeNothing : Obligations.ReservedOpcodesChangeNothing := fun _ hi s => exec_reserved hi s

/-- Settles O58: the port writes one slot. -/
theorem hostPortIgnoresTheLock : Obligations.HostPortIgnoresTheLock := fun s i v =>
  ⟨s.set i v, rfl, State.get_set_self s i v, fun _ hj => State.get_set_ne (Ne.symm hj), rfl, rfl⟩

end Sys2Proof.Machine
end

section
/-! SUPPORT. The map and the port in the terms the statements use (20_memory.md R57, R58). -/

namespace Sys2Proof.Machine

/-! ### The map -/

theorem bank_eq_zero_iff {b : Bank} : b = 0 ↔ b.toNat = 0 := by rw [← BitVec.toNat_inj]; rfl

theorem inRam_iff {a : Addr} : InRam a ↔ Config.region (key a) = .ram := by
  rw [region_eq_ram, key_eq, InRam, bank_eq_zero_iff]
  omega

theorem inAudio_iff {a : Addr} : InAudio a ↔ Config.region (key a) = .audio := by
  rw [region_eq_audio, key_eq, InAudio, bank_eq_zero_iff]
  omega

theorem inTimer_iff {a : Addr} : InTimer a ↔ Config.region (key a) = .timer := by
  rw [region_eq_timer, key_eq, InTimer, bank_eq_zero_iff]
  omega

theorem isUnmapped_iff {a : Addr} : IsUnmapped a ↔ Config.region (key a) = .unmapped := by
  have := a.offset.isLt
  rw [region_eq_unmapped, key_eq, IsUnmapped, Ne, bank_eq_zero_iff]
  omega

/-- The next address in the bank is another one. -/
theorem addrPlus_one_ne (a : Addr) : addrPlus a 1 ≠ a := by
  intro e
  have h := congrArg (fun b : Addr => b.offset.toNat) e
  have h1 : (1 : Half).toNat = 1 := rfl
  simp only [addrPlus, BitVec.toNat_add, h1] at h
  have := a.offset.isLt
  omega

/-! ### One raw write -/

theorem State.devices_memWrite_of_ram {a : Addr} (h : InRam a) (s : State) (v : Byte) : (s.memWrite a v).devices = s.devices := by
  rw [State.memWrite_of_ram (inRam_iff.1 h)]

theorem State.memRead_memWrite_of_ram {s : State} (hs : s.Canonical) {a : Addr} (h : InRam a) (v : Byte) : (s.memWrite a v).memRead a = v := by
  rw [State.memRead_memWrite_self hs, if_pos (inRam_iff.1 h)]

theorem State.memRead_of_unmapped {a : Addr} (h : IsUnmapped a) (s : State) : s.memRead a = 0 :=
  State.memRead_of_not_ram (by rw [isUnmapped_iff.1 h]; decide)

/-- The device record grows only by a write to a window. -/
theorem State.devices_memWrite {a : Addr} (hna : ¬ InAudio a) (hnt : ¬ InTimer a) (s : State) (v : Byte) : (s.memWrite a v).devices = s.devices := by
  rcases s.memWrite_cases a v with ⟨h, he⟩ | ⟨h, he⟩ | ⟨h, he⟩ | ⟨h, he⟩
  · rw [he]
  · exact absurd (inAudio_iff.2 h) hna
  · exact absurd (inTimer_iff.2 h) hnt
  · rw [he]

/-- The offset inside a window, as a number. -/
theorem toNat_offset_in_window {x base : Half} (h : base.toNat ≤ x.toNat) : (x - base).toNat = x.toNat - base.toNat := by
  rw [BitVec.toNat_sub]
  have := x.isLt
  omega

/-- A raw write is the byte stored. -/
theorem byteStored_memWrite (s : State) (a : Addr) (v : Byte) : ByteStored a v.toNat s (s.memWrite a v) := by
  refine ⟨fun j => State.get_memWrite s j a v, fun b hb => State.memRead_memWrite_ne s v hb, fun h hs => ?_, fun h => ?_, fun h => ?_,
    fun h => State.memWrite_of_unmapped (isUnmapped_iff.1 h) s v⟩
  · exact ⟨congrArg BitVec.toNat (State.memRead_memWrite_of_ram hs h v), State.devices_memWrite_of_ram h s v⟩
  · have hread (u : State) : u.memRead a = 0 := State.memRead_of_not_ram (by rw [inAudio_iff.1 h]; decide)
    rw [State.memWrite_of_audio (inAudio_iff.1 h)]
    obtain ⟨_, hlow, _⟩ := h
    exact ⟨_, rfl, toNat_offset_in_window (base := Config.audioBase) hlow, rfl, rfl, hread _⟩
  · have hread (u : State) : u.memRead a = 0 := State.memRead_of_not_ram (by rw [inTimer_iff.1 h]; decide)
    rw [State.memWrite_of_timer (inTimer_iff.1 h)]
    obtain ⟨_, hlow, _⟩ := h
    exact ⟨_, rfl, toNat_offset_in_window (base := Config.timerBase) hlow, rfl, rfl, hread _⟩

/-- Two bytes of a word in RAM read back. -/
theorem State.memRead_two_writes {s : State} (hs : s.Canonical) {a : Addr} (h0 : InRam a) (h1 : InRam (addrPlus a 1)) (lo hi : Byte) :
    ((s.memWrite a lo).memWrite (addrPlus a 1) hi).memRead a = lo ∧
    ((s.memWrite a lo).memWrite (addrPlus a 1) hi).memRead (addrPlus a 1) = hi := by
  rw [State.memRead_memWrite_ne _ hi (addrPlus_one_ne a).symm]
  exact ⟨State.memRead_memWrite_of_ram hs h0 lo, State.memRead_memWrite_of_ram (State.memWrite_wf hs a lo) h1 hi⟩

end Sys2Proof.Machine
end

section
/-! CERTIFICATE. The statements about addresses, loads and stores (20_memory.md, 40_step_and_resolver.md section 3, 42_memory_access.md). -/

namespace Sys2Proof.Machine

/-- The source of a memory operand, as a number. -/
theorem toNat_sourceValue (s : State) (src : Source) :
    (s.sourceValue src).toNat = match src with | .reg r => low16 s r | .imm w => w.toNat := by
  cases src with
  | reg r => exact (low16_eq s r).symm
  | imm w => rfl

/-- Settles O19: the offset of each mode is a sum or a difference of halves. -/
theorem resolverAddresses : Obligations.ResolverAddresses := by
  intro s f src v signed
  have hv : (s.sourceValue src).toNat = v := toNat_sourceValue s src
  have hsigned (base : Slot) : (plusMinus f (s.offOf base) (s.sourceValue src)).toNat = signed (low16 s base) := by
    rw [toNat_plusMinus, hv, ← low16_eq]
  refine ⟨⟨_, rfl, rfl, hv⟩, ⟨_, rfl, toNat_bnk _, hsigned .pc⟩, ⟨_, rfl, rfl, hsigned .sp⟩, ⟨_, rfl, toNat_bnk _, ?_⟩, ⟨_, rfl, toNat_bnk _, ?_⟩,
    fun r hr => ?_⟩
  · rw [BitVec.toNat_add, hv, low16_eq]
  · rw [BitVec.toNat_add, hv, low16_eq]
  · refine ⟨{ bank := 0, offset := s.sourceValue src + s.offOf r }, ?_, rfl, ?_⟩
    · simp only [State.resolve, generalSlot_eq_some.2 hr]
    · rw [BitVec.toNat_add, hv, low16_eq]

/-- The index field of 8 or more has no address. -/
theorem State.resolve_of_ill_formed {m : MemOperand} (hm : m.mode = .indexed) (hf : 8 ≤ m.f.toNat) (s : State) :
    s.resolve m = .error .indexOutOfFile := by
  have hnone : Config.generalSlot m.f = none := by
    rcases e : Config.generalSlot m.f with _ | r
    · rfl
    · have hr := generalSlot_eq_some.1 e
      have hlt : r.val < 24 := r.isLt
      omega
  simp only [State.resolve, hm, hnone]

/-- Settles O20: each of the four resolves its operand first. -/
theorem illFormedIndexStops : Obligations.IllFormedIndexStops := by
  intro s r m hm hf
  have hr (u : State) : u.resolve m = .error .indexOutOfFile := State.resolve_of_ill_formed hm hf u
  refine ⟨?_, ?_, ?_, ?_⟩
  · simp only [exec, execLodB, State.load, hr]
  · simp only [exec, execLodW, State.load, hr]
  · simp only [exec, execStoB, State.store, hr]
  · simp only [exec, execStoW, State.store, hr]

/-- Settles O21: a load writes its destination alone, a store no slot. -/
theorem loadsZeroExtendAndModifyNoAddressRegister : Obligations.LoadsZeroExtendAndModifyNoAddressRegister := by
  refine ⟨fun s rd m a hr hp => ?_, fun s rd m a hr hp hq => ?_, fun s rs m a hr hp => ?_, fun s rs m a lo hr hp hlo hq => ?_⟩
  · exact runsTo_of_exec (exec_lodB_of_perm hr hp rd) (toNat_ofByte _)
  · exact runsTo_of_half (exec_lodW_of_ok hr (State.readProt16_ok hp hq) rd) (toNat_append_bytes _ _)
  · refine ⟨_, exec_stoB hr rs, fun j => ?_⟩
    rw [State.store8_of_perm hp, State.get_memWrite]
  · exact ⟨_, exec_stoW_of_perm hr hp hlo hq, fun j => by rw [State.get_memWrite, State.get_memWrite]⟩

/-- Settles O22: a permitted byte store is one raw write. -/
theorem storeByteStoresTheLowByte : Obligations.StoreByteStoresTheLowByte := by
  intro s rs m a hr hp
  refine ⟨_, exec_stoB hr rs, ?_⟩
  rw [State.store8_of_perm hp, ← toNat_low_byte]
  exact byteStored_memWrite s a _

/-- Settles O23: a permitted word store is two raw writes, and the second does not reach the first byte. -/
theorem storeWordStoresLowThenHigh : Obligations.StoreWordStoresLowThenHigh := by
  intro s rs m a lo hr hp hlo hq
  have hhi : ((s.offOf rs).extractLsb' 8 8).toNat = (s.get rs).toNat / 256 % 256 := toNat_high_byte_of_half _
  refine ⟨_, s.memWrite a lo, exec_stoW_of_perm hr hp hlo hq, ?_, ?_, fun b h0 h1 => ?_, fun h0 h1 hs => ⟨?_, ?_⟩⟩
  · rw [← hlo]; exact byteStored_memWrite s a lo
  · rw [← hhi]; exact byteStored_memWrite _ _ _
  · rw [State.memRead_memWrite_ne _ _ h1, State.memRead_memWrite_ne _ _ h0]
  · obtain ⟨hreadLo, hreadHi⟩ := State.memRead_two_writes hs h0 h1 lo ((s.offOf rs).extractLsb' 8 8)
    rw [hreadLo, hreadHi, hlo, hhi, low16]
    omega
  · rw [State.devices_memWrite_of_ram h1, State.devices_memWrite_of_ram h0]

/-- Settles O24: with every access permitted, the two bytes written are the two bytes read. -/
theorem wordStoredIsLoadedBack : Obligations.WordStoredIsLoadedBack := by
  intro s a v hs hoff h0 h1
  have hperm {u : State} (hu : u.flagOf .mmue = false) (b : Addr) (need : Access) : u.perm b need = true := State.perm_of_mmu_off hu b need
  have hlow : (s.memWrite a (v.extractLsb' 0 8)).flagOf .mmue = false := by rw [State.flagOf_memWrite, hoff]
  rw [State.store16_of_perm (hperm hoff a .write) (hperm hlow _ .write)]
  have hboth : ((s.memWrite a (v.extractLsb' 0 8)).memWrite (addrPlus a 1) (v.extractLsb' 8 8)).flagOf .mmue = false := by
    rw [State.flagOf_memWrite, hlow]
  obtain ⟨hreadLo, hreadHi⟩ := State.memRead_two_writes hs h0 h1 (v.extractLsb' 0 8) (v.extractLsb' 8 8)
  rw [State.readProt16_ok (hperm hboth a .read) (hperm hboth _ .read), hreadLo, hreadHi, high_append_low]

/-- Settles O25: a store moves no PC, and the fetch reads the byte it wrote. -/
theorem storeIsSeenByTheNextFetch : Obligations.StoreIsSeenByTheNextFetch := by
  intro s b hs hoff hram
  rw [State.store8_of_perm (State.perm_of_mmu_off hoff _ _)]
  have hcode : (s.memWrite (s.codeAddr 0) b).codeAddr 0 = s.codeAddr 0 := by
    simp only [State.codeAddr, State.bankOf_memWrite, State.offOf_memWrite]
  rw [State.fetch_ok (State.perm_of_mmu_off (by rw [State.flagOf_memWrite, hoff]) _ _), hcode, State.memRead_memWrite_of_ram hs hram]

/-- Without a data access a locked destination leaves nothing to do. -/
theorem eq_of_locked_of_no_access {i : Instr} (hi : accessesMemory i = false) {rd : Slot} {s t : State} (hd : destOf i = some rd)
    (hl : s.locked rd = true) (h : exec i s = .next t) : t = s := by
  rcases exec_of_no_access hi s with ⟨rd', v, hd', he⟩ | ⟨f, hflag, _, _⟩ | he
  · cases hd.symm.trans hd'
    rw [he, State.writeDest_of_locked hl] at h
    cases h; rfl
  · rcases hflag with rfl | rfl | rfl <;> cases hd
  · rw [he] at h; cases h; rfl

/-- Settles O27: the destination write is dropped; a load still makes its reads. -/
theorem lockedWriteIsDropped : Obligations.LockedWriteIsDropped := by
  intro i rd s t hd hl h
  cases i with
  | lodB rd' m =>
    cases hd
    obtain ⟨a, _, ⟨_, rfl⟩ | ⟨hp, rfl⟩⟩ := execLodB_next h
    · exact .inl (State.writeDest_of_locked hl _)
    · exact .inr ⟨a, hp, rfl, m, .inl rfl⟩
  | lodW rd' m =>
    cases hd
    obtain ⟨a, _, ⟨_, _, rfl⟩ | ⟨hp, rfl⟩ | ⟨_, hq, rfl⟩⟩ := execLodW_next h
    · exact .inl (State.writeDest_of_locked hl _)
    · exact .inr ⟨a, hp, rfl, m, .inr rfl⟩
    · exact .inr ⟨_, hq, rfl, m, .inr rfl⟩
  | stoB | stoW => cases hd
  | _ => exact .inl (eq_of_locked_of_no_access rfl hd hl h)

theorem Addr.ext_toNat {a b : Addr} (hb : a.bank.toNat = b.bank.toNat) (ho : a.offset.toNat = b.offset.toNat) : a = b := by
  obtain ⟨ab, ao⟩ := a
  obtain ⟨bb, bo⟩ := b
  rw [Addr.mk.injEq]
  exact ⟨BitVec.eq_of_toNat_eq hb, BitVec.eq_of_toNat_eq ho⟩

/-- Settles O28: the entry is told by its bank and its offset. -/
theorem permissionFunction : Obligations.PermissionFunction := by
  intro s a
  refine ⟨fun hoff need => State.perm_of_mmu_off ((flag_eq_false_iff _).2 hoff) a need, fun hon entry hb ho => ?_⟩
  obtain rfl : entry = s.pteAddr a := by
    refine Addr.ext_toNat (hb.trans (toNat_bnk _).symm) (ho.trans ?_)
    rw [State.pteAddr, BitVec.toNat_add, toNat_zext16, toNat_pageIndex, low16_eq]
  have hperm := State.perm_of_mmu_on ((flag_eq_true_iff _).2 hon) a
  exact ⟨hperm .exec, hperm .write, hperm .read⟩

/-- Settles O29: nothing stands behind the address. -/
theorem unmappedPlacesReadZeroAndIgnoreWrites : Obligations.UnmappedPlacesReadZeroAndIgnoreWrites := by
  intro s a h
  refine ⟨State.memRead_of_unmapped h s, State.memWrite_of_unmapped (isUnmapped_iff.1 h) s, fun rd m hr hp => ?_, fun rs m hr hp => ?_⟩
  · refine runsTo_of_exec (exec_lodB_of_perm hr hp rd) ?_
    rw [State.memRead_of_unmapped h]; rfl
  · rw [exec_stoB hr, State.store8_of_perm hp, State.memWrite_of_unmapped (isUnmapped_iff.1 h)]

/-- Settles O30: the canonical list reads back what it was written. -/
theorem ramReturnsTheLastByteWritten : Obligations.RamReturnsTheLastByteWritten := fun s a v hs h =>
  ⟨State.memRead_memWrite_of_ram hs h v, fun _ hb => State.memRead_memWrite_ne s v hb, State.memWrite_wf hs a v,
    State.devices_memWrite_of_ram h s v⟩

end Sys2Proof.Machine
end

section
/-! SUPPORT. Resets and traps in the terms the statements use (60_exceptions.md sections 3 and 5, 70_reset_and_hazards.md). -/

namespace Sys2Proof.Machine

/-! ### Resets -/

/-- The fatal form is a reset that reports no handler (60_exceptions.md R210). -/
theorem resetTo_fatal (s : State) : ResetTo 1 s s.fatal := by
  obtain ⟨hfl, hpcb, hpc, hmmue, hintl⟩ := s.fatal_showsReset
  have hexc : (s.fatal.get .exc).toNat = 1 := by rw [State.fatal, State.get_set_self]; rfl
  refine ⟨hpcb, hpc, hexc, hmmue, hintl, hfl, fun j hj => ?_, State.memRead_congr s.fatal_frame.mem, rfl⟩
  have hne : Slot.exc ≠ j := by rintro rfl; exact hj (by decide)
  rw [State.fatal, State.get_set_ne hne, State.get_hardReset_of_notMem s hj]

/-- A reset forgets the six slots it writes. -/
theorem ResetTo.of_agree {exc : Nat} {s u t : State} (h : ResetTo exc s t)
    (hslots : ∀ j, j ∉ [Slot.pcb, .pc, .exc, .mmue, .intl, .fl] → s.get j = u.get j) (hport : SameBehindPort u s) : ResetTo exc u t := by
  obtain ⟨hpcb, hpc, hexc, hmmue, hintl, hfl, hkept, hmem, hdev⟩ := h
  exact ⟨hpcb, hpc, hexc, hmmue, hintl, hfl, fun j hj => (hkept j hj).trans (hslots j hj),
    fun a => (hmem a).trans (State.memRead_congr hport.mem a), hdev.trans hport.devices⟩

/-! ### The interrupt-table entry as a number (60_exceptions.md R205, R206) -/

theorem toNat_append_three (hi mid lo : Byte) : (hi ++ mid ++ lo : BitVec 24).toNat = lo.toNat + 256 * mid.toNat + 65536 * hi.toNat := by
  have hlow := toNat_append_bytes hi mid
  have hlt := lo.isLt
  rw [BitVec.toNat_append, hlow, ← Nat.shiftLeft_add_eq_or_of_lt hlt, Nat.shiftLeft_eq]
  omega

theorem State.entryAddr_eq (s : State) (kind : Kind) (j : Nat) :
    s.entryAddr kind (BitVec.ofNat 16 j) =
      { bank := BitVec.ofNat 4 (s.get .intb).toNat, offset := BitVec.ofNat 16 ((s.get .intp).toNat + 3 * kind.toNat + j) } := by
  refine Addr.ext_toNat (toNat_bnk _) ?_
  simp only [State.entryAddr, Config.entryBytes, State.offOf, BitVec.toNat_add, BitVec.toNat_mul, BitVec.toNat_ofNat, toNat_off, toNat_zext16]
  omega

theorem entryValue_eq (s : State) (kind : Kind) : entryValue s kind = (s.readEntry kind).toNat := by
  rw [State.readEntry, toNat_append_three]
  simp only [entryValue, ← State.entryAddr_eq]
  rfl

theorem isSentinel_iff (s : State) (kind : Kind) : IsSentinel (entryValue s kind) ↔ sentinel (s.readEntry kind) = true := by
  rw [IsSentinel, entryValue_eq, sentinel_iff]

/-! ### Trap entry: PC and PCb saved, the flag clears of the entry `e` done, then the jump -/

theorem State.saveReturn_entryClears_frame (s : State) (e : BitVec 24) : TrapFrame s (s.saveReturn.entryClears e) :=
  s.saveReturn_frame.trans (State.entryClears_frame _ e)

theorem State.get_saveReturn_entryClears (s : State) (e : BitVec 24) (j : Slot) :
    (s.saveReturn.entryClears e).get j =
      if j = .rtip then s.get .pc else if j = .rtib then s.get .pcb
      else if j = .mmue ∧ e.toNat / 1048576 % 2 = 1 then 0 else if j = .intl ∧ e.toNat / 2097152 % 2 = 1 then 0 else s.get j := by
  simp only [State.get_entryClears, entryClrMmu_eq, entryClrInt_eq, decide_eq_true_eq, State.get_saveReturn]
  by_cases hp : j = .rtip
  · subst hp; rfl
  · by_cases hb : j = .rtib
    · subst hb; rfl
    · rw [if_neg hp, if_neg hb, if_neg hp, if_neg hb]

theorem State.get_mmue_saveReturn_entryClears (s : State) (e : BitVec 24) :
    (s.saveReturn.entryClears e).get .mmue = if e.toNat / 1048576 % 2 = 1 then 0 else s.get .mmue := by
  rw [State.get_saveReturn_entryClears, if_neg (by decide), if_neg (by decide)]
  simp +decide

theorem State.get_intl_saveReturn_entryClears (s : State) (e : BitVec 24) :
    (s.saveReturn.entryClears e).get .intl = if e.toNat / 2097152 % 2 = 1 then 0 else s.get .intl := by
  rw [State.get_saveReturn_entryClears, if_neg (by decide), if_neg (by decide)]
  simp +decide

/-- The jump to an entry's target is a dispatch through its value. -/
theorem dispatched_entryJump (s : State) (e : BitVec 24) : Dispatched e.toNat s ((s.saveReturn.entryClears e).entryJump e) := by
  have hget {j : Slot} (h0 : j ≠ .pc) (h1 : j ≠ .pcb) : ((s.saveReturn.entryClears e).entryJump e).get j = (s.saveReturn.entryClears e).get j := by
    rw [State.get_entryJump, if_neg h0, if_neg h1]
  have hframe := s.saveReturn_entryClears_frame e
  refine ⟨?_, ?_, ?_, ?_, ?_, ?_, fun j hj => ?_, State.memRead_congr hframe.mem, hframe.devices⟩
  · rw [hget (by decide) (by decide), State.get_saveReturn_entryClears]; rfl
  · rw [hget (by decide) (by decide), State.get_saveReturn_entryClears]; rfl
  · rw [State.get_entryJump, if_pos rfl, toNat_ofHalf, toNat_entryOffset]
  · rw [State.get_entryJump, if_neg (by decide), if_pos rfl, toNat_ofBank, toNat_entryBank]
  · rw [hget (by decide) (by decide), State.get_mmue_saveReturn_entryClears]
  · rw [hget (by decide) (by decide), State.get_intl_saveReturn_entryClears]
  · simp only [List.mem_cons, List.not_mem_nil, or_false, not_or] at hj
    obtain ⟨hp, hb, hpc, hpcb, hm, hi⟩ := hj
    rw [hget hpc hpcb, State.get_saveReturn_entryClears]
    simp only [hp, hb, hm, hi, false_and, if_false]

/-- The state that falls back from a sentinel entry `e`: saved, cleared, and with EXC saying that there was no handler. -/
def State.fallbackState (s : State) (e : BitVec 24) : State := (s.saveReturn.entryClears e).set .exc Config.excNoInth

theorem State.get_fallbackState (s : State) (e : BitVec 24) {j : Slot} (hj : j ≠ .exc) :
    (s.fallbackState e).get j = (s.saveReturn.entryClears e).get j := State.get_set_ne (Ne.symm hj)

theorem State.fallbackState_port (s : State) (e : BitVec 24) : SameBehindPort s (s.fallbackState e) :=
  ⟨(s.saveReturn_entryClears_frame e).mem, (s.saveReturn_entryClears_frame e).devices⟩

/-- With INTl set and a target in the entry, `Trigger` dispatches. -/
theorem State.trigger_of_target {s : State} {kind : Kind} (hi : s.get .intl ≠ 0) (he : ¬ IsSentinel (entryValue s kind)) :
    State.trigger kind s = (s.saveReturn.entryClears (s.readEntry kind)).entryJump (s.readEntry kind) := by
  have hflag : s.flagOf .intl = true := (flag_eq_true_iff _).2 hi
  rw [isSentinel_iff] at he
  rcases State.trigger_cases kind s with ⟨h, _⟩ | ⟨_, _, h⟩ | ⟨_, h, _⟩ | ⟨_, h, _⟩
  · exact absurd hflag (ne_true_of_eq_false h)
  · exact h
  · exact absurd h he
  · exact absurd h he

theorem State.trigger_of_intl_clear {s : State} (hi : s.get .intl = 0) (kind : Kind) : State.trigger kind s = s.fatal := by
  have hflag : s.flagOf .intl = false := (flag_eq_false_iff _).2 hi
  rw [State.trigger, State.triggerRound, if_neg (ne_true_of_eq_false hflag)]

/-- With INTl set and a sentinel entry, `Trigger` of another kind triggers EXCEPT, and of the EXCEPT kind resets. -/
theorem State.trigger_of_sentinel {s : State} {kind : Kind} (hi : s.get .intl ≠ 0) (he : IsSentinel (entryValue s kind)) :
    State.trigger kind s =
      if kind = Config.kindExcept then (s.fallbackState (s.readEntry kind)).fatal
      else State.trigger Config.kindExcept (s.fallbackState (s.readEntry kind)) := by
  have hflag : s.flagOf .intl = true := (flag_eq_true_iff _).2 hi
  rw [isSentinel_iff] at he
  rcases State.trigger_cases kind s with ⟨h, _⟩ | ⟨_, h, _⟩ | ⟨_, _, hk, h⟩ | ⟨_, _, hk, h⟩
  · exact absurd hflag (ne_true_of_eq_false h)
  · exact absurd he (ne_true_of_eq_false h)
  · rw [if_neg hk]; exact h
  · rw [if_pos hk]; exact h

/-- A fallback that resets keeps the saved PC and PCb, and nothing else of the way there. -/
theorem resetTo_fallback (s : State) (e : BitVec 24) : ResetTo 1 s.saveReturn (s.fallbackState e).fatal := by
  refine (resetTo_fatal _).of_agree (fun j hj => ?_) ⟨(State.entryClears_frame s.saveReturn e).mem, (State.entryClears_frame s.saveReturn e).devices⟩
  simp only [List.mem_cons, List.not_mem_nil, or_false, not_or] at hj
  obtain ⟨_, _, hexc, hmmue, hintl, _⟩ := hj
  rw [State.get_fallbackState s e hexc, State.get_entryClears, if_neg fun h => hmmue h.1, if_neg fun h => hintl h.1]

/-! ### The recursion guard -/

/-- Falling back a second time through the same entry changes nothing more: PC and PCb are saved already, the clears done, EXC set. -/
theorem State.fallbackState_fallbackState (s : State) (e : BitVec 24) : (s.fallbackState e).fallbackState e = s.fallbackState e := by
  refine State.ext_get (fun j => ?_) (State.fallbackState_port _ e).mem (State.fallbackState_port _ e).devices
  by_cases hexc : j = .exc
  · subst hexc
    rw [State.fallbackState, State.get_set_self, State.fallbackState, State.get_set_self]
  · rw [State.get_fallbackState _ e hexc, State.get_saveReturn_entryClears, State.get_fallbackState s e (j := .pc) (by decide),
      State.get_fallbackState s e (j := .pcb) (by decide), State.get_fallbackState s e hexc]
    simp only [State.get_saveReturn_entryClears]
    by_cases hp : j = .rtip
    · subst hp; rfl
    · by_cases hb : j = .rtib
      · subst hb; rfl
      · simp only [hp, hb, if_false]
        split
        · rfl
        · split <;> rfl

/-- The way to the fallback leaves the table as it is. -/
theorem State.readEntry_fallbackState (s : State) (e : BitVec 24) (kind : Kind) : (s.fallbackState e).readEntry kind = s.readEntry kind := by
  refine State.readEntry_congr ?_ ?_ (s.fallbackState_port e).mem
  · rw [State.get_fallbackState s e (by decide)]; exact (s.saveReturn_entryClears_frame e).slots _ (by decide)
  · rw [State.get_fallbackState s e (by decide)]; exact (s.saveReturn_entryClears_frame e).slots _ (by decide)

/-- One round of `Trigger`, with the fallback state named. -/
theorem State.triggerRound_eq (fallback : State → State) (kind : Kind) (s : State) :
    State.triggerRound fallback kind s =
      if s.flagOf .intl then
        if sentinel (s.readEntry kind) then fallback (s.fallbackState (s.readEntry kind))
        else (s.saveReturn.entryClears (s.readEntry kind)).entryJump (s.readEntry kind)
      else s.fatal := by
  simp only [State.triggerRound, State.readEntry_saveReturn]
  rfl

/-- From the fallback state of a sentinel EXCEPT entry, any number of rounds ends in the reset. -/
theorem triggerBounded_fallbackState {s : State} (he : sentinel (s.readEntry Config.kindExcept) = true) (n : Nat) :
    triggerBounded n Config.kindExcept (s.fallbackState (s.readEntry Config.kindExcept)) =
      (s.fallbackState (s.readEntry Config.kindExcept)).fatal := by
  induction n with
  | zero => rfl
  | succ n ih =>
    rw [triggerBounded, State.triggerRound_eq, State.readEntry_fallbackState, if_pos he, State.fallbackState_fallbackState, ih, ite_self]

/-- One round or more on the EXCEPT kind is one round. -/
theorem triggerBounded_except (n : Nat) (s : State) :
    triggerBounded (n + 1) Config.kindExcept s = State.triggerRound State.fatal Config.kindExcept s := by
  rw [triggerBounded, State.triggerRound_eq, State.triggerRound_eq]
  rcases he : sentinel (s.readEntry Config.kindExcept) with _ | _
  · simp only [Bool.false_eq_true, if_false]
  · rw [triggerBounded_fallbackState he]

/-! ### The page-access violation -/

theorem entryValue_faultInfo (s : State) (a : Addr) (kind : Kind) : entryValue (s.faultInfo a) kind = entryValue s kind := by
  rw [entryValue_eq, entryValue_eq, State.readEntry_faultInfo]

/-- The reported address as the statement writes it. -/
theorem State.faultInfo_eq (s : State) (a : Addr) :
    s.faultInfo a = ((s.set .exc 2).set .r0 (BitVec.ofNat 20 a.offset.toNat)).set .r1 (BitVec.ofNat 20 a.bank.toNat) := by
  have hoff : ofHalf a.offset = BitVec.ofNat 20 a.offset.toNat := BitVec.eq_of_toNat_eq (by rw [toNat_ofHalf, BitVec.toNat_ofNat]; omega)
  have hbank : ofBank a.bank = BitVec.ofNat 20 a.bank.toNat := BitVec.eq_of_toNat_eq (by rw [toNat_ofBank, BitVec.toNat_ofNat]; omega)
  rw [State.faultInfo, hoff, hbank]
  rfl

end Sys2Proof.Machine
end

section
/-! CERTIFICATE. The statements about power-on, trap entry and return (60_exceptions.md, 70_reset_and_hazards.md). -/

namespace Sys2Proof.Machine

/-- Settles O32: power-on is a reset of the given slots. -/
theorem powerOnState : Obligations.PowerOnState := by
  refine ⟨fun regs mem => ?_, State.reset_eq_powerOn⟩
  have hreset : ResetTo 0 { regs := regs, mem := mem, devices := [] } (powerOn regs mem) := resetWritesSixSlots _
  have ⟨hpcb, hpc, _, hmmue, hintl, _⟩ := hreset
  refine ⟨Addr.ext_toNat ?_ ?_, fun a need => State.perm_of_mmu_off ((flag_eq_false_iff _).2 hmmue) a need, hintl, hreset⟩
  · rw [State.codeAddr, State.bankOf, hpcb]; rfl
  · rw [State.codeAddr, State.offOf, BitVec.toNat_add, toNat_off, hpc]; rfl

/-- Settles O33: the gate test fails first. -/
theorem triggerWithInterruptsDisabledResets : Obligations.TriggerWithInterruptsDisabledResets := by
  intro s kind hi
  rw [State.trigger_of_intl_clear hi]
  exact resetTo_fatal s

/-- Settles O34: the entry's fields are read off its value. -/
theorem triggerDispatchesThroughTheTable : Obligations.TriggerDispatchesThroughTheTable := by
  intro s kind hi he
  rw [State.trigger_of_target hi he, entryValue_eq]
  exact dispatched_entryJump s _

/-- Settles O35: the state that falls back is the saved and cleared one. -/
theorem sentinelEntryFallsBack : Obligations.SentinelEntryFallsBack := by
  intro s kind hi he
  rw [State.trigger_of_sentinel hi he, entryValue_eq]
  have hport := s.fallbackState_port (s.readEntry kind)
  refine ⟨fun hk => ?_, fun hk => ?_⟩
  · have hne : kind ≠ Config.kindExcept := fun e => hk (by rw [e]; rfl)
    rw [if_neg hne]
    refine ⟨_, rfl, ?_, ?_, ?_, ?_, ?_, fun j hj => ?_, State.memRead_congr hport.mem, hport.devices⟩
    · rw [State.get_fallbackState s _ (by decide), State.get_saveReturn_entryClears]; rfl
    · rw [State.get_fallbackState s _ (by decide), State.get_saveReturn_entryClears]; rfl
    · rw [State.fallbackState, State.get_set_self]; rfl
    · rw [State.get_fallbackState s _ (by decide), State.get_mmue_saveReturn_entryClears]
    · rw [State.get_fallbackState s _ (by decide), State.get_intl_saveReturn_entryClears]
    · simp only [List.mem_cons, List.not_mem_nil, or_false, not_or] at hj
      obtain ⟨hp, hb, hexc, hm, hl⟩ := hj
      rw [State.get_fallbackState s _ hexc, State.get_saveReturn_entryClears]
      simp only [hp, hb, hm, hl, false_and, if_false]
  · have hexcept : kind = Config.kindExcept := BitVec.eq_of_toNat_eq hk
    rw [if_pos hexcept]
    exact resetTo_fallback s _

/-- Settles O36: only the EXCEPT kind recurs, and from its fallback state every further round is the same. -/
theorem recursionBoundIsUnobservable : Obligations.RecursionBoundIsUnobservable := by
  intro n kind s
  by_cases hk : kind = Config.kindExcept
  · rw [State.trigger, if_pos hk, hk, triggerBounded_except]
  · have hrounds : triggerBounded (n + 1) Config.kindExcept = State.triggerRound State.fatal Config.kindExcept :=
      funext (triggerBounded_except n)
    rw [State.trigger, if_neg hk, triggerBounded, hrounds]

/-- Settles O37: the violation is a trigger of the EXCEPT kind in the state that reports the address. -/
theorem pageAccessViolation : Obligations.PageAccessViolation := by
  intro s a u
  have hu : s.faultInfo a = u := s.faultInfo_eq a
  have hget {j : Slot} (h0 : j ≠ .r1) (h1 : j ≠ .r0) (h2 : j ≠ .exc) : u.get j = s.get j := by
    rw [← hu, State.get_faultInfo, if_neg h0, if_neg h1, if_neg h2]
  have hintl : u.get .intl = s.get .intl := hget (by decide) (by decide) (by decide)
  have hentry : entryValue u 0 = entryValue s 0 := hu ▸ entryValue_faultInfo s a 0
  rw [State.pageAV, hu, ← hintl, ← hentry]
  refine ⟨triggerWithInterruptsDisabledResets u _, triggerDispatchesThroughTheTable u _, fun hi he => ?_⟩
  obtain ⟨_, hreset⟩ := sentinelEntryFallsBack u Config.kindExcept hi he
  rw [← hget (j := .pcb) (by decide) (by decide) (by decide), ← hget (j := .pc) (by decide) (by decide) (by decide)]
  exact hreset rfl

/-- Settles O38: the saved PC is in RTIp, and PC is never locked. -/
theorem softwareReturnRestoresPc : Obligations.SoftwareReturnRestoresPc := by
  intro s kind hi he
  obtain ⟨hrtip, hrtib, _, hpcb, _⟩ := triggerDispatchesThroughTheTable s kind hi he
  have hframe := s.trigger_frame kind
  refine ⟨(State.trigger kind s).set .pc ((State.trigger kind s).get .rtip), ?_, ?_, fun hbank => ?_, fun j hj => State.get_set_ne (Ne.symm hj),
    hframe.mem, hframe.devices⟩
  · change (.next ((State.trigger kind s).writeDest .pc ((State.trigger kind s).get .rtip)) : Outcome) = _
    rw [State.writeDest_of_unlocked (State.locked_eq_false (by decide) _)]
  · rw [State.get_set_self, hrtip]
  · rw [State.get_set_ne (by decide)]
    exact BitVec.eq_of_toNat_eq (hpcb.trans hbank.symm)

end Sys2Proof.Machine
end

section
/-! SUPPORT. The frame of an instruction, clause by clause: which slots may change, and what a store changes behind the port
(10_state.md section 3, 42_memory_access.md, 60_exceptions.md section 5). -/

namespace Sys2Proof.Machine

/-- The access of the only or the low byte of a load or a store is denied. -/
def LowDenied (i : Instr) (s : State) : Prop :=
  (∃ rd m a, (i = .lodB rd m ∨ i = .lodW rd m) ∧ s.resolve m = .ok a ∧ s.perm a .read = false) ∨
  (∃ m rs a, (i = .stoB m rs ∨ i = .stoW m rs) ∧ s.beforeRsByte.resolve m = .ok a ∧ s.perm a .write = false)

/-- The access of the high byte of a word is denied; a store checks it after its low byte is stored. -/
def HighDenied (i : Instr) (s : State) : Prop :=
  (∃ rd m a, i = .lodW rd m ∧ s.resolve m = .ok a ∧ s.perm (addrPlus a 1) .read = false) ∨
  (∃ m rs a, ∃ lo : Byte, i = .stoW m rs ∧ s.beforeRsByte.resolve m = .ok a ∧ s.perm a .write = true ∧
    lo.toNat = (s.get rs).toNat % 256 ∧ (s.memWrite a lo).perm (addrPlus a 1) .write = false)

/-- The slots a page-access violation may write: those of a trap and the two that report the address. -/
def violationSlots : List Slot := trapSlots ++ [.r0, .r1]

/-- A changed slot is an unlocked destination or the flag, or, with a denied access, one of a violation's. -/
def SlotFrame (i : Instr) (s t : State) : Prop :=
  ∀ j, t.get j ≠ s.get j →
    (¬ (LowDenied i s ∨ HighDenied i s) ∧
      ((destOf i = some j ∧ s.locked j = false) ∨
        (j = .fl ∧ (i = .sez ∨ i = .clz ∨ i = .inz) ∧ ∀ n, n ≠ 0 → (t.get .fl).getLsbD n = (s.get .fl).getLsbD n))) ∨
    ((LowDenied i s ∨ HighDenied i s) ∧ s.get .mmue ≠ 0 ∧ j ∈ violationSlots)

/-- The frame of an instruction. -/
structure InstrFrame (i : Instr) (s t : State) : Prop where
  slots : SlotFrame i s t
  noStore : (∀ m rs, i ≠ .stoB m rs ∧ i ≠ .stoW m rs) → t.mem = s.mem ∧ t.devices = s.devices
  byte : ∀ m rs a, i = .stoB m rs → s.beforeRsByte.resolve m = .ok a →
    (∀ b, b ≠ a → t.memRead b = s.memRead b) ∧ (¬ InAudio a → ¬ InTimer a → t.devices = s.devices)
  word : ∀ m rs a, i = .stoW m rs → s.beforeRsByte.resolve m = .ok a →
    (∀ b, b ≠ a → b ≠ addrPlus a 1 → t.memRead b = s.memRead b) ∧
    (HighDenied i s → ∀ b, b ≠ a → t.memRead b = s.memRead b) ∧
    (¬ InAudio a → ¬ InTimer a → ¬ InAudio (addrPlus a 1) → ¬ InTimer (addrPlus a 1) → t.devices = s.devices)
  denied : LowDenied i s → t.mem = s.mem ∧ t.devices = s.devices

/-! ### Which accesses are denied -/

section
variable {s : State} {m : MemOperand} {a : Addr}

theorem not_denied_of_no_access {i : Instr} (hi : accessesMemory i = false) (s : State) : ¬ (LowDenied i s ∨ HighDenied i s) := by
  rintro ((⟨rd, m, a, rfl | rfl, _⟩ | ⟨m, rs, a, rfl | rfl, _⟩) | (⟨rd, m, a, rfl, _⟩ | ⟨m, rs, a, lo, rfl, _⟩)) <;> cases hi

theorem lowDenied_load {i : Instr} {rd : Slot} (hi : i = .lodB rd m ∨ i = .lodW rd m) (hr : s.resolve m = .ok a) :
    LowDenied i s ↔ s.perm a .read = false := by
  refine ⟨?_, fun hp => .inl ⟨rd, m, a, hi, hr, hp⟩⟩
  rintro (⟨rd', m', b, hi', hb, hp⟩ | ⟨m', rs, b, hi', _⟩)
  · obtain rfl : m = m' := by rcases hi with rfl | rfl <;> rcases hi' with e | e <;> cases e <;> rfl
    cases hr.symm.trans hb
    exact hp
  · rcases hi with rfl | rfl <;> rcases hi' with e | e <;> cases e

theorem lowDenied_store {i : Instr} {rs : Slot} (hi : i = .stoB m rs ∨ i = .stoW m rs) (hr : s.beforeRsByte.resolve m = .ok a) :
    LowDenied i s ↔ s.perm a .write = false := by
  refine ⟨?_, fun hp => .inr ⟨m, rs, a, hi, hr, hp⟩⟩
  rintro (⟨rd, m', b, hi', _⟩ | ⟨m', rs', b, hi', hb, hp⟩)
  · rcases hi with rfl | rfl <;> rcases hi' with e | e <;> cases e
  · obtain rfl : m = m' := by rcases hi with rfl | rfl <;> rcases hi' with e | e <;> cases e <;> rfl
    cases hr.symm.trans hb
    exact hp

theorem not_highDenied_byte {i : Instr} {r : Slot} (hi : i = .lodB r m ∨ i = .stoB m r) : ¬ HighDenied i s := by
  rintro (⟨rd, m', b, hi', _⟩ | ⟨m', rs, b, lo, hi', _⟩) <;> rcases hi with rfl | rfl <;> cases hi'

theorem highDenied_lodW {rd : Slot} (hr : s.resolve m = .ok a) : HighDenied (.lodW rd m) s ↔ s.perm (addrPlus a 1) .read = false := by
  refine ⟨?_, fun hp => .inl ⟨rd, m, a, rfl, hr, hp⟩⟩
  rintro (⟨rd', m', b, e, hb, hp⟩ | ⟨m', rs, b, lo, e, _⟩)
  · cases e
    cases hr.symm.trans hb
    exact hp
  · cases e

theorem highDenied_stoW {rs : Slot} (hr : s.beforeRsByte.resolve m = .ok a) :
    HighDenied (.stoW m rs) s ↔
      s.perm a .write = true ∧ (s.memWrite a ((s.offOf rs).extractLsb' 0 8)).perm (addrPlus a 1) .write = false := by
  refine ⟨?_, fun ⟨hp, hq⟩ => .inr ⟨m, rs, a, _, rfl, hr, hp, toNat_low_byte_of_half _, hq⟩⟩
  rintro (⟨rd', m', b, e, _⟩ | ⟨m', rs', b, lo, e, hb, hp, hlo, hq⟩)
  · cases e
  · cases e
    cases hr.symm.trans hb
    rw [low_byte_eq hlo]
    exact ⟨hp, hq⟩

end

/-! ### Which slots change -/

section
variable {i : Instr} {s : State}

theorem SlotFrame.of_same {t : State} (h : ∀ j, t.get j = s.get j) : SlotFrame i s t := fun j hne => absurd (h j) hne

theorem SlotFrame.of_writeDest {rd : Slot} (hd : destOf i = some rd) (hn : ¬ (LowDenied i s ∨ HighDenied i s)) (v : SlotVal) :
    SlotFrame i s (s.writeDest rd v) := by
  intro j hne
  obtain rfl : j = rd := by
    by_contra e
    exact hne (State.get_writeDest_ne s v e)
  rcases hl : s.locked j with _ | _
  · exact .inl ⟨hn, .inl ⟨hd, rfl⟩⟩
  · exact absurd (by rw [State.writeDest_of_locked hl]) hne

theorem SlotFrame.of_updateFl (hi : i = .sez ∨ i = .clz ∨ i = .inz) (hn : ¬ (LowDenied i s ∨ HighDenied i s)) {f : SlotVal → SlotVal}
    (hf : KeepsOtherFlags f) : SlotFrame i s (s.updateFl f) := by
  intro j hne
  obtain rfl : j = .fl := by
    by_contra e
    exact hne (State.get_set_ne (Ne.symm e))
  exact .inl ⟨hn, .inr ⟨rfl, hi, fun n hn => by rw [State.updateFl, State.get_set_self, hf _ n hn]⟩⟩

/-- A violation in a state whose slots are those of `s`. -/
theorem SlotFrame.of_violation (hd : LowDenied i s ∨ HighDenied i s) {u : State} (hu : ∀ j, u.get j = s.get j) {a : Addr} {need : Access}
    (hp : u.perm a need = false) : SlotFrame i s (u.pageAV a) := by
  intro j hne
  have hmmue : s.get .mmue ≠ 0 := by
    intro hoff
    rw [← hu .mmue, ← flag_eq_false_iff] at hoff
    exact absurd (State.perm_of_mmu_off hoff a need) (ne_true_of_eq_false hp)
  refine .inr ⟨hd, hmmue, ?_⟩
  by_contra hj
  simp only [violationSlots, List.mem_append, List.mem_cons, List.not_mem_nil, or_false, not_or] at hj
  obtain ⟨htrap, h0, h1⟩ := hj
  exact hne (((u.pageAV_frame a).slots j htrap h0 h1).trans (hu j))

end

/-! ### The frames -/

/-- With nothing changed behind the port only the slots are left to say. -/
theorem InstrFrame.of_sameBehindPort {i : Instr} {s t : State} (hs : SlotFrame i s t) (hp : SameBehindPort s t) : InstrFrame i s t where
  slots := hs
  noStore _ := ⟨hp.mem, hp.devices⟩
  byte _ _ _ _ _ := ⟨fun b _ => State.memRead_congr hp.mem b, fun _ _ => hp.devices⟩
  word _ _ _ _ _ := ⟨fun b _ _ => State.memRead_congr hp.mem b, fun _ b _ => State.memRead_congr hp.mem b, fun _ _ _ _ => hp.devices⟩
  denied _ := ⟨hp.mem, hp.devices⟩

theorem instrFrame_of_no_access {i : Instr} (hi : accessesMemory i = false) {s t : State} (h : exec i s = .next t) : InstrFrame i s t := by
  have hn := not_denied_of_no_access hi s
  refine .of_sameBehindPort ?_ (sameBehindPort_of_no_access hi h)
  rcases exec_of_no_access hi s with ⟨rd, v, hd, he⟩ | ⟨f, hflag, hf, he⟩ | he <;> rw [he] at h <;> cases h
  · exact .of_writeDest hd hn v
  · exact .of_updateFl hflag hn hf
  · exact .of_same fun _ => rfl

theorem instrFrame_lodB {rd : Slot} {m : MemOperand} {s t : State} (h : exec (.lodB rd m) s = .next t) : InstrFrame (.lodB rd m) s t := by
  refine .of_sameBehindPort ?_ (sameBehindPort_of_load (.inl rfl) h)
  obtain ⟨a, hr, hcase⟩ := execLodB_next h
  have hlow := lowDenied_load (i := .lodB rd m) (.inl rfl) hr
  rcases hcase with ⟨hp, rfl⟩ | ⟨hp, rfl⟩
  · refine .of_writeDest rfl (not_or_intro ?_ (not_highDenied_byte (.inl rfl))) _
    rw [hlow, hp]; decide
  · exact .of_violation (.inl (hlow.2 hp)) (fun _ => rfl) hp

theorem instrFrame_lodW {rd : Slot} {m : MemOperand} {s t : State} (h : exec (.lodW rd m) s = .next t) : InstrFrame (.lodW rd m) s t := by
  refine .of_sameBehindPort ?_ (sameBehindPort_of_load (.inr rfl) h)
  obtain ⟨a, hr, hcase⟩ := execLodW_next h
  have hlow := lowDenied_load (i := .lodW rd m) (.inr rfl) hr
  have hhigh := highDenied_lodW (rd := rd) hr
  rcases hcase with ⟨hp, hq, rfl⟩ | ⟨hp, rfl⟩ | ⟨_, hq, rfl⟩
  · refine .of_writeDest rfl ?_ _
    rw [hlow, hhigh, hp, hq]; decide
  · exact .of_violation (.inl (hlow.2 hp)) (fun _ => rfl) hp
  · exact .of_violation (.inr (hhigh.2 hq)) (fun _ => rfl) hq

theorem instrFrame_stoB {m : MemOperand} {rs : Slot} {s t : State} (h : exec (.stoB m rs) s = .next t) : InstrFrame (.stoB m rs) s t := by
  obtain ⟨a, hr, hcase⟩ := execStoB_next h
  have hlow := lowDenied_store (i := .stoB m rs) (.inl rfl) hr
  rcases hcase with ⟨hp, rfl⟩ | ⟨hp, rfl⟩
  · refine ⟨.of_same fun j => State.get_memWrite s j a _, fun hno => absurd rfl (hno m rs).1, fun m' rs' b e hb => ?_, fun m' rs' b e => ?_,
      fun hd => ?_⟩
    · cases e
      cases hr.symm.trans hb
      exact ⟨fun c hc => State.memRead_memWrite_ne s _ hc, fun hna hnt => State.devices_memWrite hna hnt s _⟩
    · cases e
    · exact absurd hp (ne_true_of_eq_false (hlow.1 hd))
  · exact .of_sameBehindPort (.of_violation (.inl (hlow.2 hp)) (fun _ => rfl) hp) (.of_pageAV s a)

theorem instrFrame_stoW {m : MemOperand} {rs : Slot} {s t : State} (h : exec (.stoW m rs) s = .next t) : InstrFrame (.stoW m rs) s t := by
  obtain ⟨a, lo, hi, hr, rfl, rfl, hcase⟩ := execStoW_next h
  have hlow := lowDenied_store (i := .stoW m rs) (.inr rfl) hr
  have hhigh := highDenied_stoW (rs := rs) hr
  rcases hcase with ⟨hp, hq, rfl⟩ | ⟨hp, rfl⟩ | ⟨hp, hq, rfl⟩
  · refine ⟨.of_same fun j => by rw [State.get_memWrite, State.get_memWrite], fun hno => absurd rfl (hno m rs).2, fun m' rs' b e => ?_,
      fun m' rs' b e hb => ?_, fun hd => absurd hp (ne_true_of_eq_false (hlow.1 hd))⟩
    · cases e
    · cases e
      cases hr.symm.trans hb
      refine ⟨fun c h0 h1 => ?_, fun hd => ?_, fun hna hnt hna' hnt' => ?_⟩
      · rw [State.memRead_memWrite_ne _ _ h1, State.memRead_memWrite_ne _ _ h0]
      · exact absurd hq (ne_true_of_eq_false (hhigh.1 hd).2)
      · rw [State.devices_memWrite hna' hnt', State.devices_memWrite hna hnt]
  · exact .of_sameBehindPort (.of_violation (.inl (hlow.2 hp)) (fun _ => rfl) hp) (.of_pageAV s a)
  · have hport := SameBehindPort.of_pageAV (s.memWrite a ((s.offOf rs).extractLsb' 0 8)) (addrPlus a 1)
    refine ⟨.of_violation (.inr (hhigh.2 ⟨hp, hq⟩)) (fun j => State.get_memWrite s j a _) hq, fun hno => absurd rfl (hno m rs).2,
      fun m' rs' b e => ?_, fun m' rs' b e hb => ?_, fun hd => absurd hp (ne_true_of_eq_false (hlow.1 hd))⟩
    · cases e
    · cases e
      cases hr.symm.trans hb
      have hreads (c : Addr) (hc : c ≠ a) :
          ((s.memWrite a ((s.offOf rs).extractLsb' 0 8)).pageAV (addrPlus a 1)).memRead c = s.memRead c := by
        rw [State.memRead_congr hport.mem, State.memRead_memWrite_ne _ _ hc]
      refine ⟨fun c hc _ => hreads c hc, fun _ => hreads, fun hna hnt _ _ => ?_⟩
      rw [hport.devices, State.devices_memWrite hna hnt]

theorem exec_frame {i : Instr} {s t : State} (h : exec i s = .next t) : InstrFrame i s t := by
  cases i with
  | lodB rd m => exact instrFrame_lodB h
  | lodW rd m => exact instrFrame_lodW h
  | stoB m rs => exact instrFrame_stoB h
  | stoW m rs => exact instrFrame_stoW h
  | _ => exact instrFrame_of_no_access rfl h

/-- With the MMU off an effect changes no slot but the one its instruction writes. -/
theorem Effect.writesSlot_of_mmu_off {i : Instr} {s t : State} (h : Effect i s t) (hoff : s.flagOf .mmue = false) {j : Slot}
    (hne : t.get j ≠ s.get j) : WritesSlot i j := by
  cases h with
  | dest rd v hd hv =>
    by_cases e : j = rd
    · exact .inl (e ▸ hd)
    · exact absurd (State.get_writeDest_ne s v e) hne
  | flags v hi hv =>
    by_cases e : j = .fl
    · exact .inr ⟨e, hi⟩
    · exact absurd (State.get_set_ne (Ne.symm e)) hne
  | nothing hd => exact absurd rfl hne
  | byte a v hd ha => exact absurd (State.get_memWrite s j a v) hne
  | word a lo hi hd ha hb => exact absurd (by rw [State.get_memWrite, State.get_memWrite]) hne
  | violation a need ha => exact absurd (State.perm_of_mmu_off hoff a need) (ne_true_of_eq_false ha)
  | halfStored a lo hd ha hb =>
    have hlow : (s.memWrite a lo).flagOf .mmue = false := by rw [State.flagOf_memWrite, hoff]
    exact absurd (State.perm_of_mmu_off hlow _ .write) (ne_true_of_eq_false hb)

end Sys2Proof.Machine
end

section
/-! CERTIFICATE. The statements about every instruction at once (10_state.md section 3, 60_exceptions.md section 1, 70_reset_and_hazards.md section 2). -/

namespace Sys2Proof.Machine

/-- Settles O48: instruction by instruction, a store's own bytes apart, nothing changes behind the port. -/
theorem everyInstructionHasItsFrame : Obligations.EveryInstructionHasItsFrame := by
  intro i s t h
  obtain ⟨hslots, hnoStore, hbyte, hword, hdenied⟩ := exec_frame h
  exact ⟨hslots, hnoStore, hbyte, hword, hdenied⟩

theorem exec_completes_of_no_access {i : Instr} (hi : accessesMemory i = false) (s : State) : ∃ t, exec i s = .next t := by
  rcases exec_of_no_access hi s with ⟨rd, v, _, he⟩ | ⟨f, _, _, he⟩ | he <;> exact ⟨_, he⟩

/-- Settles O49: a well-formed operand has an address, and a denied access has a next state too. -/
theorem everyWellFormedInstructionCompletes : Obligations.EveryWellFormedInstructionCompletes := by
  intro i s hw
  cases i with
  | lodB rd m =>
    obtain ⟨a, hr⟩ := State.resolve_wf (s := s) hw
    rcases hp : s.perm a .read with _ | _
    · exact ⟨_, exec_lodB_of_denied hr hp rd⟩
    · exact ⟨_, exec_lodB_of_perm hr hp rd⟩
  | lodW rd m =>
    obtain ⟨a, hr⟩ := State.resolve_wf (s := s) hw
    rcases hv : s.readProt16 a with bad | v
    · exact ⟨_, exec_lodW_of_error hr hv rd⟩
    · exact ⟨_, exec_lodW_of_ok hr hv rd⟩
  | stoB m rs =>
    obtain ⟨a, hr⟩ := State.resolve_wf (s := s.beforeRsByte) hw
    exact ⟨_, exec_stoB hr rs⟩
  | stoW m rs =>
    obtain ⟨a, hr⟩ := State.resolve_wf (s := s.beforeRsByte) hw
    exact ⟨_, exec_stoW hr rs⟩
  | _ => exact exec_completes_of_no_access rfl s

/-- Settles O50: with every access permitted no effect is a violation. -/
theorem withTheMmuOffNothingTraps : Obligations.WithTheMmuOffNothingTraps := by
  intro s hs
  have hoff : s.flagOf .mmue = false := (flag_eq_false_iff _).2 hs
  refine ⟨fun n j _ => State.perm_of_mmu_off hoff _ _, fun i hw => ?_⟩
  obtain ⟨t, ht⟩ := everyWellFormedInstructionCompletes i s hw
  exact ⟨t, ht, fun j hne => (exec_effect ht).writesSlot_of_mmu_off hoff hne⟩

end Sys2Proof.Machine
end

section
/-! SUPPORT. What the assembler accepts: an implemented opcode and a well-formed operand (30_encoding.md section 5). -/

namespace Sys2Proof.Machine.Asm

/-- The assembler knows the opcodes below the reserved ones (30_encoding.md R97). -/
theorem opcodeOf_lt {name : List Char} {op : Byte} (h : opcodeOf name = some op) : op.toNat < 0x1D := by
  obtain ⟨row, hrow, he⟩ := List.exists_of_findSome?_eq_some h
  have hlt : ∀ row ∈ opcodeNames, row.2.toNat < 0x1D := by decide
  split at he
  · cases he; exact hlt row hrow
  · cases he

/-- The index form gives a field of 0..7 (R100). -/
theorem afterIndex_lt {cs rest : List Char} {f : BitVec 4} (h : afterIndex cs = some (f, rest)) : f.toNat < 8 := by
  unfold afterIndex at h
  split at h
  · next d more =>
    split at h
    · next hd =>
      simp only [Bool.and_eq_true, decide_eq_true_eq, Config.generalCount] at hd
      split at h
      · cases h
        rw [BitVec.toNat_ofNat]
        omega
      · cases h
    · cases h
  · cases h

/-- Of the keyword forms only the index form gives the indexed mode. -/
theorem keywordForm_index_lt {cs rest : List Char} {mode : Mode} {f : BitVec 4} (h : keywordForm cs = some (mode, f, rest))
    (hm : mode = .indexed) : f.toNat < 8 := by
  subst hm
  unfold keywordForm at h
  split at h
  · cases h
  · split at h
    · cases h
    · split at h
      · cases h
      · split at h
        · cases h
        · rcases e : afterIndex cs with _ | ⟨f', rest'⟩ <;> rw [e] at h <;> cases h
          exact afterIndex_lt e

theorem body_wellFormed {bank : Option Bank} {cs rest : List Char} {m : MemOperand} (h : body bank cs = some (m, rest)) :
    m.wellFormed = true := by
  refine wellFormed_of_index fun hm => ?_
  unfold body at h
  split at h
  · next mode f more hk =>
    rcases e : source more with _ | p <;> rw [e] at h <;> cases h
    exact keywordForm_index_lt hk hm
  · cases h
  · rcases e : source cs with _ | p <;> rw [e] at h <;> cases h
    cases hm

theorem memOperand_wellFormed {cs rest : List Char} {m : MemOperand} (h : memOperand cs = some (m, rest)) : m.wellFormed = true := by
  unfold memOperand at h
  split at h
  · dsimp only at h
    split at h
    · next hp =>
      split at h
      · cases h
        split at hp
        · exact body_wellFormed hp
        · exact body_wellFormed hp
      · cases h
    · cases h
  · cases h

/-- Two operands are what their two parsers read. -/
theorem pair_some {α β : Type} {first : List Char → Option (α × List Char)} {second : List Char → Option (β × List Char)} {cs : List Char}
    {x : α × β} (h : pair first second cs = some x) :
    (∃ rest, first cs = some (x.1, rest)) ∧ ∃ cs' rest, second cs' = some (x.2, rest) := by
  unfold pair at h
  split at h
  · cases h
  · next a rest ha =>
    split at h
    · cases h
    · next rest2 _ =>
      split at h
      · cases h
      · next b rest3 hb =>
        split at h
        · cases h; exact ⟨⟨rest, ha⟩, rest2, rest3, hb⟩
        · cases h

/-- The operands of a shape make a well-formed instruction with the shape's opcode. -/
theorem operands_encodes {op : Byte} {shape : Shape} (he : Shape.Encodes op shape) {cs : List Char} {i : Instr}
    (h : operands shape cs = some i) : i.wellFormed = true ∧ Encode.opcode i = op := by
  cases shape with
  | N j =>
    obtain ⟨hop, _, hw⟩ := he
    simp only [operands, Option.ite_none_right_eq_some, Option.some.injEq] at h
    obtain ⟨_, rfl⟩ := h
    exact ⟨hw, hop⟩
  | R mk =>
    simp only [operands] at h
    split at h
    · next rd _ _ =>
      obtain ⟨hop, _, hw⟩ := he rd
      simp only [Option.ite_none_right_eq_some, Option.some.injEq] at h
      obtain ⟨_, rfl⟩ := h
      exact ⟨hw, hop⟩
    · cases h
  | RR mk =>
    obtain ⟨x, _, rfl⟩ := Option.map_eq_some_iff.1 h
    obtain ⟨hop, _, hw⟩ := he x.1 x.2
    exact ⟨hw, hop⟩
  | RI8 mk =>
    obtain ⟨x, _, rfl⟩ := Option.map_eq_some_iff.1 h
    obtain ⟨hop, _, hw⟩ := he x.1 x.2
    exact ⟨hw, hop⟩
  | RI16 mk =>
    obtain ⟨x, _, rfl⟩ := Option.map_eq_some_iff.1 h
    obtain ⟨hop, _, hw⟩ := he x.1 x.2
    exact ⟨hw, hop⟩
  | RM mk =>
    obtain ⟨x, hx, rfl⟩ := Option.map_eq_some_iff.1 h
    obtain ⟨_, _, _, hm⟩ := pair_some hx
    obtain ⟨hop, _, hw⟩ := he x.1 x.2
    exact ⟨hw.trans (memOperand_wellFormed hm), hop⟩
  | MR mk =>
    obtain ⟨x, hx, rfl⟩ := Option.map_eq_some_iff.1 h
    obtain ⟨⟨_, hm⟩, _⟩ := pair_some hx
    obtain ⟨hop, _, hw⟩ := he x.1 x.2
    exact ⟨hw.trans (memOperand_wellFormed hm), hop⟩

/-- A line that is accepted stands for a well-formed instruction with an implemented opcode. -/
theorem parse_some {line : List Char} {i : Instr} (h : parse line = some i) : i.wellFormed = true ∧ (Encode.opcode i).toNat < 0x1D := by
  unfold parse at h
  dsimp only at h
  split at h
  · cases h
  · next op hop =>
    split at h
    · cases h
    · next shape hshape =>
      obtain ⟨hw, rfl⟩ := operands_encodes (shapeOf_encodes hshape) h
      exact ⟨hw, opcodeOf_lt hop⟩

/-- The reserved instructions have the opcodes from 0x1D on (30_encoding.md R91). -/
theorem opcode_reserved : ∀ i ∈ reservedInstrs, 0x1D ≤ (Encode.opcode i).toNat := by decide

end Sys2Proof.Machine.Asm
end

section
/-! CERTIFICATE. The statements about the assembler (30_encoding.md section 5). -/

namespace Sys2Proof.Machine.Asm

/-- Settles O56: the assembler emits the encoding of the instruction it read, and the decoder reads that back. -/
theorem assemblerEmitsWhatTheDecoderReads : Obligations.AssemblerEmitsWhatTheDecoderReads := by
  intro line bytes h
  obtain ⟨i, hi, rfl⟩ := Option.map_eq_some_iff.1 h
  obtain ⟨hw, hop⟩ := parse_some hi
  have hdecode : decode (encode i) = some (.instr i, []) := by
    rw [← List.append_nil (encode i)]
    exact decode_encode hw []
  exact ⟨i, hw, rfl, hdecode, fun hmem => Nat.not_lt.2 (opcode_reserved i hmem) hop⟩

/-- Settles O57: closed lines, read by the assembler. -/
theorem assemblerExampleLines : Obligations.AssemblerExampleLines := by
  unfold Obligations.AssemblerExampleLines; decide

end Sys2Proof.Machine.Asm
end
